-- ==== Sys2Proof/Word.lean ====
section
/-! DEFINITION. The one word type of the block: the byte (00_scope R7, R9; 20_memory R58). -/

namespace Sys2Proof

/-- Every configured value, every payload element and every wire word is one unsigned byte (00_scope R7). -/
abbrev Byte := BitVec 8

/-- `zext_8` of a value of `w` bits (00_scope R9). -/
def zext8 {w : Nat} (v : BitVec w) : Byte := v.setWidth 8

end Sys2Proof
end

