-- ==== Sys2Proof/Config.lean ====
section
/-! DEFINITION. What an implementation fixes (00_scope R7, R8) and the values the spec leaves free.

The parameters of R8 are a record, `Params`, that the state carries and no step changes: a statement about every
state is then a statement about every legal parameter value.
The free values are constants with no body, read at a counter of the state (DESIGN CHOICE, log entries 2, 3 and 5). -/

namespace Sys2Proof

/-- The five lines, one per role (00_scope R7; 10_state R29). -/
inductive Line where
  | sclk | mosi | miso | cs | rsv
  deriving DecidableEq, Repr

/-- One value for each of the five lines. -/
structure PerLine (α : Type) where
  sclk : α
  mosi : α
  miso : α
  cs   : α
  rsv  : α
  deriving DecidableEq, Repr

def PerLine.get {α : Type} (p : PerLine α) : Line → α
  | .sclk => p.sclk
  | .mosi => p.mosi
  | .miso => p.miso
  | .cs   => p.cs
  | .rsv  => p.rsv

def PerLine.set {α : Type} (p : PerLine α) (l : Line) (v : α) : PerLine α :=
  match l with
  | .sclk => { p with sclk := v }
  | .mosi => { p with mosi := v }
  | .miso => { p with miso := v }
  | .cs   => { p with cs := v }
  | .rsv  => { p with rsv := v }

def PerLine.map {α β : Type} (f : α → β) (p : PerLine α) : PerLine β :=
  ⟨f p.sclk, f p.mosi, f p.miso, f p.cs, f p.rsv⟩

def PerLine.const {α : Type} (v : α) : PerLine α := ⟨v, v, v, v, v⟩

/-- Whether a test holds of all five values. -/
def PerLine.all {α : Type} (f : α → Bool) (p : PerLine α) : Bool :=
  f p.sclk && f p.mosi && f p.miso && f p.cs && f p.rsv

/-- The electrical state a claim gives a line: the values of `P_LINE_INIT[l]` (00_scope R8; 44_line_arbiter R162). -/
inductive LineInit where
  | outLow | outHigh | input
  deriving DecidableEq, Repr

/-- `P_BIT_ORDER` (43_serializer R141). -/
inductive BitOrder where
  | msbFirst | lsbFirst
  deriving DecidableEq, Repr

/-- `P_PARSE_MODE[e]` (45_text_frontend R181, R182). -/
inductive ParseMode where
  | auto | dec
  deriving DecidableEq, Repr

/-- The five text endpoints (45_text_frontend). -/
inductive Endpoint where
  | numcmd | cmd | numrw | data | lock
  deriving DecidableEq, Repr, Inhabited

/-- One value for each text endpoint. -/
structure PerEndpoint (α : Type) where
  numcmd : α
  cmd    : α
  numrw  : α
  data   : α
  lock   : α
  deriving DecidableEq, Repr

def PerEndpoint.get {α : Type} (p : PerEndpoint α) : Endpoint → α
  | .numcmd => p.numcmd
  | .cmd    => p.cmd
  | .numrw  => p.numrw
  | .data   => p.data
  | .lock   => p.lock

/-- `CMD_CAP`, the capacity of the command buffer (00_scope R7). -/
def cmdCap : Nat := 4

/-- The implementation parameters of 00_scope R8. -/
structure Params where
  /-- `P_PAYLOAD_MAX`, 1 to 255. -/
  payloadMax : Nat
  /-- `P_CPOL`, the idle level of SCLK. -/
  cpol       : Bool
  /-- `P_CPHA`: false samples on the leading edge, true on the trailing edge. -/
  cpha       : Bool
  /-- `P_BIT_ORDER`. -/
  bitOrder   : BitOrder
  /-- `P_CS_ACTIVE`: the level of a selected CS, false for LOW. -/
  csActive   : Bool
  /-- `P_READ_FILL`. -/
  readFill   : Byte
  /-- `P_LINE_INIT`. -/
  lineInit   : PerLine LineInit
  /-- `P_PARSE_MODE`. -/
  parseMode  : PerEndpoint ParseMode
  /-- `N_HOSTS`, 1 or more. -/
  nHosts     : Nat
  deriving DecidableEq, Repr

/-- CS is not driven to its active level by a claim (44_line_arbiter R162). -/
def Params.csInitInactive (p : Params) : Bool :=
  match p.lineInit.cs with
  | .input   => true
  | .outLow  => p.csActive
  | .outHigh => !p.csActive

/-- The legal parameter values of 00_scope R8, with the constraint of 44_line_arbiter R162. -/
def Params.legal (p : Params) : Bool :=
  decide (1 ≤ p.payloadMax) && decide (p.payloadMax ≤ 255) && decide (1 ≤ p.nHosts)
    && decide (p.lineInit.miso = .input) && p.csInitInactive

/-- The default of `P_LINE_INIT`, which depends on `P_CPOL`: SCLK at its idle level (44_line_arbiter R162). -/
def lineInitDefault (cpol : Bool) : PerLine LineInit :=
  ⟨if cpol then .outHigh else .outLow, .outLow, .input, .input, .input⟩

/-- The defaults of 00_scope R8 and 44_line_arbiter R162, for the two parameters that have none. `P_CPOL` is 0 unless
another value is given, and `P_LINE_INIT` follows it. -/
def Params.defaults (payloadMax nHosts : Nat) (cpol : Bool := false) : Params where
  payloadMax := payloadMax
  cpol       := cpol
  cpha       := false
  bitOrder   := .msbFirst
  csActive   := false
  readFill   := 0x00
  lineInit   := lineInitDefault cpol
  parseMode  := ⟨.auto, .auto, .auto, .auto, .auto⟩
  nHosts     := nHosts

/-- What the transport does when the engine waits for a half-bit step (43_serializer R147, R148):
no tick yet, a tick, or a tick whose `TransportAbort()` is true. -/
inductive TransportDraw where
  | stall | tick | abort
  deriving DecidableEq, Repr, Inhabited

/-- A text operation (45_text_frontend R180). -/
inductive TextOp where
  | write (e : Endpoint) (s : List Byte)
  | read (e : Endpoint)
  deriving DecidableEq, Repr, Inhabited

/-- One move of one agent (00_scope R6). -/
inductive Event where
  /-- `H(host)` submits a frame (10_state R32). -/
  | submit (host : Nat) (frame : List Byte)
  /-- `H(host)`, a text front-end, begins a text operation (45_text_frontend R180). -/
  | text (host : Nat) (op : TextOp)
  /-- The front-end `H(host)` takes the response it waits for. -/
  | front (host : Nat)
  /-- The sequencer moves: it goes on with the request in service, or accepts the waiting request of `H(host)`. -/
  | serve (host : Nat)
  /-- `X.take(S)` (44_line_arbiter R165). -/
  | take (lines : List Line)
  /-- `X.give(S)` (44_line_arbiter R165). -/
  | give (lines : List Line)
  /-- Reset (70_reset_and_hazards R230). -/
  | reset
  /-- Teardown (70_reset_and_hazards R234). -/
  | teardown
  deriving DecidableEq, Repr, Inhabited

namespace Config

/-- Free: `P_PAYLOAD_MAX - 1` of the machine that `State.reset` describes (OPEN, decision D11; log entry 2). -/
opaque payloadSpare : Fin 255
/-- Free: `N_HOSTS - 1` of the machine that `State.reset` describes (OPEN, decision D23; log entry 2). -/
opaque extraHosts : Nat
/-- Free: the transport's draw once the scripted ones are used up (43_serializer R147, R148; log entry 3). -/
opaque freeTransport : Nat → TransportDraw
/-- Free: `TransportAbortAtEnd()` once the scripted draws are used up (43_serializer R148; log entry 3). -/
opaque freeEndAbort : Nat → Bool
/-- Free: the peripheral's level on MISO once the scripted levels are used up (43_serializer R146; log entry 3). -/
opaque freeMiso : Nat → Bool
/-- Free: which agent moves next, and how, when nothing in the schedule says (00_scope R6; 20_memory R54;
60_exceptions R222; log entry 5). -/
opaque freeMove : Nat → Event
/-- The parameters of the machine that `State.reset` describes (log entry 2). -/
def params : Params := Params.defaults (payloadSpare.val + 1) (extraHosts + 1)

end Config

end Sys2Proof
end

