-- ==== Sys2Proof/Syntax.lean ====
section
/-! DEFINITION. The eleven requests (30_encoding R71).

A request carries its argument bytes as the frame has them, well formed for its format or not: 30_encoding R76
lets a malformed frame of a legal opcode reach its own rule, which answers PARSE_ERROR (DESIGN CHOICE, log entry 11). -/

namespace Sys2Proof

/-- One constructor for each row of spec/opcode_table.json. -/
inductive Instr where
  | numcmdWr (args : List Byte)
  | numcmdRd (args : List Byte)
  | cmdWr    (args : List Byte)
  | cmdRd    (args : List Byte)
  | numrwWr  (args : List Byte)
  | numrwRd  (args : List Byte)
  | dataWr   (args : List Byte)
  | dataRd   (args : List Byte)
  | lockWr   (args : List Byte)
  | lockRd   (args : List Byte)
  | status   (args : List Byte)
  deriving DecidableEq, Repr

/-- The argument formats of 30_encoding R73. -/
inductive Format where
  | f0 | f1 | fn | fp | fa
  deriving DecidableEq, Repr

namespace Instr

/-- The argument bytes of the frame. -/
def args : Instr → List Byte
  | numcmdWr a | numcmdRd a | cmdWr a | cmdRd a | numrwWr a | numrwRd a
  | dataWr a | dataRd a | lockWr a | lockRd a | status a => a

/-- The format column of 30_encoding R71. -/
def format : Instr → Format
  | numcmdWr _ => .f1
  | numcmdRd _ => .f0
  | cmdWr _    => .fn
  | cmdRd _    => .f0
  | numrwWr _  => .f1
  | numrwRd _  => .f0
  | dataWr _   => .fp
  | dataRd _   => .f0
  | lockWr _   => .fa
  | lockRd _   => .f0
  | status _   => .f0

end Instr

end Sys2Proof
end

