-- ==== Sys2Proof/WellFormed.lean ====
section
/-! DEFINITION. Which requests a frame can carry (30_encoding R70), and which frames are well formed for their
format (30_encoding R73). -/

namespace Sys2Proof

/-- `len(args)` is 0 to 255: the request can be presented as a frame (30_encoding R70). -/
def Instr.wellFormed (i : Instr) : Bool := decide (i.args.length ≤ 255)

/-- A frame the port can deliver: an opcode byte and at most 255 argument bytes (30_encoding R70). -/
def framePresentable (f : List Byte) : Bool := decide (1 ≤ f.length) && decide (f.length ≤ 256)

/-- "Well formed" of 30_encoding R73: the argument count, and the range of a length argument.
`payloadMax` is `P_PAYLOAD_MAX` and `payloadLen` is `R[PAYLOAD_LEN]` at acceptance. -/
def Instr.formatOk (payloadMax payloadLen : Nat) : Instr → Bool
  | .numcmdWr [v] => decide (v.toNat ≤ cmdCap)
  | .numcmdWr _   => false
  | .numrwWr [v]  => decide (v.toNat ≤ payloadMax)
  | .numrwWr _    => false
  | .cmdWr []        => false
  | .cmdWr (n :: bs) => decide (n.toNat ≤ cmdCap) && decide (bs.length = n.toNat)
  | .dataWr a     => decide (a.length = payloadLen)
  | .lockWr _     => true
  | .numcmdRd a | .cmdRd a | .numrwRd a | .dataRd a | .lockRd a | .status a => a.isEmpty

end Sys2Proof
end

