-- ==== Sys2Proof/Decode.lean ====
section
/-! DEFINITION. The request decoder, total on any bytes, and the encoder (30_encoding R70 to R77, R79). -/

namespace Sys2Proof

/-- Why a byte string is none of the eleven requests. -/
inductive DecodeError where
  /-- No opcode byte: the frame cannot be presented (30_encoding R70). -/
  | noOpcode
  /-- More than 255 argument bytes: the frame cannot be presented (30_encoding R70; 60_exceptions R222). -/
  | tooLong
  /-- `SUB` is not `0b0000`: answered ILLEGAL_OP (30_encoding R72, R75). -/
  | reservedSub
  /-- `OP` is 0x0 or 0xC to 0xF: answered ILLEGAL_OP (30_encoding R75). -/
  | reservedOp
  deriving DecidableEq, Repr

/-- `OP`, bits 7 to 4 of the opcode byte (30_encoding R72). -/
def opField (op : Byte) : BitVec 4 := op.extractLsb' 4 4

/-- `SUB`, bits 3 to 0 of the opcode byte (30_encoding R72). -/
def subField (op : Byte) : BitVec 4 := op.extractLsb' 0 4

/-- The opcode map of 30_encoding R71, by the value of `OP`. -/
def requestOf (op : Nat) (args : List Byte) : Except DecodeError Instr :=
  match op with
  | 0x1 => .ok (.numcmdWr args)
  | 0x2 => .ok (.numcmdRd args)
  | 0x3 => .ok (.cmdWr args)
  | 0x4 => .ok (.cmdRd args)
  | 0x5 => .ok (.numrwWr args)
  | 0x6 => .ok (.numrwRd args)
  | 0x7 => .ok (.dataWr args)
  | 0x8 => .ok (.dataRd args)
  | 0x9 => .ok (.lockWr args)
  | 0xA => .ok (.lockRd args)
  | 0xB => .ok (.status args)
  | _   => .error .reservedOp

/-- Step 1 of the decoding order of 30_encoding R76. The arguments of a reserved opcode are not examined (R75). -/
def decode : List Byte → Except DecodeError Instr
  | [] => .error .noOpcode
  | op :: args =>
    if args.length > 255 then .error .tooLong
    else if subField op ≠ 0 then .error .reservedSub
    else requestOf (opField op).toNat args

/-- The opcode byte of each request (30_encoding R71). -/
def Instr.opcode : Instr → Byte
  | .numcmdWr _ => 0x10
  | .numcmdRd _ => 0x20
  | .cmdWr _    => 0x30
  | .cmdRd _    => 0x40
  | .numrwWr _  => 0x50
  | .numrwRd _  => 0x60
  | .dataWr _   => 0x70
  | .dataRd _   => 0x80
  | .lockWr _   => 0x90
  | .lockRd _   => 0xA0
  | .status _   => 0xB0

/-- The opcode byte, then the argument bytes in index order (30_encoding R72, R79). -/
def encode (i : Instr) : List Byte := i.opcode :: i.args

/-- `n` bytes of `w`, the least significant first: byte 0 of a frame is its first byte (20_memory R52). -/
def bytesOfNat : Nat → Nat → List Byte
  | 0, _     => []
  | n + 1, w => BitVec.ofNat 8 w :: bytesOfNat n (w / 256)

/-- How many argument bytes a frame with this opcode byte and these first arguments has at least, by 30_encoding
R77, for operands that are zero: one for F1, `1 + n` for FN, none otherwise. -/
def leastArgs (op : Byte) (args : List Byte) : Nat :=
  match (opField op).toNat with
  | 0x1 => 1
  | 0x3 => 1 + (args.headD 0).toNat
  | 0x5 => 1
  | _   => 0

/-- The frame of a table word: the bytes of `w`, and the operand bytes the table gives no bits, which are zero. -/
def tableFrame (nbits w : Nat) : List Byte :=
  match bytesOfNat (nbits / 8) w with
  | [] => []
  | op :: args => op :: (args ++ List.replicate (leastArgs op args - args.length) 0x00)

/-- The request the decoder reads from a table word (bit 0 is the least significant bit of the opcode byte). -/
def decodeTableWord (nbits w : Nat) : Option Instr :=
  match decode (tableFrame nbits w) with
  | .ok i    => some i
  | .error _ => none

end Sys2Proof
end

