-- ==== Sys2Proof/Machine/State.lean ====
section
/-! DEFINITION. The state of the block, of the pool and pins it works on, and of the agents around it, as plain data
(10_state; 00_scope R6, R14). -/

namespace Sys2Proof.Machine

/-- The owner of a pool line (10_state R29). -/
inductive Owner where
  | free | self | other
  deriving DecidableEq, Repr

/-- What the block does with a line: not driven (high impedance), or driven at a level (00_scope R10; 10_state R35). -/
inductive Pin where
  | input
  | out (level : Bool)
  deriving DecidableEq, Repr

/-- `SEQ` (10_state R31). -/
inductive Seq where
  | idle | busy
  deriving DecidableEq, Repr

/-- `PHASE` (10_state R34). -/
inductive Phase where
  | idle | select | cmd | payload | deselect
  deriving DecidableEq, Repr

/-- `DIR` (10_state R34). -/
inductive Dir where
  | read | write
  deriving DecidableEq, Repr

/-- `HALF`: which SCLK edge comes next (10_state R34). -/
inductive Half where
  | lead | trail
  deriving DecidableEq, Repr

/-- The response status codes (30_encoding R78). -/
inductive Status where
  | ok | parseError | ioError | resourceUnavailable | illegalOp
  deriving DecidableEq, Repr

/-- A response frame: a status and the result bytes (30_encoding R70, R78). -/
structure Response where
  status : Status
  result : List Byte
  deriving DecidableEq, Repr

/-- The events of the byte-level bus trace (20_memory R56). -/
inductive BusEvent where
  | select
  | byte (out inn : Byte)
  | abort (bits : Nat)
  | deselect
  deriving DecidableEq, Repr

/-- The events of the pin-level trace (43_serializer R145). `cs none` is CS at Z. -/
inductive PinEvent where
  | cs (level : Option Bool)
  | sclk (level : Bool)
  | mosi (level : Bool)
  | sample (level : Bool)
  deriving DecidableEq, Repr

/-- A request submitted and not yet accepted: an element of `PENDING` (10_state R32). -/
structure Request where
  host  : Nat
  frame : List Byte
  deriving DecidableEq, Repr

/-- `SNAP` (10_state R33). -/
structure Snapshot where
  len   : BitVec 3
  bytes : Vector Byte 4
  plen  : Byte
  deriving DecidableEq, Repr

/-- The transaction engine during an exchange (10_state R34). -/
structure Engine where
  phase    : Phase
  dir      : Dir
  /-- `BYTE_IDX`, the index of the current byte within its phase. -/
  byteIdx  : Nat
  /-- `BIT_IDX`, the number of bits of the current byte already shifted. -/
  bitIdx   : Nat
  half     : Half
  shiftOut : Byte
  shiftIn  : Byte
  /-- The local `s` of `ShiftByte` (43_serializer R143), which lives from step A to step B when `P_CPHA = 0`. -/
  sampled  : Bool
  /-- `ERR`: the transport has aborted this exchange. -/
  err      : Bool
  /-- The argument `out` of `Exchange` (42_transaction R121). -/
  out      : List Byte
  deriving DecidableEq, Repr

/-- The text failure classes (45_text_frontend R191). -/
inductive TextFailure where
  | parseError | ioError | resourceUnavailable
  deriving DecidableEq, Repr

/-- The result of a text operation (45_text_frontend R180, R191). -/
inductive TextResult where
  | consumed (n : Nat)
  | output (s : List Byte)
  | failed (c : TextFailure)
  deriving DecidableEq, Repr

/-- A text operation of host `host` that waits for the response to the request it sent when `since` responses had
been given. `learning` marks the `NUMRW_RD` that a `data` write sends first (45_text_frontend R188, R190; DESIGN CHOICE, log entry 14). -/
structure TextJob where
  host     : Nat
  op       : TextOp
  since    : Nat
  learning : Bool
  deriving DecidableEq, Repr

/-- What the agents outside the block will do: the model's own inputs (log entries 3, 4 and 5). -/
structure Env where
  /-- Which agent moves next, oldest first; when empty, a free value says. -/
  schedule  : List Event
  /-- The transport's draws, one for each wait of a half-bit step (43_serializer R147, R148). -/
  transport : List TransportDraw
  /-- The draws of `TransportAbortAtEnd()` (43_serializer R148). -/
  endAborts : List Bool
  /-- The levels the peripheral drives on MISO at the coming sample points (43_serializer R146). -/
  miso      : List Bool
  /-- How many free values have been used: the argument of the free constants of Config. -/
  draws     : Nat
  deriving DecidableEq, Repr

/-- What is observed of a run (00_scope R14), oldest first. -/
structure Obs where
  /-- The responses, each with its host. -/
  responses : List (Nat × Response)
  /-- The byte-level bus trace (20_memory R56). -/
  bus       : List BusEvent
  /-- The pin-level trace (43_serializer R145). -/
  pins      : List PinEvent
  /-- The results of the text operations, each with its host. -/
  text      : List (Nat × TextResult)
  /-- The transport ticks received (70_reset_and_hazards R245). -/
  ticks     : Nat
  deriving DecidableEq, Repr

/-- No behaviour of the block is a model fault (60_exceptions R222; 93_implementation_defined, treatment `fault`):
the type has no constructor, so no step can answer one. -/
inductive Fault where
  deriving DecidableEq, Repr

/-- The cases to which the spec gives no meaning (DEDUCED, log entry 15). -/
inductive Refusal where
  /-- An instruction with no meaning yet. Raised by no arm of exec. Safe: the machine stops. -/
  | notModelled (mnemonic : String)
  /-- A reset while a request is in service (70_reset_and_hazards R231). Raised by step at a reset event. Safe: the
  machine stops where the spec "gives that case no meaning". -/
  | resetWhileBusy
  /-- Teardown, the end of observation (70_reset_and_hazards R234). Raised by step at a teardown event. Safe: nothing
  can be claimed of the machine afterwards. -/
  | tornDown
  /-- A waiting frame with no opcode byte or of more than 256 bytes, which the port cannot deliver (30_encoding R70;
  60_exceptions R222). Raised by step when it accepts one; submitting one is not possible, so no run meets it. Safe. -/
  | frameNotPresentable
  deriving DecidableEq, Repr

/-- The state. -/
structure State where
  /-- The implementation parameters (00_scope R8); no step changes them. -/
  params     : Params
  /-- `CMD_BYTES[0..3]` (10_state R23). -/
  cmdBytes   : Vector Byte 4
  /-- `CMD_LEN` (10_state R24). -/
  cmdLen     : BitVec 3
  /-- `PAYLOAD_LEN` (10_state R25). -/
  payloadLen : Byte
  /-- `CLAIMED` (10_state R26). -/
  claimed    : Bool
  /-- `XFER_BUF` (10_state R27): the cells that are not zero, by rising index. -/
  xferBuf    : List Host.Cell
  /-- `Owner(l)` (10_state R29). -/
  owner      : PerLine Owner
  /-- The pins (10_state R35). -/
  pin        : PerLine Pin
  /-- `SEQ` (10_state R31). -/
  seq        : Seq
  /-- The host whose request is in service while `SEQ` is BUSY, and to whom `respond` answers. -/
  client     : Nat
  /-- `PENDING` (10_state R32). -/
  pending    : List Request
  /-- `SNAP` (10_state R33). -/
  snap       : Snapshot
  /-- The transaction engine (10_state R34). -/
  engine     : Engine
  /-- The text operations in progress (45_text_frontend R180). -/
  jobs       : List TextJob
  /-- The model's own: what the agents outside will do. -/
  env        : Env
  /-- The model's own: what has been observed. -/
  obs        : Obs
  deriving DecidableEq, Repr

/-- The engine at reset: `PHASE = IDLE`, the rest unspecified and not observable (10_state R34, R38;
DESIGN CHOICE, log entry 1). -/
def Engine.reset : Engine where
  phase    := .idle
  dir      := .read
  byteIdx  := 0
  bitIdx   := 0
  half     := .lead
  shiftOut := 0x00
  shiftIn  := 0x00
  sampled  := false
  err      := false
  out      := []

/-- The machine after reset, for given parameters and a given launch premise on the pool (10_state R38;
70_reset_and_hazards R230, R232). Lines owned by SELF are freed: the reset begins with a release. -/
def State.launch (p : Params) (pool : PerLine Owner) : State where
  params     := p
  cmdBytes   := Vector.replicate 4 0x00
  cmdLen     := 0
  payloadLen := 0x00
  claimed    := false
  xferBuf    := []
  owner      := pool.map fun o => if o = .self then .free else o
  pin        := PerLine.const .input
  seq        := .idle
  client     := 0
  pending    := []
  snap       := ⟨0, Vector.replicate 4 0x00, 0x00⟩
  engine     := Engine.reset
  jobs       := []
  env        := ⟨[], [], [], [], 0⟩
  obs        := ⟨[], [], [], [], 0⟩

/-- The machine right after reset: the default parameters, and the usual launch premise that all five lines are
FREE (70_reset_and_hazards R232; log entries 1 and 2). -/
def State.reset : State := State.launch Config.params (PerLine.const .free)

end Sys2Proof.Machine
end

