-- ==== Sys2Proof/Machine/Ops.lean ====
section
/-! DEFINITION. The named operations over registers, the transfer buffer, the pins, the traces and the environment's
draws, and the one way a request ends (00_scope R10). -/

namespace Sys2Proof.Machine

/-! ### XFER_BUF (10_state R27; 20_memory R51)

The cells are kept by rising index, and a cell that is zero is not listed, so that equal buffers are equal lists.
An unlisted cell reads as zero; no request returns one (DESIGN CHOICE, log entry 1). -/

namespace XferBuf

/-- What an unlisted cell reads as. -/
def unlisted : Byte := 0x00

/-- The canonical form: indices strictly rising, no cell equal to what an unlisted one reads as. -/
abbrev wf (m : List Host.Cell) : Prop :=
  m.Pairwise (fun c d => c.1 < d.1) ∧ ∀ c ∈ m, c.2 ≠ unlisted

/-- `BufRead(i)`. -/
def read : List Host.Cell → Nat → Byte
  | [], _ => unlisted
  | (a, b) :: m, i => if a = i then b else read m i

/-- The listing of a cell in front of `m`: none when it reads as an unlisted one. -/
def put (i : Nat) (v : Byte) (m : List Host.Cell) : List Host.Cell :=
  if v = unlisted then m else (i, v) :: m

/-- `BufWrite(i, v)`. -/
def write : List Host.Cell → Nat → Byte → List Host.Cell
  | [], i, v => put i v []
  | (a, b) :: m, i, v =>
    if a = i then put i v m
    else if i < a then put i v ((a, b) :: m)
    else (a, b) :: write m i v

end XferBuf

/-! ### Registers -/

/-- The command bytes with `bs` written from index `i` on; the other cells keep their values (10_state R23). -/
def putBytes : Nat → List Byte → Vector Byte 4 → Vector Byte 4
  | _, [], v => v
  | i, b :: bs, v => putBytes (i + 1) bs (v.setIfInBounds i b)

/-- `R[CMD_BYTES][0 .. CMD_LEN-1]`, the bytes that take part in a transaction or a `CMD_RD` (10_state R23). -/
def State.command (s : State) : List Byte := s.cmdBytes.toList.take s.cmdLen.toNat

/-- `R[CMD_LEN] <- v[2:0]` (41_config R100). -/
def State.setCmdLen (v : Byte) (s : State) : State := { s with cmdLen := v.extractLsb' 0 3 }

/-- `R[CMD_BYTES][i] <- bs[i]` for every `i` below the length of `bs` (41_config R102). -/
def State.setCmdBytes (bs : List Byte) (s : State) : State := { s with cmdBytes := putBytes 0 bs s.cmdBytes }

/-- `R[PAYLOAD_LEN] <- v` (41_config R104). -/
def State.setPayloadLen (v : Byte) (s : State) : State := { s with payloadLen := v }

/-- `BufWrite(i, v)` (00_scope R10). -/
def State.bufWrite (i : Nat) (v : Byte) (s : State) : State := { s with xferBuf := XferBuf.write s.xferBuf i v }

/-- `BufRead(i)` (00_scope R10). -/
def State.bufRead (s : State) (i : Nat) : Byte := XferBuf.read s.xferBuf i

/-! ### Traces, pins -/

/-- `trace(e)`: append an event to the bus trace (00_scope R10; 20_memory R56). -/
def State.trace (e : BusEvent) (s : State) : State := { s with obs := { s.obs with bus := s.obs.bus ++ [e] } }

/-- Append an event to the pin-level trace (43_serializer R145). -/
def State.tracePin (e : PinEvent) (s : State) : State := { s with obs := { s.obs with pins := s.obs.pins ++ [e] } }

/-- `Pin(SCLK) <- OUT(v)`; a line set to the level it already has emits no event (43_serializer R145). -/
def State.driveSclk (v : Bool) (s : State) : State :=
  if s.pin.sclk = .out v then s
  else State.tracePin (.sclk v) { s with pin := { s.pin with sclk := .out v } }

/-- `Pin(MOSI) <- OUT(v)`. -/
def State.driveMosi (v : Bool) (s : State) : State :=
  if s.pin.mosi = .out v then s
  else State.tracePin (.mosi v) { s with pin := { s.pin with mosi := .out v } }

/-- `Pin(CS) <- OUT(v)`. -/
def State.driveCs (v : Bool) (s : State) : State :=
  if s.pin.cs = .out v then s
  else State.tracePin (.cs (some v)) { s with pin := { s.pin with cs := .out v } }

/-- `Pin(CS) <- INPUT`. -/
def State.floatCs (s : State) : State :=
  if s.pin.cs = .input then s
  else State.tracePin (.cs none) { s with pin := { s.pin with cs := .input } }

/-! ### Draws of the environment

A scripted draw first; when the script is used up, a free value (log entry 3). -/

/-- The transport's next draw (43_serializer R147, R148). -/
def State.drawTransport (s : State) : TransportDraw × State :=
  match s.env.transport with
  | d :: rest => (d, { s with env := { s.env with transport := rest } })
  | [] => (Config.freeTransport s.env.draws, { s with env := { s.env with draws := s.env.draws + 1 } })

/-- The next draw of `TransportAbortAtEnd()` (43_serializer R148). -/
def State.drawEndAbort (s : State) : Bool × State :=
  match s.env.endAborts with
  | d :: rest => (d, { s with env := { s.env with endAborts := rest } })
  | [] => (Config.freeEndAbort s.env.draws, { s with env := { s.env with draws := s.env.draws + 1 } })

/-- The level the peripheral drives at this sample point (43_serializer R146). -/
def State.drawMiso (s : State) : Bool × State :=
  match s.env.miso with
  | v :: rest => (v, { s with env := { s.env with miso := rest } })
  | [] => (Config.freeMiso s.env.draws, { s with env := { s.env with draws := s.env.draws + 1 } })

/-- One more tick received (70_reset_and_hazards R245). -/
def State.countTick (s : State) : State := { s with obs := { s.obs with ticks := s.obs.ticks + 1 } }

/-! ### The end of a request -/

/-- `respond(status, bytes)`: give the host in service its response and return the sequencer to IDLE
(00_scope R10; 10_state R31). -/
def respond (st : Status) (result : List Byte) (s : State) : State :=
  { s with
    seq := .idle
    obs := { s.obs with responses := s.obs.responses ++ [(s.client, ⟨st, result⟩)] } }

/-- `raise <Status>`: the one way an error is taken. Nothing is saved, no mode changes, and control goes nowhere: the
sequencer answers and returns to IDLE (00_scope R10; 60_exceptions R215, R216). -/
def raise (st : Status) (s : State) : State := respond st [] s

end Sys2Proof.Machine
end

