-- ==== Sys2Proof/Machine/Flags.lean ====
section
/-! DEFINITION. The one flag, `CLAIMED`, and the status codes (10_state R26, R36; 30_encoding R78). -/

namespace Sys2Proof.Machine

/-- A one-bit result as a byte: `zext_8` of a flag (44_line_arbiter R166, R168). -/
def flagByte (b : Bool) : Byte := zext8 (BitVec.ofBool b)

/-- `R[CLAIMED] <- b`. -/
def State.setClaimed (b : Bool) (s : State) : State := { s with claimed := b }

/-- The status byte (30_encoding R78). -/
def Status.code : Status → Byte
  | .ok => 0x00
  | .parseError => 0x01
  | .ioError => 0x02
  | .resourceUnavailable => 0x03
  | .illegalOp => 0x04

/-- The response frame, `[status] ++ result` (30_encoding R78). -/
def Response.frame (r : Response) : List Byte := r.status.code :: r.result

end Sys2Proof.Machine
end

