-- ==== Sys2Proof/Machine/Operands.lean ====
section
/-! DEFINITION. The operand forms of the five argument formats (30_encoding R73, R74): each answers the operands of a
well-shaped argument list, and none where the shape or a range is wrong. -/

namespace Sys2Proof.Machine

/-- F0: no argument. -/
def operandsF0 (args : List Byte) : Bool := args.isEmpty

/-- F1: one argument, at most `bound`; the test is made on the full 8-bit value (30_encoding R74). -/
def operandF1 (bound : Nat) : List Byte → Option Byte
  | [v] => if v.toNat ≤ bound then some v else none
  | _ => none

/-- FN: a length of at most 4, then exactly that many bytes. -/
def operandsFN : List Byte → Option (Byte × List Byte)
  | [] => none
  | n :: bs => if n.toNat ≤ cmdCap ∧ bs.length = n.toNat then some (n, bs) else none

/-- FP: exactly `payloadLen` bytes. -/
def operandsFP (payloadLen : Nat) (args : List Byte) : Option (List Byte) :=
  if args.length = payloadLen then some args else none

end Sys2Proof.Machine
end

