-- ==== Sys2Proof/Machine/Arbiter.lean ====
section
/-! DEFINITION. The GPIO resource arbiter: `Claim`, `Release`, the external line consumer, and the requests
`LOCK_RD`, `LOCK_WR` and `STATUS` (44_line_arbiter R160 to R170). -/

namespace Sys2Proof.Machine

/-- The pin of a line in its declared electrical state (44_line_arbiter R162). -/
def initPin : LineInit → Pin
  | .outLow  => .out false
  | .outHigh => .out true
  | .input   => .input

/-- All five lines are FREE. -/
def State.allFree (s : State) : Bool := s.owner.all (· == .free)

/-- The pin event of a line that goes from one state to another: a line driven at a level it did not have, and no other
(43_serializer R145). -/
def levelEvent (event : Bool → PinEvent) : Pin → Pin → List PinEvent
  | old, .out v => if old = .out v then [] else [event v]
  | _, .input => []

/-- The pin events of applying `P_LINE_INIT`: SCLK, MOSI and CS, the lines that R145 has events for, where they are
driven (44_line_arbiter R162; DEDUCED, log entry 7). -/
def State.initEvents (s : State) : List PinEvent :=
  let init := s.params.lineInit.map initPin
  levelEvent .sclk s.pin.sclk init.sclk ++ levelEvent .mosi s.pin.mosi init.mosi
    ++ levelEvent (fun v => .cs (some v)) s.pin.cs init.cs

/-- Apply `P_LINE_INIT` to the five lines (44_line_arbiter R162). -/
def State.initLines (s : State) : State :=
  { s with
    pin := s.params.lineInit.map initPin
    obs := { s.obs with pins := s.obs.pins ++ s.initEvents } }

/-- `Claim()`: one atomic test and set over the five lines (44_line_arbiter R160, R164). -/
def claim (s : State) : Bool × State :=
  if !s.claimed && s.allFree then
    (true, State.setClaimed true (State.initLines { s with owner := PerLine.const .self }))
  else (false, s)

/-- The pin of a line after a release: the block stops driving a line it owns (44_line_arbiter R161, R163). -/
def releasedPin (o : Owner) (p : Pin) : Pin := if o = .self then .input else p

/-- The owner of a line after a release: a SELF line is freed, any other keeps its owner (44_line_arbiter R161). -/
def releasedOwner (o : Owner) : Owner := if o = .self then .free else o

/-- `Release()`: every line the block owns, in one atomic step (44_line_arbiter R161, R164). It adds no pin event
(DEDUCED, log entry 7). -/
def release (s : State) : State :=
  State.setClaimed false
    { s with
      pin   := ⟨releasedPin s.owner.sclk s.pin.sclk, releasedPin s.owner.mosi s.pin.mosi,
                releasedPin s.owner.miso s.pin.miso, releasedPin s.owner.cs s.pin.cs,
                releasedPin s.owner.rsv s.pin.rsv⟩
      owner := s.owner.map releasedOwner }

/-- Every line of `lines` is given the owner `o`. -/
def setOwners (lines : List Line) (o : Owner) (p : PerLine Owner) : PerLine Owner :=
  lines.foldl (fun p l => p.set l o) p

/-- `lines` is not empty and every line of it is owned by `o`. -/
def allOwned (lines : List Line) (o : Owner) (p : PerLine Owner) : Bool :=
  !lines.isEmpty && lines.all fun l => p.get l == o

/-- `X.take(S)`, which can happen only when every line of `S` is FREE (44_line_arbiter R165). -/
def externalTake (lines : List Line) (s : State) : State :=
  if allOwned lines .free s.owner then { s with owner := setOwners lines .other s.owner } else s

/-- `X.give(S)`, which can happen only when every line of `S` is OTHER (44_line_arbiter R165). -/
def externalGive (lines : List Line) (s : State) : State :=
  if allOwned lines .other s.owner then { s with owner := setOwners lines .free s.owner } else s

/-- `LOCK_RD` (44_line_arbiter R166). -/
def execLockRd (args : List Byte) (s : State) : Host.Outcome State Fault Refusal :=
  .next <|
    if operandsF0 args then
      let (r, s) := claim s
      respond .ok [flagByte r] s
    else raise .parseError s

/-- `LOCK_WR`: any argument bytes, ignored (44_line_arbiter R167). -/
def execLockWr (_args : List Byte) (s : State) : Host.Outcome State Fault Refusal :=
  .next (respond .ok [] (release s))

/-- `STATUS` (44_line_arbiter R168). -/
def execStatus (args : List Byte) (s : State) : Host.Outcome State Fault Refusal :=
  .next <| if operandsF0 args then respond .ok [flagByte s.claimed] s else raise .parseError s

end Sys2Proof.Machine
end

