-- ==== Sys2Proof/Machine/Configuration.lean ====
section
/-! DEFINITION. The six command-buffer configuration requests (41_config R100 to R107). -/

namespace Sys2Proof.Machine

/-- `NUMCMD_WR v` (41_config R100). -/
def execNumcmdWr (args : List Byte) (s : State) : Host.Outcome State Fault Refusal :=
  .next <| match operandF1 cmdCap args with
    | none   => raise .parseError s
    | some v => respond .ok [] (s.setCmdLen v)

/-- `NUMCMD_RD` (41_config R101). -/
def execNumcmdRd (args : List Byte) (s : State) : Host.Outcome State Fault Refusal :=
  .next <| if operandsF0 args then respond .ok [zext8 s.cmdLen] s else raise .parseError s

/-- `CMD_WR n, b0, ..., b(n-1)`: length and bytes in one step (41_config R102). -/
def execCmdWr (args : List Byte) (s : State) : Host.Outcome State Fault Refusal :=
  .next <| match operandsFN args with
    | none         => raise .parseError s
    | some (n, bs) => respond .ok [] ((s.setCmdBytes bs).setCmdLen n)

/-- `CMD_RD` (41_config R103). -/
def execCmdRd (args : List Byte) (s : State) : Host.Outcome State Fault Refusal :=
  .next <| if operandsF0 args then respond .ok (zext8 s.cmdLen :: s.command) s else raise .parseError s

/-- `NUMRW_WR v` (41_config R104). -/
def execNumrwWr (args : List Byte) (s : State) : Host.Outcome State Fault Refusal :=
  .next <| match operandF1 s.params.payloadMax args with
    | none   => raise .parseError s
    | some v => respond .ok [] (s.setPayloadLen v)

/-- `NUMRW_RD` (41_config R105). -/
def execNumrwRd (args : List Byte) (s : State) : Host.Outcome State Fault Refusal :=
  .next <| if operandsF0 args then respond .ok [s.payloadLen] s else raise .parseError s

end Sys2Proof.Machine
end

