-- ==== Sys2Proof/Machine/Serializer.lean ====
section
/-! DEFINITION. The bit-bang serial master: one half-bit step of `ShiftByte` (43_serializer R140 to R150). -/

namespace Sys2Proof.Machine

/-- The bit of a byte that is wire bit `i` (43_serializer R141). -/
def wirePos (o : BitOrder) (i : Nat) : Nat :=
  match o with
  | .msbFirst => 7 - i
  | .lsbFirst => i

/-- Wire bit `i` of the byte `d` (43_serializer R141). -/
def wireBit (o : BitOrder) (d : Byte) (i : Nat) : Bool := d.getLsbD (wirePos o i)

/-- The byte `v` with the level `b` at the position of wire bit `i` (43_serializer R141, R143). -/
def placeBit (o : BitOrder) (v : Byte) (i : Nat) (b : Bool) : Byte :=
  let mask : Byte := 1#8 <<< wirePos o i
  if b then v ||| mask else v &&& ~~~mask

/-- `s <- SampleMISO()`, with its pin event (43_serializer R145, R146). -/
def sampleMiso (s : State) : State :=
  let (v, s) := s.drawMiso
  State.tracePin (.sample v) { s with engine := { s.engine with sampled := v } }

/-- Step A, the leading edge, after its tick (43_serializer R143). -/
def leadStep (s : State) : State :=
  let o := wireBit s.params.bitOrder s.engine.shiftOut s.engine.bitIdx
  let edge := !s.params.cpol
  let s :=
    if s.params.cpha then (s.driveSclk edge).driveMosi o
    else sampleMiso ((s.driveMosi o).driveSclk edge)
  { s with engine := { s.engine with half := .trail } }

/-- Step B, the trailing edge, after its tick (43_serializer R143). -/
def trailStep (s : State) : State :=
  let s := s.driveSclk s.params.cpol
  let s := if s.params.cpha then sampleMiso s else s
  { s with engine := { s.engine with
      half    := .lead
      shiftIn := placeBit s.params.bitOrder s.engine.shiftIn s.engine.bitIdx s.engine.sampled
      bitIdx  := s.engine.bitIdx + 1 } }

end Sys2Proof.Machine
end

