-- ==== Sys2Proof/Machine/Framer.lean ====
section
/-! DEFINITION. The chip-select framer: `Exchange` of 42_transaction R121, one engine step at a time, and the run of
those steps to the response or to a wait for a tick (42_transaction R121, R125 to R130). -/

namespace Sys2Proof.Machine

/-- What one engine step comes to: it goes on, it waits for a tick, or the exchange is over. -/
inductive Progress where
  | running (s : State)
  | waiting (s : State)
  | over (s : State)
  deriving DecidableEq, Repr

/-- The step SELECT: the idle level of SCLK first, then CS (42_transaction R121). -/
def selectStep (s : State) : State :=
  let s := ((s.driveSclk s.params.cpol).driveCs s.params.csActive).trace .select
  { s with engine := { s.engine with phase := .cmd, byteIdx := 0 } }

/-- From the command phase to the payload phase, with no release of CS between them (42_transaction R121). -/
def enterPayload (s : State) : State :=
  { s with engine := { s.engine with phase := .payload, byteIdx := 0 } }

/-- The transport aborts with `bits` whole bits of the current byte shifted: the exchange goes to DESELECT
(43_serializer R148; 42_transaction R121, R129; DEDUCED, log entry 12). -/
def abortAt (bits : Nat) (s : State) : State :=
  let s := s.trace (.abort bits)
  { s with engine := { s.engine with phase := .deselect, err := true } }

/-- After the last byte: one draw of `TransportAbortAtEnd()`, then DESELECT (42_transaction R121). -/
def endStep (s : State) : State :=
  let (abort, s) := s.drawEndAbort
  if abort then abortAt 0 s else { s with engine := { s.engine with phase := .deselect } }

/-- The step DESELECT: CS floats whatever happened before (42_transaction R121, R127). -/
def deselectStep (s : State) : State :=
  let s := s.floatCs.trace .deselect
  { s with engine := { s.engine with phase := .idle } }

/-- The index in `out` of the current byte (42_transaction R121). -/
def State.outIdx (s : State) : Nat :=
  match s.engine.phase with
  | .payload => s.snap.len.toNat + s.engine.byteIdx
  | _ => s.engine.byteIdx

/-- The start of `ShiftByte(d)`: `SHIFT_OUT <- d` and `SHIFT_IN <- 0`, before the first tick of the byte
(43_serializer R143). -/
def loadByte (s : State) : State :=
  if s.engine.bitIdx = 0 ∧ s.engine.half = .lead then
    { s with engine := { s.engine with shiftOut := s.engine.out.getD s.outIdx 0x00, shiftIn := 0x00 } }
  else s

/-- The end of `ShiftByte`, when eight bits are shifted: the byte is traced, and kept when it is a payload byte of a
read (42_transaction R121, R131). `BIT_IDX` returns to 0 (DEDUCED, log entry 13). -/
def byteDone (s : State) : State :=
  if s.engine.bitIdx = 8 then
    let r := s.engine.shiftIn
    let s := s.trace (.byte s.engine.shiftOut r)
    let s := if s.engine.phase = .payload ∧ s.engine.dir = .read then s.bufWrite s.engine.byteIdx r else s
    { s with engine := { s.engine with byteIdx := s.engine.byteIdx + 1, bitIdx := 0 } }
  else s

/-- The half-bit step whose tick has come. -/
def halfBitAct (s : State) : State :=
  match s.engine.half with
  | .lead  => leadStep s
  | .trail => byteDone (trailStep s)

/-- One half-bit step: wait for the tick, then the abort draw, then the actions (43_serializer R143, R147, R148). -/
def halfBit (s : State) : Progress :=
  let (d, s) := (loadByte s).drawTransport
  match d with
  | .stall => .waiting s
  | .abort => .running (abortAt s.engine.bitIdx s.countTick)
  | .tick  => .running (halfBitAct s.countTick)

/-- One step of the engine, in the fixed phase order of 42_transaction R121 and R129. -/
def engineStep (s : State) : Progress :=
  match s.engine.phase with
  | .idle     => .waiting s
  | .select   => .running (selectStep s)
  | .cmd      => if s.engine.byteIdx < s.snap.len.toNat then halfBit s else .running (enterPayload s)
  | .payload  => if s.engine.byteIdx < s.snap.plen.toNat then halfBit s else .running (endStep s)
  | .deselect => .over (deselectStep s)

/-- `ERR <- 0`. -/
def State.clearErr (s : State) : State := { s with engine := { s.engine with err := false } }

/-- The response to a data request whose exchange is over (42_transaction R123, R124, R127). With the response nothing
of an error remains in the block (60_exceptions R211). -/
def finishExchange (s : State) : State :=
  if s.engine.err then raise .ioError s.clearErr
  else match s.engine.dir with
    | .write => respond .ok [] s.clearErr
    | .read  => respond .ok ((List.range s.snap.plen.toNat).map s.bufRead) s.clearErr

/-- The engine's steps, at most `fuel` of them, until the response or a wait. -/
def runEngine : Nat → State → State
  | 0, s => s
  | fuel + 1, s =>
    match engineStep s with
    | .running s => runEngine fuel s
    | .waiting s => s
    | .over s    => finishExchange s

/-- Steps enough for any exchange: 16 half-bit steps for each byte, and four changes of phase
(43_serializer R143; 70_reset_and_hazards R245). -/
def exchangeFuel (s : State) : Nat := 16 * (s.snap.len.toNat + s.snap.plen.toNat) + 4

/-- The exchange in progress goes on until its response or until the next tick does not come (42_transaction R130;
DEDUCED, log entry 6). -/
def runExchange (s : State) : State := runEngine (exchangeFuel s) s

/-- The acceptance of a data request that has passed its checks: the snapshot, `out`, and the engine at SELECT
(42_transaction R120, R121; 10_state R33). -/
def beginExchange (dir : Dir) (payload : List Byte) (s : State) : State :=
  { s with
    seq    := .busy
    snap   := ⟨s.cmdLen, s.cmdBytes, s.payloadLen⟩
    engine := { s.engine with
      phase := .select, dir := dir, byteIdx := 0, bitIdx := 0, half := .lead, err := false
      out   := s.command ++ payload } }

end Sys2Proof.Machine
end

