-- ==== Sys2Proof/Machine/Transaction.lean ====
section
/-! DEFINITION. The two data requests (42_transaction R120 to R132). -/

namespace Sys2Proof.Machine

/-- `DATA_WR d0, ..., d(m-1)` (42_transaction R124): the frame first, then the claim, then the exchange (R120). -/
def execDataWr (args : List Byte) (s : State) : Host.Outcome State Fault Refusal :=
  .next <| match operandsFP s.payloadLen.toNat args with
    | none    => raise .parseError s
    | some ds =>
      if s.claimed then runExchange (beginExchange .write ds s)
      else raise .resourceUnavailable s

/-- `DATA_RD` (42_transaction R123): the payload phase shifts out `P_READ_FILL`. -/
def execDataRd (args : List Byte) (s : State) : Host.Outcome State Fault Refusal :=
  .next <|
    if operandsF0 args then
      if s.claimed then
        runExchange (beginExchange .read (List.replicate s.payloadLen.toNat s.params.readFill) s)
      else raise .resourceUnavailable s
    else raise .parseError s

end Sys2Proof.Machine
end

