-- ==== Sys2Proof/Machine/Dispatch.lean ====
section
/-! DEFINITION. The meaning of each request, one arm for each constructor. -/

namespace Sys2Proof.Machine

def exec (i : Instr) (s : State) : Host.Outcome State Fault Refusal :=
  match i with
  | .numcmdWr args => Sys2Proof.Machine.execNumcmdWr args s
  | .numcmdRd args => Sys2Proof.Machine.execNumcmdRd args s
  | .cmdWr args => Sys2Proof.Machine.execCmdWr args s
  | .cmdRd args => Sys2Proof.Machine.execCmdRd args s
  | .numrwWr args => Sys2Proof.Machine.execNumrwWr args s
  | .numrwRd args => Sys2Proof.Machine.execNumrwRd args s
  | .dataWr args => Sys2Proof.Machine.execDataWr args s
  | .dataRd args => Sys2Proof.Machine.execDataRd args s
  | .lockWr args => Sys2Proof.Machine.execLockWr args s
  | .lockRd args => Sys2Proof.Machine.execLockRd args s
  | .status args => Sys2Proof.Machine.execStatus args s

end Sys2Proof.Machine
end

