-- ==== Sys2Proof/Machine/Text.lean ====
section
/-! DEFINITION. The text endpoint front-end: tokens, numbers, output, and the requests each text operation sends
(45_text_frontend R180 to R195; 30_encoding R80). A text is a list of bytes. -/

namespace Sys2Proof.Machine

/-! ### Tokens and numbers -/

/-- The six white-space characters (45_text_frontend R184). -/
def isSpace (c : Byte) : Bool :=
  c == 0x20 || c == 0x09 || c == 0x0A || c == 0x0B || c == 0x0C || c == 0x0D

/-- The tokens of a text, with the token read so far (its last character first). -/
def tokensFrom : List Byte → List Byte → List (List Byte)
  | [], cur => if cur.isEmpty then [] else [cur.reverse]
  | c :: cs, cur =>
    if isSpace c then
      if cur.isEmpty then tokensFrom cs [] else cur.reverse :: tokensFrom cs []
    else tokensFrom cs (c :: cur)

/-- The maximal runs of characters that are not white space (45_text_frontend R184). -/
def tokens (s : List Byte) : List (List Byte) := tokensFrom s []

/-- The value of a digit, of any radix up to 16. -/
def digitValue (c : Byte) : Option Nat :=
  let n := c.toNat
  if 0x30 ≤ n ∧ n ≤ 0x39 then some (n - 0x30)
  else if 0x61 ≤ n ∧ n ≤ 0x66 then some (n - 0x61 + 10)
  else if 0x41 ≤ n ∧ n ≤ 0x46 then some (n - 0x41 + 10)
  else none

/-- A run of digits of the radix, read after the value `acc`; none at the first character that is no such digit. -/
def digitsFrom (radix : Nat) : List Byte → Nat → Option Nat
  | [], acc => some acc
  | c :: cs, acc =>
    match digitValue c with
    | none => none
    | some d => if d < radix then digitsFrom radix cs (acc * radix + d) else none

/-- One or more digits of the radix. -/
def digits (radix : Nat) (cs : List Byte) : Option Nat :=
  if cs.isEmpty then none else digitsFrom radix cs 0

/-- A number in parse mode AUTO (45_text_frontend R181). -/
def numberAuto : List Byte → Option Nat
  | [] => none
  | c :: cs =>
    if c == 0x30 then
      match cs with
      | x :: hs => if x == 0x78 || x == 0x58 then digits 16 hs else digits 8 cs
      | [] => some 0
    else digits 10 (c :: cs)

/-- A number in the parse mode; DEC is digits in base 10 (45_text_frontend R182). -/
def number : ParseMode → List Byte → Option Nat
  | .auto, t => numberAuto t
  | .dec, t => digits 10 t

/-- A byte token: a number of at most 255 (45_text_frontend R183). -/
def byteToken (m : ParseMode) (t : List Byte) : Option Byte :=
  match number m t with
  | some n => if n ≤ 255 then some (BitVec.ofNat 8 n) else none
  | none => none

/-- The text without one trailing newline, if it has one (45_text_frontend R195). -/
def dropNewline (s : List Byte) : List Byte :=
  if s.getLast? = some 0x0A then s.dropLast else s

/-- A single-value input (45_text_frontend R195). White space is in no number, so what is left must be one token. -/
def singleValue (m : ParseMode) (s : List Byte) : Option Byte := byteToken m (dropNewline s)

/-- The first `n` tokens as bytes; later tokens are not looked at (45_text_frontend R186, R188). -/
def byteTokens (m : ParseMode) : Nat → List (List Byte) → Option (List Byte)
  | 0, _ => some []
  | _ + 1, [] => none
  | n + 1, t :: ts =>
    match byteToken m t, byteTokens m n ts with
    | some b, some bs => some (b :: bs)
    | _, _ => none

/-! ### Output (45_text_frontend R192) -/

/-- The character of a digit below 16, in lower case. -/
def digitChar (d : Nat) : Byte := BitVec.ofNat 8 (if d < 10 then 0x30 + d else 0x61 + (d - 10))

/-- A byte in decimal, with no leading zeros. -/
def decimal (b : Byte) : List Byte :=
  let n := b.toNat
  if n < 10 then [digitChar n]
  else if n < 100 then [digitChar (n / 10), digitChar (n % 10)]
  else [digitChar (n / 100), digitChar (n / 10 % 10), digitChar (n % 10)]

/-- A byte as `0xhh`. -/
def hexByte (b : Byte) : List Byte :=
  [0x30, 0x78, digitChar (b.toNat / 16), digitChar (b.toNat % 16)]

/-- A byte list: `0xhh` tokens, single spaces, a newline. -/
def byteList (bs : List Byte) : List Byte := [0x20].intercalate (bs.map hexByte) ++ [0x0A]

/-- The result byte of a response in decimal, and a newline. -/
def decimalLine (result : List Byte) : List Byte := result.flatMap decimal ++ [0x0A]

/-! ### What a text operation sends, and what it ends with -/

/-- What a front-end does next for a text operation: it sends a request (`learning` for the first of two), or the
operation ends. -/
inductive FrontAction where
  | send (i : Instr) (learning : Bool)
  | done (r : TextResult)
  deriving DecidableEq, Repr

/-- The `cmd` write (45_text_frontend R186, steps 1 to 6). -/
def beginCmdWrite (m : ParseMode) (s : List Byte) : FrontAction :=
  match tokens s with
  | [] => .done (.failed .parseError)
  | t :: ts =>
    match byteToken m t with
    | none => .done (.failed .parseError)
    | some n =>
      if cmdCap < n.toNat then .done (.failed .parseError)
      else match byteTokens m n.toNat ts with
        | none => .done (.failed .parseError)
        | some bs => .send (.cmdWr (n :: bs)) false

/-- The first move of a text operation: the whole input is parsed before a state-changing request is sent
(45_text_frontend R185 to R189, R194). -/
def beginText (p : Params) : TextOp → FrontAction
  | .write .numcmd s =>
    match singleValue p.parseMode.numcmd s with
    | some v => .send (.numcmdWr [v]) false
    | none => .done (.failed .parseError)
  | .write .cmd s => beginCmdWrite p.parseMode.cmd s
  | .write .numrw s =>
    match singleValue p.parseMode.numrw s with
    | some v => .send (.numrwWr [v]) false
    | none => .done (.failed .parseError)
  | .write .data _ => .send (.numrwRd []) true
  | .write .lock _ => .send (.lockWr []) false
  | .read .numcmd => .send (.numcmdRd []) false
  | .read .cmd    => .send (.cmdRd []) false
  | .read .numrw  => .send (.numrwRd []) false
  | .read .data   => .send (.dataRd []) false
  | .read .lock   => .send (.lockRd []) false

/-- The result of a text operation whose last request was answered OK (45_text_frontend R185 to R189, R191, R192). -/
def textSuccess (result : List Byte) : TextOp → TextResult
  | .write _ s    => .consumed s.length
  | .read .cmd    => .output (byteList (result.drop 1))
  | .read .data   => .output (byteList result)
  | .read .numcmd => .output (decimalLine result)
  | .read .numrw  => .output (decimalLine result)
  | .read .lock   => .output (decimalLine result)

/-- The `data` write once `PAYLOAD_LEN` is known (45_text_frontend R188, steps 2 to 5). -/
def continueDataWrite (m : ParseMode) (payloadLen : Nat) (s : List Byte) : FrontAction :=
  match byteTokens m payloadLen (tokens s) with
  | some bs => .send (.dataWr bs) false
  | none => .done (.failed .parseError)

/-- What the front-end does with the response it was waiting for (45_text_frontend R188, R190, R191). ILLEGAL_OP has
no row in R191 and cannot come: no text operation sends a reserved opcode (30_encoding R80; log entry 9). -/
def answerText (p : Params) (op : TextOp) (learning : Bool) (r : Response) : FrontAction :=
  match r.status with
  | .ok =>
    match learning, op with
    | true, .write .data s => continueDataWrite p.parseMode.data (r.result.headD 0x00).toNat s
    | _, _ => .done (textSuccess r.result op)
  | .parseError => .done (.failed .parseError)
  | .ioError => .done (.failed .ioError)
  | .resourceUnavailable => .done (.failed .resourceUnavailable)
  | .illegalOp => .done (.failed .parseError)

end Sys2Proof.Machine
end

