-- ==== Sys2Proof/Machine/Environment.lean ====
section
/-! DEFINITION. The agents around the sequencer (00_scope R6): the hosts' submissions, the front-ends' moves, reset,
acceptance, and whose move comes next (10_state R31, R32; 20_memory R54; 70_reset_and_hazards R230). -/

namespace Sys2Proof.Machine

/-- `H(k)` waits for a response: its request is in `PENDING` or in service (10_state R32). -/
def State.outstanding (s : State) (k : Nat) : Bool :=
  s.pending.any (fun r => r.host == k) || (s.seq == .busy && s.client == k)

/-- `H(k)` has a text operation in progress. -/
def State.textBusy (s : State) (k : Nat) : Bool := s.jobs.any fun j => j.host == k

/-- `H(k)` is a host of the block that waits for nothing. -/
def State.hostFree (s : State) (k : Nat) : Bool :=
  decide (k < s.params.nHosts) && !s.outstanding k && !s.textBusy k

/-- The request of `H(k)` enters `PENDING`, which has at most one entry for each host: a host that waits for a
response sends nothing (10_state R32). -/
def enqueue (k : Nat) (frame : List Byte) (s : State) : State :=
  if s.outstanding k then s else { s with pending := s.pending ++ [⟨k, frame⟩] }

/-- `H(k)` submits a frame. A host that waits, a `k` that is no host and a frame the port cannot deliver submit
nothing (10_state R32; 30_encoding R70; log entry 4). -/
def submitFrame (k : Nat) (frame : List Byte) (s : State) : State :=
  if s.hostFree k && framePresentable frame then enqueue k frame s else s

/-- A front-end of host `k` does what its text operation asks for next. -/
def frontAct (k : Nat) (op : TextOp) (a : FrontAction) (s : State) : State :=
  let others := s.jobs.filter fun j => j.host != k
  match a with
  | .send i learning =>
    enqueue k (encode i) { s with jobs := others ++ [⟨k, op, s.obs.responses.length, learning⟩] }
  | .done r => { s with jobs := others, obs := { s.obs with text := s.obs.text ++ [(k, r)] } }

/-- The front-end `H(k)` begins a text operation (45_text_frontend R180). -/
def submitText (k : Nat) (op : TextOp) (s : State) : State :=
  if s.hostFree k then frontAct k op (beginText s.params op) s else s

/-- The response a text operation waits for, when it has been given: the first one to its host since its request. -/
def State.answerTo (s : State) (j : TextJob) : Option Response :=
  ((s.obs.responses.drop j.since).find? fun r => r.1 == j.host).map Prod.snd

/-- The front-end with the job `j` takes the response it waits for; without one it waits. -/
def frontStepJob (j : TextJob) (s : State) : State :=
  match s.answerTo j with
  | some r => frontAct j.host j.op (answerText s.params j.op j.learning r) s
  | none => s

/-- The front-end `H(k)` moves. -/
def frontStep (k : Nat) (s : State) : State :=
  match s.jobs.find? fun j => j.host == k with
  | some j => frontStepJob j s
  | none => s

/-- Reset (70_reset_and_hazards R230): a release, then the zeroed buffer, then IDLE. What R230 leaves unspecified
keeps its value, and the text operations whose requests are dropped with `PENDING` are dropped (log entry 8). -/
def resetBlock (s : State) : State :=
  let s := release s
  { s with
    cmdBytes := Vector.replicate 4 0x00, cmdLen := 0, payloadLen := 0x00
    seq := .idle, pending := [], jobs := [], engine := { s.engine with phase := .idle } }

/-- The request of `H(k)` in `PENDING`. -/
def State.requestOfHost (s : State) (k : Nat) : Option Request := s.pending.find? fun r => r.host == k

/-- The sequencer accepts the request `r`: it leaves `PENDING`, and `SEQ <- BUSY` (10_state R31, R32). -/
def accept (r : Request) (s : State) : State :=
  { s with seq := .busy, client := r.host, pending := s.pending.filter fun q => q.host != r.host }

/-- The next move of an agent, taken off the schedule; when the schedule is empty, a free value says which it is, so
that any agent may move next and any waiting host may be passed over, for ever too (20_memory R54; 60_exceptions R222;
log entry 5). -/
def State.nextEvent (s : State) : Event × State :=
  match s.env.schedule with
  | e :: rest => (e, { s with env := { s.env with schedule := rest } })
  | [] => (Config.freeMove s.env.draws, { s with env := { s.env with draws := s.env.draws + 1 } })

end Sys2Proof.Machine
end

