-- ==== Sys2Proof/Machine/Step.lean ====
section
/-! DEFINITION. One step of the machine: the agent whose turn it is moves. -/

namespace Sys2Proof.Machine

/-- The sequencer serves the request it has accepted: the decoding order of 30_encoding R76. A reserved opcode byte is
answered ILLEGAL_OP, with no other effect (30_encoding R75). -/
def serve (r : Request) (s : State) : Host.Outcome State Fault Refusal :=
  match decode r.frame with
  | .ok i => exec i s
  | .error .reservedSub => .next (raise .illegalOp s)
  | .error .reservedOp => .next (raise .illegalOp s)
  | .error .noOpcode => .refused .frameNotPresentable
  | .error .tooLong => .refused .frameNotPresentable

/-- The sequencer moves (10_state R31): while BUSY it goes on with the exchange in progress, whoever is named; while
IDLE it accepts the waiting request of `H(k)` and serves it, or, when there is none, waits (70_reset_and_hazards R233). -/
def sequencerStep (k : Nat) (s : State) : Host.Outcome State Fault Refusal :=
  match s.seq with
  | .busy => .next (runExchange s)
  | .idle =>
    match s.requestOfHost k with
    | none => .next s
    | some r => serve r (accept r s)

/-- A move of an agent. -/
def eventStep (e : Event) (s : State) : Host.Outcome State Fault Refusal :=
  match e with
  | .submit k frame => .next (submitFrame k frame s)
  | .text k op => .next (submitText k op s)
  | .front k => .next (frontStep k s)
  | .serve k => sequencerStep k s
  | .take lines => .next (externalTake lines s)
  | .give lines => .next (externalGive lines s)
  | .reset => if s.seq = .idle then .next (resetBlock s) else .refused .resetWhileBusy
  | .teardown => .refused .tornDown

/-- One step: the agent whose turn it is moves. -/
def step (s : State) : Host.Outcome State Fault Refusal := eventStep s.nextEvent.1 s.nextEvent.2

/-- The state with the request of a table word as the one `step` serves next: host 0 has submitted its frame, the
sequencer is IDLE, and the next move is the sequencer's acceptance of host 0's request (log entry 10). -/
def State.withFetchWord (s : State) (nbits w : Nat) : State :=
  { s with
    seq := .idle
    pending := ⟨0, tableFrame nbits w⟩ :: s.pending.filter fun r => r.host != 0
    env := { s.env with schedule := .serve 0 :: s.env.schedule } }

end Sys2Proof.Machine
end

