-- ==== Sys2Proof/Machine/Trace.lean ====
section
/-! DEFINITION. The shape of the bus trace (20_memory R55, R56), and the byte-level reading of a pin-level trace
(43_serializer R145). -/

namespace Sys2Proof.Machine

/-- Where a bus trace stands: between transactions, inside one, or inside one after its abort. -/
inductive TraceState where
  | outside | inside | aborted
  deriving DecidableEq, Repr

/-- The shape `Select, Byte*, [Abort(b)], Deselect` of a transaction, with `b` from 0 to 7 (20_memory R56). -/
def traceNext : TraceState → BusEvent → Option TraceState
  | .outside, .select   => some .inside
  | .inside, .byte _ _  => some .inside
  | .inside, .abort b   => if b ≤ 7 then some .aborted else none
  | .inside, .deselect  => some .outside
  | .aborted, .deselect => some .outside
  | _, _ => none

/-- A bus trace read from a place: where it ends, or none when it has not the shape. -/
def scanTrace : TraceState → List BusEvent → Option TraceState
  | q, [] => some q
  | q, e :: es =>
    match traceNext q e with
    | some q' => scanTrace q' es
    | none => none

/-- Where the bus trace stands when the sequencer and the engine stand as they do. -/
def State.tracePlace (s : State) : TraceState :=
  match s.seq, s.engine.phase with
  | .busy, .cmd => .inside
  | .busy, .payload => .inside
  | .busy, .deselect => if s.engine.err then .aborted else .inside
  | _, _ => .outside

/-- The level in force on a line for the reader of a pin trace; a line not driven reads as low. -/
def Pin.level : Pin → Bool
  | .input => false
  | .out v => v

/-- What a reader of pin traces knows of the block: `P_CPOL`, `P_CPHA`, `P_BIT_ORDER` and `P_CS_ACTIVE`, and what it
has read so far: the SCLK and MOSI levels in force, the samples of the current byte group, and the two bytes put
together from them. -/
structure PinReader where
  sclk  : Bool
  mosi  : Bool
  count : Nat
  out   : Byte
  inn   : Byte
  deriving DecidableEq, Repr

/-- A reader between two byte groups, at these levels. -/
def PinReader.between (sclk mosi : Bool) : PinReader := ⟨sclk, mosi, 0, 0x00, 0x00⟩

/-- The whole bits of the current group: with `P_CPHA = 0` the sample of a bit whose trailing edge has not come is of
no whole bit (43_serializer R143, R148; DEDUCED, log entry 12). -/
def PinReader.wholeBits (p : Params) (r : PinReader) : Nat :=
  if r.sclk ≠ p.cpol ∧ p.cpha = false then r.count - 1 else r.count

/-- After a sample or an SCLK edge: eight samples with SCLK back at its idle level are a whole byte. -/
def PinReader.settle (p : Params) (r : PinReader) : PinReader × List BusEvent :=
  if r.count = 8 ∧ r.sclk = p.cpol then (.between r.sclk r.mosi, [.byte r.out r.inn]) else (r, [])

/-- One pin event read. At Select SCLK is at its idle level (43_serializer R144). A group that CS(Z) cuts short is an
abort; the next group starts afresh. An abort at a byte boundary leaves no group and so no mark on the pins (log entry
12). -/
def PinReader.next (p : Params) (r : PinReader) : PinEvent → PinReader × List BusEvent
  | .cs none =>
    (.between r.sclk r.mosi,
      if r.count = 0 ∧ r.sclk = p.cpol then [.deselect] else [.abort (r.wholeBits p), .deselect])
  | .cs (some v) => if v = p.csActive then (.between p.cpol r.mosi, [.select]) else (r, [])
  | .sclk v => PinReader.settle p { r with sclk := v }
  | .mosi v => ({ r with mosi := v }, [])
  | .sample v =>
    PinReader.settle p { r with
      count := r.count + 1
      out := placeBit p.bitOrder r.out r.count r.mosi
      inn := placeBit p.bitOrder r.inn r.count v }

/-- The byte-level trace that a pin-level trace reads as (43_serializer R145). -/
def busView (p : Params) : PinReader → List PinEvent → List BusEvent
  | _, [] => []
  | r, e :: es => (r.next p e).2 ++ busView p (r.next p e).1 es

/-- The reader after these pin events. -/
def PinReader.after (p : Params) (r : PinReader) (es : List PinEvent) : PinReader :=
  es.foldl (fun r e => (r.next p e).1) r

/-- A reader that has read nothing. Its levels do not matter: Select is read with SCLK at its idle level, and the first
bit the block drives after a claim has a MOSI event before its sample, or the claim has it. -/
def PinReader.start (p : Params) : PinReader := .between p.cpol false

/-- The byte-level trace as a function of the whole pin-level trace (43_serializer R145). -/
def busReading (p : Params) (pins : List PinEvent) : List BusEvent := busView p (.start p) pins

/-- The reader of the whole pin trace. -/
def State.reader (s : State) : PinReader := (PinReader.start s.params).after s.params s.obs.pins

end Sys2Proof.Machine
end

