-- ==== Sys2Proof/Safety.lean ====
section
/-! DEFINITION. What the claims are stated in: the invariant of the machine, and the premises on the transport and
the peripheral that the spec asks a claim to name (43_serializer R146, R147, R148). -/

namespace Sys2Proof.Machine

/-- `CLAIMED` and the owner table agree: all five lines are SELF, or none is (10_state R30). -/
def State.ownersAgree (s : State) : Bool :=
  if s.claimed then s.owner.all (· == .self) else s.owner.all (· != .self)

/-- No agent outside the sequencer holds more than it may: a host has at most one outstanding request, and every
waiting request is a frame of a host of the block (10_state R32; 30_encoding R70). -/
structure State.HostsOk (s : State) : Prop where
  onePerHost : (s.pending.map Request.host).Nodup
  frames     : ∀ r ∈ s.pending, r.host < s.params.nHosts ∧ framePresentable r.frame = true
  jobs       : ∀ j ∈ s.jobs, j.host < s.params.nHosts

/-- The registers and lines hold legal values (10_state R24, R25, R27, R30, R35; 20_memory R51; 44_line_arbiter R162, R163). -/
structure State.RegsOk (s : State) : Prop where
  params     : s.params.legal = true
  cmdLen     : s.cmdLen.toNat ≤ cmdCap
  payloadLen : s.payloadLen.toNat ≤ s.params.payloadMax
  xferBuf    : XferBuf.wf s.xferBuf
  xferRange  : ∀ c ∈ s.xferBuf, c.1 < s.params.payloadMax
  owners     : s.ownersAgree = true
  undriven   : s.claimed = false → s.pin = PerLine.const .input
  miso       : s.pin.miso = .input

/-- An exchange in progress (10_state R33, R34; 42_transaction R121, R128, R129). -/
structure State.ExchangeOk (s : State) : Prop where
  claimed  : s.claimed = true
  client   : s.client < s.params.nHosts
  waiting  : ∀ r ∈ s.pending, r.host ≠ s.client
  started  : s.engine.phase ≠ .idle
  snap     : s.snap = ⟨s.cmdLen, s.cmdBytes, s.payloadLen⟩
  command  : s.engine.out.take s.cmdLen.toNat = s.command
  outLen   : s.engine.out.length = s.cmdLen.toNat + s.payloadLen.toNat
  bits     : s.engine.bitIdx ≤ 7
  cmdIdx   : s.engine.phase = .cmd → s.engine.byteIdx ≤ s.cmdLen.toNat
  plIdx    : s.engine.phase = .payload → s.engine.byteIdx ≤ s.payloadLen.toNat
  select   : s.engine.phase = .select → s.pin.cs ≠ .out s.params.csActive
  selected : s.engine.phase = .cmd ∨ s.engine.phase = .payload → s.pin.cs = .out s.params.csActive
  noError  : s.engine.phase ≠ .deselect → s.engine.err = false

/-- The invariant of the machine. -/
structure State.Inv (s : State) : Prop where
  regs  : s.RegsOk
  hosts : s.HostsOk
  /-- Between requests the engine is idle, the peripheral is not selected, and nothing of an error remains
  (10_state R31, R35; 60_exceptions R211). -/
  idle  : s.seq = .idle → s.engine.phase = .idle ∧ s.engine.err = false ∧ s.pin.cs ≠ .out s.params.csActive
  busy  : s.seq = .busy → s.ExchangeOk

/-- The number of bytes a data request exchanges now (42_transaction R121). -/
def State.exchangeBytes (s : State) : Nat := s.cmdLen.toNat + s.payloadLen.toNat

/-- The levels a peripheral drives to answer `bs`, in wire order (43_serializer R141, R146). -/
def answerLevels (o : BitOrder) (bs : List Byte) : List Bool :=
  bs.flatMap fun b => (List.range 8).map (wireBit o b)

/-- The peripheral's next answers are `ins` (43_serializer R146). -/
def State.peripheralAnswers (s : State) (ins : List Byte) : Prop :=
  answerLevels s.params.bitOrder ins <+: s.env.miso

/-- The transport gives the next `n` ticks without an abort (43_serializer R147, R148). -/
def State.ticksCome (s : State) (n : Nat) : Prop := List.replicate n TransportDraw.tick <+: s.env.transport

/-- Every half-bit step of the exchange of `ins` gets its tick, no abort is drawn, and the peripheral answers `ins`:
the premise under which a data request completes (43_serializer R146, R147, R148). -/
def State.undisturbed (s : State) (ins : List Byte) : Prop :=
  ins.length = s.exchangeBytes ∧ s.ticksCome (16 * s.exchangeBytes) ∧ s.env.endAborts.head? = some false
    ∧ s.peripheralAnswers ins

/-- These draws are `n` ticks and `w` times no tick, in any order. -/
def ticksAndWaits (draws : List TransportDraw) (n w : Nat) : Prop :=
  draws.length = n + w ∧ draws.count .tick = n ∧ draws.count .stall = w

/-- The next `w` moves are the sequencer's (10_state R31; log entry 5). -/
def State.sequencerMoves (s : State) (w : Nat) : Prop := ∃ k, List.replicate w (Event.serve k) <+: s.env.schedule

/-- The premise under which a data request completes though its exchange waits `w` times for a tick, at any half-bit
steps: each tick comes at last, no abort is drawn, the peripheral answers `ins`, and after each wait the sequencer moves
again (42_transaction R130; 43_serializer R146, R147, R148). -/
def State.undisturbedButWaits (s : State) (ins : List Byte) (w : Nat) : Prop :=
  ins.length = s.exchangeBytes
    ∧ (∃ draws, draws <+: s.env.transport ∧ ticksAndWaits draws (16 * s.exchangeBytes) w
        ∧ draws.getLast? ≠ some .stall)
    ∧ s.env.endAborts.head? = some false ∧ s.peripheralAnswers ins ∧ s.sequencerMoves w

/-- The level of MOSI when the bytes `outs` have been sent: the last bit driven stays (43_serializer R144). -/
def State.mosiAfter (s : State) (outs : List Byte) : Pin :=
  match outs.getLast? with
  | some b => .out (wireBit s.params.bitOrder b 7)
  | none => s.pin.mosi

/-- The level of MOSI after `k` half-bit steps of sending `outs` (43_serializer R143, R144). -/
def State.mosiMidway (s : State) (outs : List Byte) (k : Nat) : Pin :=
  if k = 0 then s.pin.mosi
  else .out (wireBit s.params.bitOrder (outs.getD ((k - 1) / 16) 0x00) ((k - 1) % 16 / 2))

/-- The engine is inside a byte of the command or the payload phase: its next move waits for a tick. -/
def State.inByte (s : State) : Prop :=
  (s.engine.phase = .cmd ∧ s.engine.byteIdx < s.snap.len.toNat)
    ∨ (s.engine.phase = .payload ∧ s.engine.byteIdx < s.snap.plen.toNat)

/-- What the reader of the pin trace has of the current byte is what the engine has of it: the samples taken, the bits
sent and received with them, and the levels of SCLK and MOSI (43_serializer R143, R145). -/
structure State.GroupTold (s : State) : Prop where
  count : s.reader.count = s.engine.bitIdx + if s.engine.half = .trail ∧ s.params.cpha = false then 1 else 0
  out   : s.reader.out = (List.range s.reader.count).foldl (fun v j =>
    placeBit s.params.bitOrder v j (wireBit s.params.bitOrder s.engine.shiftOut j)) 0x00
  inn   : s.reader.inn =
    if s.engine.bitIdx = 0 ∧ s.engine.half = .lead then 0x00
    else if s.engine.half = .trail ∧ s.params.cpha = false then
      placeBit s.params.bitOrder s.engine.shiftIn s.engine.bitIdx s.engine.sampled
    else s.engine.shiftIn
  sclk  : s.pin.sclk = .out (if s.engine.half = .lead then s.params.cpol else !s.params.cpol)
  mosi  : s.engine.half = .trail →
    s.pin.mosi = .out (wireBit s.params.bitOrder s.engine.shiftOut s.engine.bitIdx)

/-- `reading` is `bus`, but that an `Abort(0)` may be missing in it: at a byte boundary an abort leaves no mark on the
pins (log entry 12). -/
def ReadsAs (reading bus : List BusEvent) : Prop :=
  reading.Sublist bus ∧ reading.filter (· != .abort 0) = bus.filter (· != .abort 0)

/-- The pin trace tells the bus trace: read from its beginning with nothing else known, it gives the bus trace, but that
an `Abort(0)` may be missing, and the levels in force (43_serializer R145). Between an abort and its Deselect the reader has the
abort still to read. -/
structure State.PinsTell (s : State) : Prop where
  reads   : s.engine.phase ≠ .deselect → ReadsAs (busReading s.params s.obs.pins) s.obs.bus
  closing : s.engine.phase = .deselect → s.pin.cs ≠ .input ∧
    ReadsAs (busReading s.params s.obs.pins ++ (s.reader.next s.params (.cs none)).2) (s.obs.bus ++ [.deselect])
  sclk    : ∀ v, s.pin.sclk = .out v → s.reader.sclk = v
  mosi    : ∀ v, s.pin.mosi = .out v → s.reader.mosi = v
  outside : s.engine.phase = .idle ∨ s.engine.phase = .select → s.reader.count = 0
  group   : s.engine.phase = .cmd ∨ s.engine.phase = .payload → s.GroupTold
  fresh   : s.engine.phase ≠ .idle → s.engine.phase ≠ .deselect → ¬ s.inByte →
    s.engine.bitIdx = 0 ∧ s.engine.half = .lead

/-- The bus events of an exchange that is not aborted: `outs` on MOSI, `ins` on MISO (20_memory R56). -/
def wholeTransaction (outs ins : List Byte) : List BusEvent :=
  .select :: (List.zipWith BusEvent.byte outs ins ++ [.deselect])

end Sys2Proof.Machine
end

