-- ==== Sys2Proof/Certificates/Slice0/Obligations.lean ====
section
/-! DEFINITION. The statements for the provers. Each docstring names the rules of spec/ it formalises. -/

open Sys2Proof Sys2Proof.Machine

/-! ### Encoding -/

/-- Decoding answers a request exactly for its encoding, with every argument byte as the frame has it
(30_encoding R70 to R72, R79). -/
def Obligations.DecodeAnswersExactlyTheEncodings : Prop :=
  ∀ (f : List Byte) (i : Instr), decode f = .ok i ↔ (i.wellFormed = true ∧ f = encode i)

/-- The frames of 30_encoding R71, R77 and R79, written out from the opcode map, decode to their requests. -/
def Obligations.FramesOfTheOpcodeMapDecode : Prop :=
  decode [0x10, 0x04] = .ok (.numcmdWr [0x04]) ∧ decode [0x20] = .ok (.numcmdRd []) ∧
  decode [0x30, 0x01, 0x03] = .ok (.cmdWr [0x01, 0x03]) ∧ decode [0x40] = .ok (.cmdRd []) ∧
  decode [0x50, 0x1F] = .ok (.numrwWr [0x1F]) ∧ decode [0x60] = .ok (.numrwRd []) ∧
  decode [0x70, 0x10, 0x20] = .ok (.dataWr [0x10, 0x20]) ∧ decode [0x80] = .ok (.dataRd []) ∧
  decode [0x90, 0x31] = .ok (.lockWr [0x31]) ∧ decode [0xA0] = .ok (.lockRd []) ∧
  decode [0xB0] = .ok (.status [])

/-- 30_encoding R75: a reserved opcode byte (`SUB` not 0, `OP` 0x0 or 0xC to 0xF) is answered ILLEGAL_OP, whatever
its arguments, with no result, no state change and no bus event; every other opcode byte is one of the eleven. -/
def Obligations.ReservedOpcodesAreAnsweredIllegalOp : Prop :=
  ∀ (op : Byte) (args : List Byte) (k : Nat) (s : State), args.length ≤ 255 →
    let reserved := subField op ≠ 0 ∨ (opField op).toNat = 0x0 ∨ 0xC ≤ (opField op).toNat
    (reserved → serve ⟨k, op :: args⟩ s = .next { s with
        seq := .idle
        obs := { s.obs with responses := s.obs.responses ++ [(s.client, ⟨.illegalOp, []⟩)] } }) ∧
    (¬ reserved → ∃ i, decode (op :: args) = .ok i ∧ i.opcode = op ∧ i.args = args ∧
        serve ⟨k, op :: args⟩ s = exec i s)

/-- 30_encoding R78: the status bytes, and the response frame. -/
def Obligations.ResponseFrameIsStatusByteThenResult : Prop :=
  ∀ r : List Byte,
    (Response.mk .ok r).frame = 0x00 :: r ∧ (Response.mk .parseError r).frame = 0x01 :: r ∧
    (Response.mk .ioError r).frame = 0x02 :: r ∧ (Response.mk .resourceUnavailable r).frame = 0x03 :: r ∧
    (Response.mk .illegalOp r).frame = 0x04 :: r

/-! ### The step -/

/-- When the sequencer's turn comes, a step is exec of the decoded request of the host it is to accept, in the state in
which that request is accepted (10_state R31; 20_memory R54); while BUSY it goes on with the exchange. Whose turn it is
the schedule says, and a free value when the schedule is empty, which is the model's own form (log entry 5). -/
def Obligations.StepServesTheDecodedRequest : Prop :=
  (∀ (s t : State) (k : Nat) (r : Request) (i : Instr),
    s.nextEvent = (.serve k, t) → t.seq = .idle → t.requestOfHost k = some r → decode r.frame = .ok i →
    step s = exec i { t with
      seq := .busy, client := r.host, pending := t.pending.filter fun q => q.host != r.host }) ∧
  (∀ (s t : State) (k : Nat), s.nextEvent = (.serve k, t) → t.seq = .busy → step s = .next (runExchange t)) ∧
  (∀ (s : State) (e : Event) (rest : List Event), s.env.schedule = e :: rest →
    step s = eventStep e { s with env := { s.env with schedule := rest } }) ∧
  (∀ (s : State), s.env.schedule = [] →
    step s = eventStep (Config.freeMove s.env.draws) { s with env := { s.env with draws := s.env.draws + 1 } })

/-- Every request is answered with exactly one response, with no result bytes unless its status is OK, or is still
in service (30_encoding R70, R78; 10_state R31). One still in service is answered by a later move of the sequencer, in
the same way: one response to its host, OK with `PAYLOAD_LEN` bytes for a read and none for a write, or IO_ERROR with
none (42_transaction R123, R124, R127). -/
def Obligations.EveryRequestIsAnsweredOnceOrStillInService : Prop :=
  (∀ (i : Instr) (s : State), ∃ t, exec i s = .next t ∧
    ((t.seq = .busy ∧ t.obs.responses = s.obs.responses) ∨
      (t.seq = .idle ∧ ∃ st r, t.obs.responses = s.obs.responses ++ [(s.client, ⟨st, r⟩)] ∧ (st ≠ .ok → r = [])))) ∧
  (∀ (k : Nat) (s : State), s.seq = .busy → ∃ t, eventStep (.serve k) s = .next t ∧
    t.pending = s.pending ∧ t.client = s.client ∧
    ((t.seq = .busy ∧ t.obs.responses = s.obs.responses) ∨
      (t.seq = .idle ∧ ∃ st r, t.obs.responses = s.obs.responses ++ [(s.client, ⟨st, r⟩)] ∧
        ((st = .ok ∧ r.length = match s.engine.dir with
            | .read => s.snap.plen.toNat
            | .write => 0) ∨
          (st = .ioError ∧ r = [])))))

/-- 30_encoding R73: a frame that is not well formed for its format is answered PARSE_ERROR with no state change; one
that is well formed is never answered PARSE_ERROR. -/
def Obligations.MalformedFramesAreAnsweredParseError : Prop :=
  ∀ (i : Instr) (s : State),
    (i.formatOk s.params.payloadMax s.payloadLen.toNat = false → exec i s = .next (respond .parseError [] s)) ∧
    (i.formatOk s.params.payloadMax s.payloadLen.toNat = true → ∃ t, exec i s = .next t ∧
      ∀ r, t.obs.responses ≠ s.obs.responses ++ [(s.client, ⟨.parseError, r⟩)])

/-! ### Configuration requests -/

/-- 41_config R100. -/
def Obligations.NumcmdWrStoresALegalLength : Prop :=
  ∀ (s : State) (v : Byte) (args : List Byte),
    decode [0x10, v] = .ok (.numcmdWr [v]) ∧
    (v.toNat ≤ 4 → exec (.numcmdWr [v]) s = .next (respond .ok [] { s with cmdLen := v.extractLsb' 0 3 }) ∧
      (v.extractLsb' 0 3).toNat = v.toNat) ∧
    (4 < v.toNat → exec (.numcmdWr [v]) s = .next (respond .parseError [] s)) ∧
    (args.length ≠ 1 → exec (.numcmdWr args) s = .next (respond .parseError [] s))

/-- 41_config R102: length and bytes in one step; the cells from `n` on keep their values. -/
def Obligations.CmdWrStoresLengthAndBytes : Prop :=
  ∀ (s : State) (n : Byte) (bs : List Byte),
    (bs.length < 255 → decode (0x30 :: n :: bs) = .ok (.cmdWr (n :: bs))) ∧
    (n.toNat ≤ 4 → bs.length = n.toNat → ∃ cells : Vector Byte 4,
      exec (.cmdWr (n :: bs)) s = .next (respond .ok [] { s with cmdLen := n.extractLsb' 0 3, cmdBytes := cells }) ∧
      (n.extractLsb' 0 3).toNat = n.toNat ∧
      cells.toList = bs ++ s.cmdBytes.toList.drop n.toNat) ∧
    (4 < n.toNat → exec (.cmdWr (n :: bs)) s = .next (respond .parseError [] s)) ∧
    (bs.length ≠ n.toNat → exec (.cmdWr (n :: bs)) s = .next (respond .parseError [] s)) ∧
    exec (.cmdWr []) s = .next (respond .parseError [] s)

/-- 41_config R104. -/
def Obligations.NumrwWrStoresALegalLength : Prop :=
  ∀ (s : State) (v : Byte) (args : List Byte),
    decode [0x50, v] = .ok (.numrwWr [v]) ∧
    (v.toNat ≤ s.params.payloadMax →
      exec (.numrwWr [v]) s = .next (respond .ok [] { s with payloadLen := v })) ∧
    (s.params.payloadMax < v.toNat → exec (.numrwWr [v]) s = .next (respond .parseError [] s)) ∧
    (args.length ≠ 1 → exec (.numrwWr args) s = .next (respond .parseError [] s))

/-- 41_config R101 and R105, and the reading of R103: the three reads, which write no state; in a state with the
invariant a length read is at most 4 and a payload length read at most `P_PAYLOAD_MAX`. -/
def Obligations.ConfigurationReadsReturnTheRegisters : Prop :=
  ∀ (s : State) (args : List Byte),
    decode [0x20] = .ok (.numcmdRd []) ∧ decode [0x40] = .ok (.cmdRd []) ∧ decode [0x60] = .ok (.numrwRd []) ∧
    exec (.numcmdRd []) s = .next (respond .ok [s.cmdLen.setWidth 8] s) ∧
    exec (.cmdRd []) s = .next (respond .ok (s.cmdLen.setWidth 8 :: s.cmdBytes.toList.take s.cmdLen.toNat) s) ∧
    exec (.numrwRd []) s = .next (respond .ok [s.payloadLen] s) ∧
    (s.Inv → (s.cmdLen.setWidth 8 : Byte).toNat ≤ 4 ∧ s.payloadLen.toNat ≤ s.params.payloadMax) ∧
    (args ≠ [] → exec (.numcmdRd args) s = .next (respond .parseError [] s) ∧
      exec (.cmdRd args) s = .next (respond .parseError [] s) ∧
      exec (.numrwRd args) s = .next (respond .parseError [] s))

/-- 41_config R103: `CMD_RD` returns the length and that many bytes and writes no state; after `CMD_WR n, b...` it
returns `[n] ++ b`, the round trip of the source's §8. -/
def Obligations.CmdRdReturnsWhatCmdWrWrote : Prop :=
  (∀ (s : State) (n : Byte) (bs : List Byte), n.toNat ≤ 4 → bs.length = n.toNat →
    ∃ t u, exec (.cmdWr (n :: bs)) s = .next t ∧ exec (.cmdRd []) t = .next u ∧
      u.obs.responses = s.obs.responses ++ [(s.client, ⟨.ok, []⟩), (s.client, ⟨.ok, n :: bs⟩)]) ∧
  (∀ (s : State) (args : List Byte), decode [0x40] = .ok (.cmdRd []) ∧
    exec (.cmdRd []) s = .next (respond .ok (s.cmdLen.setWidth 8 :: s.cmdBytes.toList.take s.cmdLen.toNat) s) ∧
    (args ≠ [] → exec (.cmdRd args) s = .next (respond .parseError [] s)))

/-- The stale bytes of 10_state R23 and 70_reset_and_hazards R241: a `NUMCMD_WR` after a shorter `CMD_WR` brings back
the old cells. -/
def Obligations.RaisingTheLengthBringsOldBytesBack : Prop :=
  ∀ (s : State) (n v : Byte) (bs : List Byte), n.toNat ≤ v.toNat → v.toNat ≤ 4 → bs.length = n.toNat →
    ∃ t u w, exec (.cmdWr (n :: bs)) s = .next t ∧ exec (.numcmdWr [v]) t = .next u ∧ exec (.cmdRd []) u = .next w ∧
      w.obs.responses = u.obs.responses ++
        [(s.client, ⟨.ok, v :: (bs ++ (s.cmdBytes.toList.drop n.toNat).take (v.toNat - n.toNat))⟩)]

/-- 41_config R106: a configuration request reads and writes only `CMD_BYTES`, `CMD_LEN` and `PAYLOAD_LEN`. It changes
nothing else but for its response, and two states that agree on these registers and on the parameters, whatever their
claim, pool, lines and traces, are left with the same registers and give the same response. -/
def Obligations.ConfigurationRequestsUseTheCommandBufferAlone : Prop :=
  ∀ (args : List Byte) (s s' : State),
    s'.params = s.params → s'.cmdBytes = s.cmdBytes → s'.cmdLen = s.cmdLen → s'.payloadLen = s.payloadLen →
    ∀ i ∈ [Instr.numcmdWr args, .numcmdRd args, .cmdWr args, .cmdRd args, .numrwWr args, .numrwRd args],
      ∃ t t' r, exec i s = .next t ∧ exec i s' = .next t' ∧
        t = { s with
          cmdBytes := t.cmdBytes, cmdLen := t.cmdLen, payloadLen := t.payloadLen, seq := .idle
          obs := { s.obs with responses := s.obs.responses ++ [(s.client, r)] } } ∧
        t'.cmdBytes = t.cmdBytes ∧ t'.cmdLen = t.cmdLen ∧ t'.payloadLen = t.payloadLen ∧
        t'.obs.responses = s'.obs.responses ++ [(s'.client, r)]

/-- 41_config R107: a configuration write passes every check, writes every register it names and answers OK, or it
answers PARSE_ERROR and writes nothing. -/
def Obligations.ConfigurationWritesAreAllOrNothing : Prop :=
  ∀ (args : List Byte) (s : State), ∀ i ∈ [Instr.numcmdWr args, .cmdWr args, .numrwWr args],
    ∃ t, exec i s = .next t ∧
      ((i.formatOk s.params.payloadMax s.payloadLen.toNat = true ∧
        t.obs.responses = s.obs.responses ++ [(s.client, ⟨.ok, []⟩)] ∧
        (i = .numcmdWr args → t.cmdLen.toNat = (args.headD 0x00).toNat) ∧
        (i = .cmdWr args → t.cmdLen.toNat = (args.headD 0x00).toNat ∧
          t.cmdBytes.toList.take t.cmdLen.toNat = args.tail) ∧
        (i = .numrwWr args → t.payloadLen = args.headD 0x00)) ∨
      (i.formatOk s.params.payloadMax s.payloadLen.toNat = false ∧ t = respond .parseError [] s))

/-- The frame of the six configuration requests: what each leaves unchanged. `NUMCMD_WR` writes `CMD_LEN`, `CMD_WR`
writes `CMD_LEN` and `CMD_BYTES`, `NUMRW_WR` writes `PAYLOAD_LEN`; each answers, and nothing else changes. -/
def Obligations.ConfigurationRequestsFrame : Prop :=
  ∀ (args : List Byte) (s t : State),
    (∀ i ∈ [Instr.numcmdWr args, .numcmdRd args, .cmdWr args, .cmdRd args, .numrwWr args, .numrwRd args],
      exec i s = .next t →
        t.params = s.params ∧ t.claimed = s.claimed ∧ t.owner = s.owner ∧ t.pin = s.pin ∧ t.client = s.client ∧
        t.pending = s.pending ∧ t.snap = s.snap ∧ t.engine = s.engine ∧ t.jobs = s.jobs ∧ t.env = s.env ∧
        t.obs.bus = s.obs.bus ∧ t.obs.pins = s.obs.pins ∧ t.obs.text = s.obs.text ∧ t.obs.ticks = s.obs.ticks ∧
        ∀ j, t.bufRead j = s.bufRead j) ∧
    (∀ i ∈ [Instr.numcmdRd args, .cmdRd args, .numrwWr args, .numrwRd args],
      exec i s = .next t → t.cmdLen = s.cmdLen) ∧
    (∀ i ∈ [Instr.numcmdWr args, .numcmdRd args, .cmdRd args, .numrwWr args, .numrwRd args],
      exec i s = .next t → t.cmdBytes = s.cmdBytes) ∧
    (∀ i ∈ [Instr.numcmdWr args, .numcmdRd args, .cmdWr args, .cmdRd args, .numrwRd args],
      exec i s = .next t → t.payloadLen = s.payloadLen)

/-! ### The line arbiter -/

/-- 44_line_arbiter R160 and R166: `LOCK_RD` takes all five lines when `CLAIMED = 0` and all are FREE, and sets each to
its `P_LINE_INIT`; otherwise it changes no owner, no line and no register. Whether a claim adds to the pin trace it leaves
open. -/
def Obligations.LockRdClaimsAllFiveLinesOrNone : Prop :=
  ∀ (s : State) (args : List Byte),
    decode [0xA0] = .ok (.lockRd []) ∧
    (s.claimed = false → (∀ l, s.owner.get l = .free) → ∃ t, exec (.lockRd []) s = .next t ∧
      t.claimed = true ∧ (∀ l, t.owner.get l = .self) ∧
      (∀ l, t.pin.get l = match s.params.lineInit.get l with
        | .outLow => .out false
        | .outHigh => .out true
        | .input => .input) ∧
      t = respond .ok [0x01] { s with
        claimed := true, owner := t.owner, pin := t.pin, obs := { s.obs with pins := t.obs.pins } }) ∧
    (s.claimed = true ∨ (∃ l, s.owner.get l ≠ .free) → exec (.lockRd []) s = .next (respond .ok [0x00] s)) ∧
    (args ≠ [] → exec (.lockRd args) s = .next (respond .parseError [] s))

/-- 44_line_arbiter R162 and R163: with legal parameters a successful claim leaves MISO an input and the peripheral
not selected; with the default `P_LINE_INIT` of its `P_CPOL` it drives SCLK to that idle level and MOSI low, and no
other line. The events by which the pin trace shows it are log entry 7 (DEDUCED, unsafe). -/
def Obligations.AClaimSelectsNoPeripheralAndLeavesMisoAnInput : Prop :=
  ∀ (s : State), s.params.legal = true → s.claimed = false → (∀ l, s.owner.get l = .free) →
    ∃ t, exec (.lockRd []) s = .next t ∧ t.claimed = true ∧ t.pin.miso = .input ∧ t.pin.cs ≠ .out s.params.csActive ∧
      (s.params.lineInit = lineInitDefault s.params.cpol →
        t.pin = ⟨.out s.params.cpol, .out false, .input, .input, .input⟩ ∧
        (s.pin = PerLine.const .input → t.obs.pins = s.obs.pins ++ [.sclk s.params.cpol, .mosi false]))

/-- 44_line_arbiter R161 and R167: `LOCK_WR` frees every SELF line and stops driving it, touches no other line, and
always answers OK. Whether a release adds to the pin trace it leaves open. -/
def Obligations.LockWrReleasesEveryOwnedLine : Prop :=
  ∀ (s : State) (args : List Byte), ∃ t, exec (.lockWr args) s = .next t ∧
    (args.length ≤ 255 → decode (0x90 :: args) = .ok (.lockWr args)) ∧
    t = respond .ok [] { s with
      claimed := false, owner := t.owner, pin := t.pin, obs := { s.obs with pins := t.obs.pins } } ∧
    (∀ l, s.owner.get l = .self → t.owner.get l = .free ∧ t.pin.get l = .input) ∧
    (∀ l, s.owner.get l ≠ .self → t.owner.get l = s.owner.get l ∧ t.pin.get l = s.pin.get l)

/-- The idempotence of 44_line_arbiter R167: a second `LOCK_WR` only answers. -/
def Obligations.ASecondLockWrChangesNothing : Prop :=
  ∀ (s t : State) (a b : List Byte), exec (.lockWr a) s = .next t → exec (.lockWr b) t = .next (respond .ok [] t)

/-- 44_line_arbiter R168. -/
def Obligations.StatusReportsTheClaimAndChangesNothing : Prop :=
  ∀ (s : State) (args : List Byte),
    decode [0xB0] = .ok (.status []) ∧
    (s.claimed = true → exec (.status []) s = .next (respond .ok [0x01] s)) ∧
    (s.claimed = false → exec (.status []) s = .next (respond .ok [0x00] s)) ∧
    (args ≠ [] → exec (.status args) s = .next (respond .parseError [] s))

/-- The corner case of 44_line_arbiter R166: two `LOCK_RD` in a row, from UNCLAIMED with all lines FREE, return 1 and
then 0, and the lines stay claimed. -/
def Obligations.TwoLockRdReturnOneThenZero : Prop :=
  ∀ (s : State), s.claimed = false → (∀ l, s.owner.get l = .free) →
    ∃ t u, exec (.lockRd []) s = .next t ∧ exec (.lockRd []) t = .next u ∧ u.claimed = true ∧
      u.obs.responses = s.obs.responses ++ [(s.client, ⟨.ok, [0x01]⟩), (s.client, ⟨.ok, [0x00]⟩)]

/-- 44_line_arbiter R169: no request but `LOCK_RD` and `LOCK_WR` changes `CLAIMED` or an owner; `LOCK_RD` never gives
a claim up and `LOCK_WR` never makes one. -/
def Obligations.OnlyLockRequestsMoveTheClaim : Prop :=
  ∀ (i : Instr) (s t : State), exec i s = .next t →
    ((∀ a, i ≠ .lockRd a) → (∀ a, i ≠ .lockWr a) → t.claimed = s.claimed ∧ t.owner = s.owner) ∧
    ((∃ a, i = .lockRd a) → s.claimed = true → t.claimed = true) ∧
    ((∃ a, i = .lockWr a) → t.claimed = false)

/-- The frame of the three arbiter requests: they change the claim, the owners and the pins alone, and a claim adds to
the pin trace the levels it drives. What the pin trace shows of a claim, and that it shows nothing of a release, is log
entry 7 (DEDUCED, unsafe). -/
def Obligations.ArbiterRequestsFrame : Prop :=
  ∀ (args : List Byte) (s t : State), ∀ i ∈ [Instr.lockRd args, .lockWr args, .status args],
    exec i s = .next t →
      t.params = s.params ∧ t.cmdBytes = s.cmdBytes ∧ t.cmdLen = s.cmdLen ∧ t.payloadLen = s.payloadLen ∧
      t.client = s.client ∧ t.pending = s.pending ∧ t.snap = s.snap ∧ t.engine = s.engine ∧ t.jobs = s.jobs ∧
      t.env = s.env ∧ t.obs.bus = s.obs.bus ∧ t.obs.text = s.obs.text ∧ t.obs.ticks = s.obs.ticks ∧
      (∀ j, t.bufRead j = s.bufRead j) ∧
      t.obs.pins = s.obs.pins ++ (if t.claimed = true ∧ s.claimed = false then s.initEvents else []) ∧
      (i = .status args → t.claimed = s.claimed ∧ t.owner = s.owner ∧ t.pin = s.pin)

/-- 44_line_arbiter R165: `X.take` of free lines makes them OTHER, `X.give` of OTHER lines frees them, any other move
of `X` does not happen, and no line is taken from SELF or given to it. Nothing else changes. That the model drops a move
that cannot happen is its own choice (log entry 4). -/
def Obligations.ExternalConsumerNeverTouchesAnOwnedLine : Prop :=
  ∀ (lines : List Line) (s : State), ∃ t u,
    eventStep (.take lines) s = .next t ∧ eventStep (.give lines) s = .next u ∧
    t = { s with owner := t.owner } ∧ u = { s with owner := u.owner } ∧
    (∀ l, t.owner.get l = .self ↔ s.owner.get l = .self) ∧ (∀ l, u.owner.get l = .self ↔ s.owner.get l = .self) ∧
    (lines ≠ [] ∧ (∀ l ∈ lines, s.owner.get l = .free) →
      ∀ l, t.owner.get l = if l ∈ lines then .other else s.owner.get l) ∧
    (¬ (lines ≠ [] ∧ ∀ l ∈ lines, s.owner.get l = .free) → t = s) ∧
    (lines ≠ [] ∧ (∀ l ∈ lines, s.owner.get l = .other) →
      ∀ l, u.owner.get l = if l ∈ lines then .free else s.owner.get l) ∧
    (¬ (lines ≠ [] ∧ ∀ l ∈ lines, s.owner.get l = .other) → u = s)

/-! ### Data requests -/

/-- 42_transaction R120 and R122: the frame first, then the claim; a request that fails either check only answers, and
otherwise the snapshot is taken and the exchange runs. -/
def Obligations.DataRequestsCheckFrameThenClaim : Prop :=
  ∀ (s : State) (args : List Byte),
    (args ≠ [] → exec (.dataRd args) s = .next (respond .parseError [] s)) ∧
    (args.length ≠ s.payloadLen.toNat → exec (.dataWr args) s = .next (respond .parseError [] s)) ∧
    (s.claimed = false → exec (.dataRd []) s = .next (respond .resourceUnavailable [] s)) ∧
    (s.claimed = false → args.length = s.payloadLen.toNat →
      exec (.dataWr args) s = .next (respond .resourceUnavailable [] s)) ∧
    (s.claimed = true → ∃ b, b = { s with seq := .busy, snap := b.snap, engine := b.engine } ∧
      b.snap = ⟨s.cmdLen, s.cmdBytes, s.payloadLen⟩ ∧ b.engine.phase = .select ∧ b.engine.dir = .read ∧ b.engine.out = s.command ++ List.replicate s.payloadLen.toNat s.params.readFill ∧
      exec (.dataRd []) s = .next (runExchange b)) ∧
    (s.claimed = true → args.length = s.payloadLen.toNat → ∃ b,
      b = { s with seq := .busy, snap := b.snap, engine := b.engine } ∧
      b.snap = ⟨s.cmdLen, s.cmdBytes, s.payloadLen⟩ ∧ b.engine.phase = .select ∧ b.engine.dir = .write ∧ b.engine.out = s.command ++ args ∧
      exec (.dataWr args) s = .next (runExchange b))

/-- `DATA_RD` (42_transaction R121, R123) when every tick comes and no abort is drawn: the command goes out, then the
fill byte `PAYLOAD_LEN` times, and the answer is OK with exactly the bytes sampled in the payload phase. An exchange
takes 16 ticks for each byte (70_reset_and_hazards R245), and leaves SCLK idle and MOSI at the last bit driven
(43_serializer R144). It comes to the same when it waits `w` times for a tick, at whatever half-bit steps, and goes on
in later moves of the sequencer (42_transaction R130). Draws and moves are in the model's own form (log entries 3 and
5). -/
def Obligations.DataRdReturnsTheBytesSampled : Prop :=
  ∀ (s : State) (cmdIns ins : List Byte), s.claimed = true → s.cmdLen.toNat ≤ cmdCap → XferBuf.wf s.xferBuf →
    cmdIns.length = s.cmdLen.toNat →
    let outs := s.command ++ List.replicate s.payloadLen.toNat s.params.readFill
    let done : State → Prop := fun t => t.seq = .idle ∧ t.engine.phase = .idle ∧ t.pin.cs = .input ∧
      t.pin.sclk = .out s.params.cpol ∧ t.pin.mosi = s.mosiAfter outs ∧
      t.obs.responses = s.obs.responses ++ [(s.client, ⟨.ok, ins⟩)] ∧
      t.obs.bus = s.obs.bus ++ wholeTransaction outs (cmdIns ++ ins) ∧
      t.obs.ticks = s.obs.ticks + 16 * (s.cmdLen.toNat + s.payloadLen.toNat) ∧
      ∀ j, t.bufRead j = if j < s.payloadLen.toNat then ins.getD j 0x00 else s.bufRead j
    (s.undisturbed (cmdIns ++ ins) → ∃ t, exec (.dataRd []) s = .next t ∧ done t) ∧
    ∀ w, s.undisturbedButWaits (cmdIns ++ ins) w → ∃ t u : State, exec (.dataRd []) s = .next t ∧
      (0 < w → t.seq = .busy) ∧ Host.Core.run Sys2Proof.core w t = .next u ∧ done u

/-- `DATA_WR` (42_transaction R121, R124) when every tick comes and no abort is drawn: the command goes out, then the
payload of the frame, whatever the peripheral answers, and the answer is OK with no result; SCLK is left idle and MOSI
at the last bit driven (43_serializer R144). It comes to the same when the exchange waits `w` times for a tick, at
whatever half-bit steps, and goes on in later moves of the sequencer (42_transaction R130). Draws and moves are in the
model's own form (log entries 3 and 5). -/
def Obligations.DataWrSendsCommandThenPayload : Prop :=
  ∀ (s : State) (args ins : List Byte), s.claimed = true → s.cmdLen.toNat ≤ cmdCap →
    args.length = s.payloadLen.toNat →
    let done : State → Prop := fun t => t.seq = .idle ∧ t.engine.phase = .idle ∧ t.pin.cs = .input ∧
      t.pin.sclk = .out s.params.cpol ∧ t.pin.mosi = s.mosiAfter (s.command ++ args) ∧
      t.obs.responses = s.obs.responses ++ [(s.client, ⟨.ok, []⟩)] ∧
      t.obs.bus = s.obs.bus ++ wholeTransaction (s.command ++ args) ins ∧
      t.obs.ticks = s.obs.ticks + 16 * (s.cmdLen.toNat + s.payloadLen.toNat) ∧
      ∀ j, t.bufRead j = s.bufRead j
    (s.undisturbed ins → ∃ t, exec (.dataWr args) s = .next t ∧ done t) ∧
    ∀ w, s.undisturbedButWaits ins w → ∃ t u : State, exec (.dataWr args) s = .next t ∧
      (0 < w → t.seq = .busy) ∧ Host.Core.run Sys2Proof.core w t = .next u ∧ done u

/-- 42_transaction R126: with `CMD_LEN = 0` and `PAYLOAD_LEN = 0` the whole trace is `Select, Deselect`; when SCLK is
at its idle level there is no SCLK edge, only CS asserted and released; when an abort left it elsewhere, Select first
drives it back (43_serializer R144). MOSI is left alone. -/
def Obligations.AnEmptyTransactionStillBracketsChipSelect : Prop :=
  ∀ (s : State), s.claimed = true → s.cmdLen = 0 → s.payloadLen = 0 → s.env.endAborts.head? = some false →
    ∀ i ∈ [Instr.dataRd [], .dataWr []], ∃ t, exec i s = .next t ∧
      t.obs.responses = s.obs.responses ++ [(s.client, ⟨.ok, []⟩)] ∧
      t.obs.bus = s.obs.bus ++ [.select, .deselect] ∧ t.obs.ticks = s.obs.ticks ∧
      t.pin.sclk = .out s.params.cpol ∧ t.pin.mosi = s.pin.mosi ∧ t.pin.cs = .input ∧
      (s.pin.sclk ≠ .out s.params.cpol → s.pin.cs ≠ .out s.params.csActive →
        t.obs.pins = s.obs.pins ++ [.sclk s.params.cpol, .cs (some s.params.csActive), .cs none]) ∧
      (s.pin.sclk = .out s.params.cpol → s.pin.cs ≠ .out s.params.csActive →
        t.obs.pins = s.obs.pins ++ [.cs (some s.params.csActive), .cs none])

/-- 42_transaction R127 and 43_serializer R148: the transport may abort before any half-bit step, here after `k` of
them. CS is released, SCLK and MOSI keep the levels the last step left (43_serializer R144), the answer is IO_ERROR with
no result, the trace shows how much was sent and ends `Abort(b), Deselect`, and the configuration and the claim are
unchanged; nothing of the error remains (60_exceptions R211). It comes to the same when the exchange waited `w` times
for a tick before. That `b` counts whole bits, `k % 16 / 2` of them, is log entry 12 (DEDUCED, unsafe: 43_serializer
R148 and R143 say so, R145 counts samples); that the tick of the abort is counted, `k + 1` in all, is log entry 3
(DESIGN CHOICE). -/
def Obligations.AnAbortReleasesChipSelectAndAnswersIoError : Prop :=
  ∀ (s : State) (args : List Byte) (k : Nat) (rest : List TransportDraw), s.claimed = true →
    s.cmdLen.toNat ≤ cmdCap → args.length = s.payloadLen.toNat → k < 16 * s.exchangeBytes →
    ∀ x ∈ [(Instr.dataRd [], List.replicate s.payloadLen.toNat s.params.readFill), (Instr.dataWr args, args)],
    let outs := s.command ++ x.2
    let done : State → Prop := fun t => ∃ ins, t.seq = .idle ∧ t.pin.cs = .input ∧
      t.pin.sclk = .out (if k % 2 = 0 then s.params.cpol else !s.params.cpol) ∧ t.pin.mosi = s.mosiMidway outs k ∧
      t.obs.responses = s.obs.responses ++ [(s.client, ⟨.ioError, []⟩)] ∧
      ins.length = k / 16 ∧
      t.obs.bus = s.obs.bus ++ .select :: (List.zipWith BusEvent.byte (outs.take (k / 16)) ins
        ++ [.abort (k % 16 / 2), .deselect]) ∧
      t.obs.ticks = s.obs.ticks + k + 1 ∧ t.env.transport = rest ∧ t.engine.err = false ∧
      t.cmdBytes = s.cmdBytes ∧ t.cmdLen = s.cmdLen ∧ t.payloadLen = s.payloadLen ∧ t.claimed = s.claimed
    (s.env.transport = List.replicate k .tick ++ .abort :: rest → ∃ t, exec x.1 s = .next t ∧ done t) ∧
    ∀ w draws, ticksAndWaits draws k w → s.env.transport = draws ++ .abort :: rest → s.sequencerMoves w →
      ∃ t u : State, exec x.1 s = .next t ∧ (0 < w → t.seq = .busy) ∧
        Host.Core.run Sys2Proof.core w t = .next u ∧ done u

/-- 42_transaction R121 and 43_serializer R148: the draw at the end of an exchange aborts it with `Abort(0)` after
every byte, or after Select when there is none. Nothing of the error remains (60_exceptions R211). -/
def Obligations.AnAbortAtTheEndAnswersIoError : Prop :=
  ∀ (s : State) (args ins : List Byte), s.claimed = true → s.cmdLen.toNat ≤ cmdCap →
    args.length = s.payloadLen.toNat → ins.length = s.exchangeBytes →
    s.ticksCome (16 * s.exchangeBytes) → s.env.endAborts.head? = some true → s.peripheralAnswers ins →
    ∀ x ∈ [(Instr.dataRd [], List.replicate s.payloadLen.toNat s.params.readFill), (Instr.dataWr args, args)],
    ∃ t, exec x.1 s = .next t ∧ t.seq = .idle ∧ t.pin.cs = .input ∧
      t.pin.sclk = .out s.params.cpol ∧ t.pin.mosi = s.mosiAfter (s.command ++ x.2) ∧
      t.obs.responses = s.obs.responses ++ [(s.client, ⟨.ioError, []⟩)] ∧
      t.obs.bus = s.obs.bus ++ .select :: (List.zipWith BusEvent.byte (s.command ++ x.2) ins
        ++ [.abort 0, .deselect]) ∧ t.engine.err = false

/-- 42_transaction R130 and 43_serializer R147: when the tick after `k` half-bit steps does not come, the request is
not answered and the sequencer stays BUSY, with CS asserted. The engine keeps its place: phase, byte, bit, half, the
byte it sends, the bits received so far, the lines (43_serializer R143, R144). The next move of the sequencer, whichever
host it names (log entry 5), takes it up there: it comes to what the request would have come to without the missing
tick. That the exchange runs up to the missing tick within one step is log entry 6 (DEDUCED). -/
def Obligations.AMissingTickLeavesTheExchangeInService : Prop :=
  ∀ (s : State) (args : List Byte) (k : Nat) (rest : List TransportDraw), s.claimed = true →
    s.cmdLen.toNat ≤ cmdCap → args.length = s.payloadLen.toNat → k < 16 * s.exchangeBytes →
    s.env.transport = List.replicate k .tick ++ .stall :: rest →
    ∀ x ∈ [(Instr.dataRd [], List.replicate s.payloadLen.toNat s.params.readFill), (Instr.dataWr args, args)],
    let outs := s.command ++ x.2
    ∃ t, exec x.1 s = .next t ∧ t.seq = .busy ∧ t.inByte ∧ t.pin.cs = .out s.params.csActive ∧
      t.obs.responses = s.obs.responses ∧ t.obs.ticks = s.obs.ticks + k ∧ t.env.transport = rest ∧
      t.client = s.client ∧ t.snap = ⟨s.cmdLen, s.cmdBytes, s.payloadLen⟩ ∧
      ((t.engine.phase = .cmd ∧ t.engine.byteIdx = k / 16) ∨
        (t.engine.phase = .payload ∧ s.cmdLen.toNat + t.engine.byteIdx = k / 16)) ∧
      t.engine.bitIdx = k % 16 / 2 ∧ t.engine.half = (if k % 2 = 0 then .lead else .trail) ∧
      t.engine.err = false ∧ t.engine.out = outs ∧ t.engine.shiftOut = outs.getD (k / 16) 0x00 ∧
      t.pin.sclk = .out (if k % 2 = 0 then s.params.cpol else !s.params.cpol) ∧ t.pin.mosi = s.mosiMidway outs k ∧
      (∀ ins : List Byte, ins.length = s.exchangeBytes → s.peripheralAnswers ins →
        t.obs.bus = s.obs.bus ++ .select :: List.zipWith BusEvent.byte (outs.take (k / 16)) (ins.take (k / 16)) ∧
        t.engine.shiftIn = (List.range (k % 16 / 2)).foldl (fun v j =>
          placeBit s.params.bitOrder v j (wireBit s.params.bitOrder (ins.getD (k / 16) 0x00) j)) 0x00 ∧
        (k % 2 = 1 → s.params.cpha = false →
          t.engine.sampled = wireBit s.params.bitOrder (ins.getD (k / 16) 0x00) (k % 16 / 2))) ∧
      ∀ j, ∃ u, eventStep (.serve j) t = .next u ∧
        exec x.1 { s with env := { s.env with transport := List.replicate k .tick ++ rest } } = .next u

/-- 70_reset_and_hazards R242: while no tick comes, however often the sequencer moves, nothing is answered, nothing is
accepted, the bus does not move, and the engine keeps its place; inside a byte it keeps every register. When the draws
go on, the next move, whichever host it names (log entry 5), comes to what it would have come to with no wait
(42_transaction R130). -/
def Obligations.AStuckExchangeBlocksEveryHost : Prop :=
  ∀ (n k : Nat) (s : State) (rest : List TransportDraw), s.seq = .busy → s.inByte →
    s.env.schedule = List.replicate n (.serve k) → s.env.transport = List.replicate n .stall ++ rest →
    ∃ t : State, Host.Core.run Sys2Proof.core n s = .next t ∧ t.seq = .busy ∧ t.inByte ∧
      t.pending = s.pending ∧ t.obs = s.obs ∧ t.pin = s.pin ∧ t.client = s.client ∧ t.snap = s.snap ∧
      t.xferBuf = s.xferBuf ∧
      t.engine = { s.engine with shiftOut := t.engine.shiftOut, shiftIn := t.engine.shiftIn } ∧
      (¬ (s.engine.bitIdx = 0 ∧ s.engine.half = .lead) → t.engine = s.engine) ∧
      ∀ j, eventStep (.serve j) t =
        .next (runExchange { s with env := { s.env with transport := rest, schedule := [] } })

/-- 42_transaction R128: a data request never writes `CMD_BYTES`, `CMD_LEN`, `PAYLOAD_LEN` or `CLAIMED`; when it makes
a bus event the lines are claimed, and then the block owns all five, before and after. -/
def Obligations.DataRequestsKeepConfigurationAndClaim : Prop :=
  ∀ (args : List Byte) (s t : State), ∀ i ∈ [Instr.dataRd args, .dataWr args], exec i s = .next t →
    t.cmdBytes = s.cmdBytes ∧ t.cmdLen = s.cmdLen ∧ t.payloadLen = s.payloadLen ∧ t.claimed = s.claimed ∧
    (t.obs.bus ≠ s.obs.bus → s.claimed = true ∧
      (s.ownersAgree = true → (∀ l, s.owner.get l = .self) ∧ ∀ l, t.owner.get l = .self))

/-- The frame of the two data requests. They change the engine, the snapshot, `XFER_BUF` (a read, below
`PAYLOAD_LEN`), SCLK, MOSI, CS, `SEQ`, the traces and the draws; MISO and RSV they do not drive (43_serializer R140,
R146, R149). -/
def Obligations.DataRequestsFrame : Prop :=
  ∀ (args : List Byte) (s t : State), XferBuf.wf s.xferBuf →
    (∀ i ∈ [Instr.dataRd args, .dataWr args], exec i s = .next t →
      t.params = s.params ∧ t.cmdBytes = s.cmdBytes ∧ t.cmdLen = s.cmdLen ∧ t.payloadLen = s.payloadLen ∧
      t.claimed = s.claimed ∧ t.owner = s.owner ∧ t.client = s.client ∧ t.pending = s.pending ∧ t.jobs = s.jobs ∧
      t.pin.miso = s.pin.miso ∧ t.pin.rsv = s.pin.rsv ∧ t.env.schedule = s.env.schedule ∧
      t.obs.text = s.obs.text) ∧
    (exec (.dataWr args) s = .next t → ∀ j, t.bufRead j = s.bufRead j) ∧
    (exec (.dataRd args) s = .next t → ∀ j, s.payloadLen.toNat ≤ j → t.bufRead j = s.bufRead j)

/-- The framing of 42_transaction R121: whenever a data request on claimed lines has been answered after an exchange,
well or badly, CS is switched to INPUT and the bus trace ends with Deselect; so too when the exchange had waited and a
later move of the sequencer answers it. -/
def Obligations.ChipSelectIsReleasedOnEveryExit : Prop :=
  (∀ (args : List Byte) (s t : State), s.claimed = true →
    ∀ i ∈ [Instr.dataRd args, .dataWr args], i.formatOk s.params.payloadMax s.payloadLen.toNat = true →
      exec i s = .next t → t.seq = .idle → t.pin.cs = .input ∧ t.obs.bus.getLast? = some .deselect) ∧
  (∀ (k : Nat) (s t : State), s.seq = .busy → eventStep (.serve k) s = .next t → t.seq = .idle →
    t.pin.cs = .input ∧ t.engine.phase = .idle ∧ t.engine.err = false ∧ t.obs.bus.getLast? = some .deselect)

/-- The loopback property of 42_transaction R132: against a peripheral whose payload-phase answers to the `DATA_RD`
are the bytes of the `DATA_WR` before it, the `DATA_RD` returns them. -/
def Obligations.LoopbackReadReturnsTheBytesWritten : Prop :=
  ∀ (s : State) (args wins cmdIns : List Byte) (tl : List Bool), s.claimed = true → s.cmdLen.toNat ≤ cmdCap →
    XferBuf.wf s.xferBuf → args.length = s.payloadLen.toNat → cmdIns.length = s.cmdLen.toNat →
    wins.length = s.exchangeBytes → s.ticksCome (16 * s.exchangeBytes + 16 * s.exchangeBytes) →
    [false, false] <+: s.env.endAborts →
    s.env.miso = answerLevels s.params.bitOrder wins ++ answerLevels s.params.bitOrder (cmdIns ++ args) ++ tl →
    ∃ t u, exec (.dataWr args) s = .next t ∧ exec (.dataRd []) t = .next u ∧
      u.obs.responses = s.obs.responses ++ [(s.client, ⟨.ok, []⟩), (s.client, ⟨.ok, args⟩)]

/-! ### The serial master -/

/-- 43_serializer R141: wire bit `i` of a byte, the place where the `i`th sample is stored, the byte put together from
its own wire bits in order, and the default order. -/
def Obligations.WireBitsPutTheByteTogether : Prop :=
  (∀ (d : Byte) (i : Nat), i < 8 →
    wireBit .msbFirst d i = d.getLsbD (7 - i) ∧ wireBit .lsbFirst d i = d.getLsbD i ∧
    ∀ (j : Nat) (b : Bool), j < 8 →
      (placeBit .msbFirst d i b).getLsbD j = (if j = 7 - i then b else d.getLsbD j) ∧
      (placeBit .lsbFirst d i b).getLsbD j = (if j = i then b else d.getLsbD j)) ∧
  (∀ (o : BitOrder) (d : Byte), (List.range 8).foldl (fun v j => placeBit o v j (wireBit o d j)) 0x00 = d) ∧
  ∀ m n, (Params.defaults m n).bitOrder = .msbFirst

/-- The two half-bit steps of one bit, each of the eight (43_serializer R142, R143), in each of the four modes: SCLK
leaves its idle level and comes back, MOSI carries the wire bit, and the sample is taken on the edge `P_CPHA` names. The
eighth bit completes the byte of the bus trace; that `BIT_IDX` is then 0 again is log entry 13 (DEDUCED). -/
def Obligations.OneBitIsShiftedOnTwoClockEdges : Prop :=
  ∀ (s t u : State) (v : Bool) (rest : List Bool), s.engine.half = .lead → s.engine.bitIdx ≤ 7 →
    s.pin.sclk = .out s.params.cpol → s.env.miso = v :: rest → t = halfBitAct s → u = halfBitAct t →
    let o := wireBit s.params.bitOrder s.engine.shiftOut s.engine.bitIdx
    let mosi : List PinEvent := if s.pin.mosi = .out o then [] else [.mosi o]
    t.pin.sclk = .out (!s.params.cpol) ∧ t.pin.mosi = .out o ∧ t.engine.half = .trail ∧
    u.pin.sclk = .out s.params.cpol ∧ u.pin.mosi = .out o ∧ u.engine.half = .lead ∧
    u.engine.bitIdx = (if s.engine.bitIdx = 7 then 0 else s.engine.bitIdx + 1) ∧ u.env.miso = rest ∧
    u.engine.shiftIn = placeBit s.params.bitOrder s.engine.shiftIn s.engine.bitIdx v ∧
    u.obs.bus = (if s.engine.bitIdx = 7 then s.obs.bus ++ [.byte s.engine.shiftOut u.engine.shiftIn] else s.obs.bus) ∧
    (s.params.cpha = false → t.obs.pins = s.obs.pins ++ mosi ++ [.sclk (!s.params.cpol), .sample v] ∧
      u.obs.pins = t.obs.pins ++ [.sclk s.params.cpol]) ∧
    (s.params.cpha = true → t.obs.pins = s.obs.pins ++ .sclk (!s.params.cpol) :: mosi ∧
      u.obs.pins = t.obs.pins ++ [.sclk s.params.cpol, .sample v])

/-- 43_serializer R145: the byte-level trace is a function of the pin-level trace. After reset, and after every step
from a state where it was so, the whole pin trace, read from its beginning with nothing else known but the parameters,
gives the bus trace; where the bus trace has no `Abort(0)` it gives exactly the bus trace, and an `Abort(0)` may be
missing in it, for at a byte boundary the pins show nothing of an abort (log entry 12, DEDUCED). This takes the events
of a claim, log entry 7 (DEDUCED, unsafe), and that a reset keeps the traces, log entry 8 (DESIGN CHOICE, unsafe). For
an exchange that is not aborted the bus events are what its own pin events read as, in every mode and bit order. -/
def Obligations.ThePinTraceReadsAsTheBusTrace : Prop :=
  (∀ (p : Params) (pool : PerLine Owner), (State.launch p pool).PinsTell) ∧
  (∀ (s t : State), s.Inv → s.PinsTell → step s = .next t → t.PinsTell) ∧
  (∀ (s : State), s.PinsTell → s.engine.phase ≠ .deselect → .abort 0 ∉ s.obs.bus →
    busReading s.params s.obs.pins = s.obs.bus) ∧
  ∀ (s : State) (args ins : List Byte), s.claimed = true → s.cmdLen.toNat ≤ cmdCap → s.undisturbed ins →
    s.pin.cs ≠ .out s.params.csActive → args.length = s.payloadLen.toNat →
    ∀ i ∈ [Instr.dataRd [], .dataWr args], ∃ t newPins newBus, exec i s = .next t ∧
      t.obs.pins = s.obs.pins ++ newPins ∧ t.obs.bus = s.obs.bus ++ newBus ∧
      busView s.params (.between s.pin.sclk.level s.pin.mosi.level) newPins = newBus

/-- 43_serializer R145, for an exchange that the transport aborts at the tick after `k` half-bit steps, whatever the
peripheral answers: the byte-level trace is what the pin-level trace reads as, its `Abort(b)` too. `b` counts whole bits
(log entry 12, DEDUCED), and an abort at a byte boundary, of which the pins show nothing, is not read. -/
def Obligations.ThePinTraceOfAnAbortReadsAsTheBusTrace : Prop :=
  ∀ (s : State) (args : List Byte) (k : Nat) (rest : List TransportDraw), s.claimed = true →
    s.cmdLen.toNat ≤ cmdCap → s.pin.cs ≠ .out s.params.csActive → args.length = s.payloadLen.toNat →
    k < 16 * s.exchangeBytes → s.env.transport = List.replicate k .tick ++ .abort :: rest →
    ∀ i ∈ [Instr.dataRd [], .dataWr args], ∃ t newPins newBus, exec i s = .next t ∧
      t.obs.pins = s.obs.pins ++ newPins ∧ t.obs.bus = s.obs.bus ++ newBus ∧
      (.abort (k % 16 / 2)) ∈ newBus ∧
      busView s.params (.between s.pin.sclk.level s.pin.mosi.level) newPins =
        if k % 16 = 0 then newBus.filter (· != .abort 0) else newBus

/-! ### Reset and invariants -/

/-- 10_state R38 and 70_reset_and_hazards R230, R232: the values the spec gives for reset, for every value of the
parameters and every launch premise on the pool. -/
def Obligations.LaunchHasTheResetValues : Prop :=
  ∀ (p : Params) (pool : PerLine Owner),
    let s := State.launch p pool
    s.cmdBytes.toList = [0x00, 0x00, 0x00, 0x00] ∧ s.cmdLen = 0 ∧ s.payloadLen = 0 ∧ s.claimed = false ∧
    s.seq = .idle ∧ s.pending = [] ∧ s.engine.phase = .idle ∧ (∀ l, s.pin.get l = .input) ∧
    (∀ l, s.owner.get l ≠ .self) ∧ (∀ l, pool.get l ≠ .self → s.owner.get l = pool.get l)

/-- 70_reset_and_hazards R230: a reset while IDLE releases the lines and zeroes the registers, touches no line of
OTHER, and leaves no line driven. A reset while BUSY is refused (R231). That it adds no pin event and keeps the
observation and the parameters is the model's own (log entry 7, DEDUCED, unsafe; log entry 8, DESIGN CHOICE, unsafe). -/
def Obligations.ResetReleasesAndZeroesWhileIdle : Prop :=
  ∀ (s : State),
    (s.seq = .idle → ∃ t, eventStep .reset s = .next t ∧
      t.cmdBytes.toList = [0x00, 0x00, 0x00, 0x00] ∧ t.cmdLen = 0 ∧ t.payloadLen = 0 ∧ t.claimed = false ∧
      t.seq = .idle ∧ t.pending = [] ∧ t.engine.phase = .idle ∧ t.obs = s.obs ∧ t.params = s.params ∧
      (∀ l, s.owner.get l = .self → t.owner.get l = .free ∧ t.pin.get l = .input) ∧
      (∀ l, s.owner.get l ≠ .self → t.owner.get l = s.owner.get l ∧ t.pin.get l = s.pin.get l) ∧
      (s.Inv → ∀ l, t.pin.get l = .input)) ∧
    (s.seq = .busy → eventStep .reset s = .refused .resetWhileBusy)

/-- The machine after reset meets the invariant, for every legal parameter value and launch premise, and its bus trace
has the shape of 20_memory R56; the model's `State.reset` is one of them (log entry 2). That nothing of an error is
there (60_exceptions R211) rests on `ERR = 0` after reset, which the spec leaves unspecified (10_state R34, R38) and log
entry 1 (DESIGN CHOICE, unsafe) chooses; so does the empty list that `XFER_BUF` starts as. -/
def Obligations.LaunchMeetsTheInvariant : Prop :=
  (∀ (p : Params) (pool : PerLine Owner), p.legal = true → (State.launch p pool).Inv ∧
    scanTrace .outside (State.launch p pool).obs.bus = some (State.launch p pool).tracePlace) ∧ State.reset.Inv

/-- Every step keeps the invariant: the ranges of 10_state R24 and R25, the owner table of R30, the snapshot of R33,
the undriven lines of 44_line_arbiter R163, the canonical form of `XFER_BUF`, one request for each host (10_state
R32), CS asserted exactly inside an exchange, and nothing left of an error between requests (60_exceptions R211). For a
step that is a reset, the parameters, `XFER_BUF` and `ERR` are as before it by log entry 8 (DESIGN CHOICE, unsafe). -/
def Obligations.EveryStepKeepsTheInvariant : Prop :=
  ∀ (s t : State), s.Inv → step s = .next t → t.Inv

/-- 10_state R30, with no other premise on the state: `CLAIMED` is 1 exactly when all five lines are SELF, and 0
exactly when none is. It holds after reset, for every launch premise, and every step keeps it. -/
def Obligations.EveryStepKeepsClaimAndOwnersAgreeing : Prop :=
  (∀ s : State, s.ownersAgree = true ↔
    ((s.claimed = true ↔ ∀ l, s.owner.get l = .self) ∧ (s.claimed = false ↔ ∀ l, s.owner.get l ≠ .self))) ∧
  (∀ (p : Params) (pool : PerLine Owner), (State.launch p pool).ownersAgree = true) ∧
  ∀ (s t : State), s.ownersAgree = true → step s = .next t → t.ownersAgree = true

/-- 20_memory R55 and R56: the bus trace is whole transactions of the shape `Select, Byte*, [Abort(b)], Deselect`,
and the part of the one in service; every step keeps it so, a reset because it keeps the observation, which is log
entry 8 (DESIGN CHOICE, unsafe). -/
def Obligations.EveryStepKeepsTheShapeOfTheBusTrace : Prop :=
  ∀ (s t : State), s.Inv → scanTrace .outside s.obs.bus = some s.tracePlace → step s = .next t →
    scanTrace .outside t.obs.bus = some t.tracePlace

/-- Every step only adds to the observation, and leaves the parameters alone (00_scope R8, R14). That a step which is a
reset keeps both is the model's own choice (log entry 8, DESIGN CHOICE, unsafe). -/
def Obligations.EveryStepOnlyAddsToTheObservation : Prop :=
  ∀ (s t : State), step s = .next t →
    t.params = s.params ∧ s.obs.responses <+: t.obs.responses ∧ s.obs.bus <+: t.obs.bus ∧
    s.obs.pins <+: t.obs.pins ∧ s.obs.text <+: t.obs.text ∧ s.obs.ticks ≤ t.obs.ticks

/-- The only steps that stop are a reset while BUSY, a teardown, and a waiting frame the port cannot deliver, which no
state with the invariant holds (60_exceptions R222; 70_reset_and_hazards R231, R234); that each is a refusal by name is
log entry 15 (DEDUCED). -/
def Obligations.OnlyResetWhileBusyAndTeardownStop : Prop :=
  ∀ (s : State), s.Inv →
    (∃ t, step s = .next t) ∨
    (step s = .refused .resetWhileBusy ∧ s.seq = .busy ∧ s.nextEvent.1 = .reset) ∨
    (step s = .refused .tornDown ∧ s.nextEvent.1 = .teardown)

/-! ### Hosts and acceptance -/

/-- 10_state R32 and 30_encoding R70: a host of the block that waits for nothing submits a frame, which waits in
`PENDING`; a host that waits for a response submits nothing (that the model drops such a move is its own choice, log
entry 4). -/
def Obligations.AHostHasAtMostOneOutstandingRequest : Prop :=
  ∀ (s : State) (k : Nat) (f : List Byte),
    (s.outstanding k = true → eventStep (.submit k f) s = .next s) ∧
    (s.outstanding k = false → s.textBusy k = false → k < s.params.nHosts → 1 ≤ f.length → f.length ≤ 256 →
      eventStep (.submit k f) s = .next { s with pending := s.pending ++ [⟨k, f⟩] })

/-- 20_memory R54, 10_state R31 and 60_exceptions R222: the sequencer accepts only a waiting request; any waiting one
may be the next, for its host may be the one named; and any may be passed over, for ever too: no move but the acceptance
of its host and a reset takes it from `PENDING`, and a run of any other moves goes on without it. That a move of the
sequencer that names a host with no waiting request changes nothing, while others wait too, is log entry 4 (DESIGN
CHOICE). -/
def Obligations.AnyWaitingRequestMayBeAcceptedNext : Prop :=
  (∀ (k : Nat) (s : State), s.seq = .idle →
    (∃ r ∈ s.pending, r.host = k ∧ eventStep (.serve k) s = serve r (accept r s)) ∨
      ((∀ r ∈ s.pending, r.host ≠ k) ∧ eventStep (.serve k) s = .next s)) ∧
  (∀ (s : State) (r : Request), s.seq = .idle → r ∈ s.pending → (s.pending.map Request.host).Nodup →
    eventStep (.serve r.host) s = serve r (accept r s)) ∧
  (∀ (e : Event) (s t : State) (r : Request), r ∈ s.pending → e ≠ .serve r.host → e ≠ .reset →
    eventStep e s = .next t → r ∈ t.pending) ∧
  (∀ (n : Nat) (s : State) (r : Request), r ∈ s.pending → (∀ q ∈ s.pending, framePresentable q.frame = true) →
    s.env.schedule.length = n → (∀ e ∈ s.env.schedule, e ≠ .serve r.host ∧ e ≠ .reset ∧ e ≠ .teardown) →
    ∃ t : State, Host.Core.run Sys2Proof.core n s = .next t ∧ r ∈ t.pending)

/-- 70_reset_and_hazards R233: with nothing to serve the block waits, whichever host the sequencer is to accept. -/
def Obligations.AnIdleBlockWaits : Prop :=
  ∀ (s : State) (k : Nat), s.seq = .idle → s.pending = [] → eventStep (.serve k) s = .next s ∧
    ∀ t, s.nextEvent = (.serve k, t) → step s = .next t

/-! ### The text front-end -/

/-- 45_text_frontend R181 to R183 and R192: a byte is printed in decimal with no leading zero, or as `0x` and two
lower-case hex digits, and either is the byte token of that byte; `0xhh` is no number in parse mode DEC. -/
def Obligations.PrintedBytesAreByteTokens : Prop :=
  (∀ b : Byte, byteToken .auto (decimal b) = some b ∧ byteToken .dec (decimal b) = some b ∧
    byteToken .auto (hexByte b) = some b ∧ byteToken .dec (hexByte b) = none) ∧
  (∀ b : Byte, (decimal b).all (fun c => 0x30 ≤ c.toNat && c.toNat ≤ 0x39) = true ∧
    ((decimal b).head? = some 0x30 → b = 0x00)) ∧
  decimal 0x00 = [0x30] ∧
  ∀ b : Byte,
    let hex : List Byte := [0x30, 0x31, 0x32, 0x33, 0x34, 0x35, 0x36, 0x37, 0x38, 0x39, 0x61, 0x62, 0x63, 0x64, 0x65,
      0x66]
    hexByte b = [0x30, 0x78, hex.getD (b.toNat / 16) 0x00, hex.getD (b.toNat % 16) 0x00]

/-- The examples of 45_text_frontend R181 and R183, as character codes: `0x9f`, `0X03`, `0x000ff`, `010`, `0377` are
numbers; `256`, `0x100`, `0400`, `08`, `0x`, `1a`, `-1`, `+1` and the empty string are no byte tokens. -/
def Obligations.NumberFormsOfTheTextInterface : Prop :=
  byteToken .auto [0x30, 0x78, 0x39, 0x66] = some 159 ∧ byteToken .auto [0x30, 0x58, 0x30, 0x33] = some 3 ∧
  byteToken .auto [0x30, 0x78, 0x30, 0x30, 0x30, 0x66, 0x66] = some 255 ∧
  byteToken .auto [0x30, 0x31, 0x30] = some 8 ∧ byteToken .auto [0x30, 0x33, 0x37, 0x37] = some 255 ∧
  byteToken .dec [0x30, 0x30, 0x37] = some 7 ∧
  ∀ t ∈ [[0x32, 0x35, 0x36], [0x30, 0x78, 0x31, 0x30, 0x30], [0x30, 0x34, 0x30, 0x30], [0x30, 0x38], [0x30, 0x78],
    [0x31, 0x61], [0x2D, 0x31], [0x2B, 0x31], []], byteToken .auto t = none

/-- The form of a byte list (45_text_frontend R192), and what a `data` read prints, a `data` write of the same length
reads back: the list splits into tokens that are its bytes (R181, R183, R184). -/
def Obligations.PrintedByteListsReadBack : Prop :=
  byteList [] = [0x0A] ∧ (∀ b, byteList [b] = hexByte b ++ [0x0A]) ∧
  (∀ b c bs, byteList (b :: c :: bs) = hexByte b ++ 0x20 :: byteList (c :: bs)) ∧
  ∀ bs : List Byte, byteTokens .auto bs.length (tokens (byteList bs)) = some bs

/-- 45_text_frontend R194: a text operation whose input fails to parse sends no request and changes nothing but its
own result, a ParseError. Which inputs fail: the value of `numcmd` and of `numrw` (R185, R187), also for any white space
but one trailing newline (R195), and steps 2 to 4 of the `cmd` write (R186); that of a `data` write fails after its
`NUMRW_RD` (`ADataWriteSendsItsFirstTokens`). -/
def Obligations.ATextParseFailureSendsNothing : Prop :=
  (∀ (s : State) (k : Nat) (op : TextOp) (r : TextResult), s.hostFree k = true → beginText s.params op = .done r →
    r = .failed .parseError ∧
    eventStep (.text k op) s = .next { s with obs := { s.obs with text := s.obs.text ++ [(k, r)] } }) ∧
  ∀ (p : Params) (str : List Byte),
    (singleValue p.parseMode.numcmd str = none →
      beginText p (.write .numcmd str) = .done (.failed .parseError)) ∧
    (singleValue p.parseMode.numrw str = none →
      beginText p (.write .numrw str) = .done (.failed .parseError)) ∧
    (∀ c ∈ [(0x20 : Byte), 0x09, 0x0A, 0x0B, 0x0C, 0x0D], c ∈ str → ∀ e ∈ [Endpoint.numcmd, .numrw],
      beginText p (.write e (str ++ [0x0A])) = .done (.failed .parseError) ∧
      (str.getLast? ≠ some 0x0A → beginText p (.write e str) = .done (.failed .parseError))) ∧
    (tokens str = [] → beginText p (.write .cmd str) = .done (.failed .parseError)) ∧
    ∀ (t0 : List Byte) (ts : List (List Byte)), tokens str = t0 :: ts →
      (byteToken p.parseMode.cmd t0 = none → beginText p (.write .cmd str) = .done (.failed .parseError)) ∧
      ∀ n : Byte, byteToken p.parseMode.cmd t0 = some n →
        (4 < n.toNat → beginText p (.write .cmd str) = .done (.failed .parseError)) ∧
        (byteTokens p.parseMode.cmd n.toNat ts = none →
          beginText p (.write .cmd str) = .done (.failed .parseError))

/-- 45_text_frontend R186: a `cmd` write whose first token is `n <= 4`, followed by at least `n` byte tokens, sends
`CMD_WR` with their values and waits for the answer; later tokens are ignored. The record of an operation in progress
is the model's own, log entry 14. -/
def Obligations.ACmdWriteSendsCmdWr : Prop :=
  ∀ (s : State) (k : Nat) (str t0 : List Byte) (ts : List (List Byte)) (n : Byte) (bs : List Byte),
    s.hostFree k = true → tokens str = t0 :: ts → byteToken s.params.parseMode.cmd t0 = some n → n.toNat ≤ 4 →
    byteTokens s.params.parseMode.cmd n.toNat ts = some bs →
    bs.length = n.toNat ∧ ∃ t, eventStep (.text k (.write .cmd str)) s = .next t ∧
      t.pending = s.pending ++ [⟨k, 0x30 :: n :: bs⟩] ∧ t.obs = s.obs ∧
      t.jobs = s.jobs ++ [⟨k, .write .cmd str, s.obs.responses.length, false⟩]

/-- 45_text_frontend R191: how the status of the last request becomes the failure of the text operation, and the
consumed count of a write that succeeds. The front-end's move takes the first response to its host since its request,
and when that ends the operation the move reports the result and drops the operation (R180; its record is log entry
14). With no answer to take, the move changes nothing (log entry 4, DESIGN CHOICE). -/
def Obligations.TextFailuresFollowTheStatus : Prop :=
  (∀ (p : Params) (op : TextOp) (learning : Bool) (res s : List Byte) (e : Endpoint),
    answerText p op learning ⟨.parseError, res⟩ = .done (.failed .parseError) ∧
    answerText p op learning ⟨.ioError, res⟩ = .done (.failed .ioError) ∧
    answerText p op learning ⟨.resourceUnavailable, res⟩ = .done (.failed .resourceUnavailable) ∧
    answerText p (.write e s) false ⟨.ok, res⟩ = .done (.consumed s.length)) ∧
  (∀ (s : State) (k : Nat) (j : TextJob) (r : Response) (before between after : List (Nat × Response))
    (res : TextResult), s.jobs.find? (fun j => j.host == k) = some j →
    s.obs.responses = before ++ between ++ (k, r) :: after → before.length = j.since →
    (∀ q ∈ between, q.1 ≠ k) → answerText s.params j.op j.learning r = .done res →
    eventStep (.front k) s = .next { s with
      jobs := s.jobs.filter fun j => j.host != k
      obs := { s.obs with text := s.obs.text ++ [(k, res)] } }) ∧
  (∀ (s : State) (k : Nat) (j : TextJob), s.jobs.find? (fun j => j.host == k) = some j →
    (∀ q ∈ s.obs.responses.drop j.since, q.1 ≠ k) → eventStep (.front k) s = .next s) ∧
  (∀ (s : State) (k : Nat), (∀ j ∈ s.jobs, j.host ≠ k) → eventStep (.front k) s = .next s)

/-- 45_text_frontend R188: once `NUMRW_RD` has answered `m`, the front-end's move sends `DATA_WR` with the values of
the first `m` tokens of its `data` write and waits for that answer, or the write fails with ParseError and sends nothing
when one is missing or no byte token (R194). The record of an operation in progress is the model's own, log entry 14. -/
def Obligations.ADataWriteSendsItsFirstTokens : Prop :=
  ∀ (s : State) (k : Nat) (str : List Byte) (m : Byte) (j : TextJob) (before between after : List (Nat × Response)),
    s.jobs.find? (fun j => j.host == k) = some j → j.op = .write .data str → j.learning = true →
    s.obs.responses = before ++ between ++ (k, ⟨.ok, [m]⟩) :: after → before.length = j.since →
    (∀ q ∈ between, q.1 ≠ k) → s.outstanding k = false →
    let others := s.jobs.filter fun j => j.host != k
    (∀ bs, byteTokens s.params.parseMode.data m.toNat (tokens str) = some bs → bs.length = m.toNat ∧
      eventStep (.front k) s = .next { s with
        pending := s.pending ++ [⟨k, 0x70 :: bs⟩]
        jobs := others ++ [⟨k, .write .data str, s.obs.responses.length, false⟩] }) ∧
    (byteTokens s.params.parseMode.data m.toNat (tokens str) = none →
      eventStep (.front k) s = .next { s with
        jobs := others, obs := { s.obs with text := s.obs.text ++ [(k, .failed .parseError)] } })

/-- 30_encoding R80 and 45_text_frontend R185 to R189, R192: the request each text operation sends first, and what a
read prints of its result. The single value of R195 is the byte token left when one trailing newline is dropped, and no
byte token holds white space (R184). A free host that begins an operation puts its request in `PENDING` and waits for
the answer (R180), of which the model keeps a record of its own, log entry 14. -/
def Obligations.TextOperationsSendTheirRequests : Prop :=
  (∀ (p : Params) (str : List Byte) (b n : Byte) (bs : List Byte) (v : Byte),
    beginText p (.read .numcmd) = .send (.numcmdRd []) false ∧ beginText p (.read .cmd) = .send (.cmdRd []) false ∧
    beginText p (.read .numrw) = .send (.numrwRd []) false ∧ beginText p (.read .data) = .send (.dataRd []) false ∧
    beginText p (.read .lock) = .send (.lockRd []) false ∧
    beginText p (.write .lock str) = .send (.lockWr []) false ∧
    beginText p (.write .data str) = .send (.numrwRd []) true ∧
    (singleValue p.parseMode.numcmd str = some v → beginText p (.write .numcmd str) = .send (.numcmdWr [v]) false) ∧
    (singleValue p.parseMode.numrw str = some v → beginText p (.write .numrw str) = .send (.numrwWr [v]) false) ∧
    (∀ e ∈ [Endpoint.numcmd, .numrw],
      answerText p (.read e) false ⟨.ok, [b]⟩ = .done (.output (decimal b ++ [0x0A]))) ∧
    answerText p (.read .lock) false ⟨.ok, [0x01]⟩ = .done (.output [0x31, 0x0A]) ∧
    answerText p (.read .lock) false ⟨.ok, [0x00]⟩ = .done (.output [0x30, 0x0A]) ∧
    answerText p (.read .cmd) false ⟨.ok, n :: bs⟩ = .done (.output (byteList bs)) ∧
    answerText p (.read .data) false ⟨.ok, bs⟩ = .done (.output (byteList bs))) ∧
  (∀ (m : ParseMode) (str : List Byte),
    singleValue m (str ++ [0x0A]) = byteToken m str ∧
    (str.getLast? ≠ some 0x0A → singleValue m str = byteToken m str) ∧
    ∀ c ∈ [(0x20 : Byte), 0x09, 0x0A, 0x0B, 0x0C, 0x0D], c ∈ str → byteToken m str = none) ∧
  (∀ (s : State) (k : Nat) (op : TextOp) (i : Instr) (learning : Bool), s.hostFree k = true →
    beginText s.params op = .send i learning →
    eventStep (.text k op) s = .next { s with
      pending := s.pending ++ [⟨k, encode i⟩]
      jobs := s.jobs ++ [⟨k, op, s.obs.responses.length, learning⟩] })
end

