-- ==== Sys2Proof/Laws/State.lean ====
section
/-! SUPPORT. One lemma for each field and each update: what a named operation leaves a field at. -/

namespace Sys2Proof.Machine

/-! ### The register writes -/

@[simp] theorem setCmdLen_params (v : Byte) (s : State) : (s.setCmdLen v).params = s.params := rfl
@[simp] theorem setCmdLen_cmdBytes (v : Byte) (s : State) : (s.setCmdLen v).cmdBytes = s.cmdBytes := rfl
@[simp] theorem setCmdLen_cmdLen (v : Byte) (s : State) : (s.setCmdLen v).cmdLen = v.extractLsb' 0 3 := rfl
@[simp] theorem setCmdLen_payloadLen (v : Byte) (s : State) : (s.setCmdLen v).payloadLen = s.payloadLen := rfl
@[simp] theorem setCmdLen_claimed (v : Byte) (s : State) : (s.setCmdLen v).claimed = s.claimed := rfl
@[simp] theorem setCmdLen_xferBuf (v : Byte) (s : State) : (s.setCmdLen v).xferBuf = s.xferBuf := rfl
@[simp] theorem setCmdLen_owner (v : Byte) (s : State) : (s.setCmdLen v).owner = s.owner := rfl
@[simp] theorem setCmdLen_pin (v : Byte) (s : State) : (s.setCmdLen v).pin = s.pin := rfl
@[simp] theorem setCmdLen_seq (v : Byte) (s : State) : (s.setCmdLen v).seq = s.seq := rfl
@[simp] theorem setCmdLen_client (v : Byte) (s : State) : (s.setCmdLen v).client = s.client := rfl
@[simp] theorem setCmdLen_pending (v : Byte) (s : State) : (s.setCmdLen v).pending = s.pending := rfl
@[simp] theorem setCmdLen_snap (v : Byte) (s : State) : (s.setCmdLen v).snap = s.snap := rfl
@[simp] theorem setCmdLen_engine (v : Byte) (s : State) : (s.setCmdLen v).engine = s.engine := rfl
@[simp] theorem setCmdLen_jobs (v : Byte) (s : State) : (s.setCmdLen v).jobs = s.jobs := rfl
@[simp] theorem setCmdLen_env (v : Byte) (s : State) : (s.setCmdLen v).env = s.env := rfl
@[simp] theorem setCmdLen_obs (v : Byte) (s : State) : (s.setCmdLen v).obs = s.obs := rfl

@[simp] theorem setCmdBytes_params (bs : List Byte) (s : State) : (s.setCmdBytes bs).params = s.params := rfl
@[simp] theorem setCmdBytes_cmdBytes (bs : List Byte) (s : State) : (s.setCmdBytes bs).cmdBytes = putBytes 0 bs s.cmdBytes := rfl
@[simp] theorem setCmdBytes_cmdLen (bs : List Byte) (s : State) : (s.setCmdBytes bs).cmdLen = s.cmdLen := rfl
@[simp] theorem setCmdBytes_payloadLen (bs : List Byte) (s : State) : (s.setCmdBytes bs).payloadLen = s.payloadLen := rfl
@[simp] theorem setCmdBytes_claimed (bs : List Byte) (s : State) : (s.setCmdBytes bs).claimed = s.claimed := rfl
@[simp] theorem setCmdBytes_xferBuf (bs : List Byte) (s : State) : (s.setCmdBytes bs).xferBuf = s.xferBuf := rfl
@[simp] theorem setCmdBytes_owner (bs : List Byte) (s : State) : (s.setCmdBytes bs).owner = s.owner := rfl
@[simp] theorem setCmdBytes_pin (bs : List Byte) (s : State) : (s.setCmdBytes bs).pin = s.pin := rfl
@[simp] theorem setCmdBytes_seq (bs : List Byte) (s : State) : (s.setCmdBytes bs).seq = s.seq := rfl
@[simp] theorem setCmdBytes_client (bs : List Byte) (s : State) : (s.setCmdBytes bs).client = s.client := rfl
@[simp] theorem setCmdBytes_pending (bs : List Byte) (s : State) : (s.setCmdBytes bs).pending = s.pending := rfl
@[simp] theorem setCmdBytes_snap (bs : List Byte) (s : State) : (s.setCmdBytes bs).snap = s.snap := rfl
@[simp] theorem setCmdBytes_engine (bs : List Byte) (s : State) : (s.setCmdBytes bs).engine = s.engine := rfl
@[simp] theorem setCmdBytes_jobs (bs : List Byte) (s : State) : (s.setCmdBytes bs).jobs = s.jobs := rfl
@[simp] theorem setCmdBytes_env (bs : List Byte) (s : State) : (s.setCmdBytes bs).env = s.env := rfl
@[simp] theorem setCmdBytes_obs (bs : List Byte) (s : State) : (s.setCmdBytes bs).obs = s.obs := rfl

@[simp] theorem setPayloadLen_params (v : Byte) (s : State) : (s.setPayloadLen v).params = s.params := rfl
@[simp] theorem setPayloadLen_cmdBytes (v : Byte) (s : State) : (s.setPayloadLen v).cmdBytes = s.cmdBytes := rfl
@[simp] theorem setPayloadLen_cmdLen (v : Byte) (s : State) : (s.setPayloadLen v).cmdLen = s.cmdLen := rfl
@[simp] theorem setPayloadLen_payloadLen (v : Byte) (s : State) : (s.setPayloadLen v).payloadLen = v := rfl
@[simp] theorem setPayloadLen_claimed (v : Byte) (s : State) : (s.setPayloadLen v).claimed = s.claimed := rfl
@[simp] theorem setPayloadLen_xferBuf (v : Byte) (s : State) : (s.setPayloadLen v).xferBuf = s.xferBuf := rfl
@[simp] theorem setPayloadLen_owner (v : Byte) (s : State) : (s.setPayloadLen v).owner = s.owner := rfl
@[simp] theorem setPayloadLen_pin (v : Byte) (s : State) : (s.setPayloadLen v).pin = s.pin := rfl
@[simp] theorem setPayloadLen_seq (v : Byte) (s : State) : (s.setPayloadLen v).seq = s.seq := rfl
@[simp] theorem setPayloadLen_client (v : Byte) (s : State) : (s.setPayloadLen v).client = s.client := rfl
@[simp] theorem setPayloadLen_pending (v : Byte) (s : State) : (s.setPayloadLen v).pending = s.pending := rfl
@[simp] theorem setPayloadLen_snap (v : Byte) (s : State) : (s.setPayloadLen v).snap = s.snap := rfl
@[simp] theorem setPayloadLen_engine (v : Byte) (s : State) : (s.setPayloadLen v).engine = s.engine := rfl
@[simp] theorem setPayloadLen_jobs (v : Byte) (s : State) : (s.setPayloadLen v).jobs = s.jobs := rfl
@[simp] theorem setPayloadLen_env (v : Byte) (s : State) : (s.setPayloadLen v).env = s.env := rfl
@[simp] theorem setPayloadLen_obs (v : Byte) (s : State) : (s.setPayloadLen v).obs = s.obs := rfl

@[simp] theorem bufWrite_params (i : Nat) (v : Byte) (s : State) : (s.bufWrite i v).params = s.params := rfl
@[simp] theorem bufWrite_cmdBytes (i : Nat) (v : Byte) (s : State) : (s.bufWrite i v).cmdBytes = s.cmdBytes := rfl
@[simp] theorem bufWrite_cmdLen (i : Nat) (v : Byte) (s : State) : (s.bufWrite i v).cmdLen = s.cmdLen := rfl
@[simp] theorem bufWrite_payloadLen (i : Nat) (v : Byte) (s : State) : (s.bufWrite i v).payloadLen = s.payloadLen := rfl
@[simp] theorem bufWrite_claimed (i : Nat) (v : Byte) (s : State) : (s.bufWrite i v).claimed = s.claimed := rfl
@[simp] theorem bufWrite_xferBuf (i : Nat) (v : Byte) (s : State) : (s.bufWrite i v).xferBuf = XferBuf.write s.xferBuf i v := rfl
@[simp] theorem bufWrite_owner (i : Nat) (v : Byte) (s : State) : (s.bufWrite i v).owner = s.owner := rfl
@[simp] theorem bufWrite_pin (i : Nat) (v : Byte) (s : State) : (s.bufWrite i v).pin = s.pin := rfl
@[simp] theorem bufWrite_seq (i : Nat) (v : Byte) (s : State) : (s.bufWrite i v).seq = s.seq := rfl
@[simp] theorem bufWrite_client (i : Nat) (v : Byte) (s : State) : (s.bufWrite i v).client = s.client := rfl
@[simp] theorem bufWrite_pending (i : Nat) (v : Byte) (s : State) : (s.bufWrite i v).pending = s.pending := rfl
@[simp] theorem bufWrite_snap (i : Nat) (v : Byte) (s : State) : (s.bufWrite i v).snap = s.snap := rfl
@[simp] theorem bufWrite_engine (i : Nat) (v : Byte) (s : State) : (s.bufWrite i v).engine = s.engine := rfl
@[simp] theorem bufWrite_jobs (i : Nat) (v : Byte) (s : State) : (s.bufWrite i v).jobs = s.jobs := rfl
@[simp] theorem bufWrite_env (i : Nat) (v : Byte) (s : State) : (s.bufWrite i v).env = s.env := rfl
@[simp] theorem bufWrite_obs (i : Nat) (v : Byte) (s : State) : (s.bufWrite i v).obs = s.obs := rfl

@[simp] theorem setClaimed_params (b : Bool) (s : State) : (s.setClaimed b).params = s.params := rfl
@[simp] theorem setClaimed_cmdBytes (b : Bool) (s : State) : (s.setClaimed b).cmdBytes = s.cmdBytes := rfl
@[simp] theorem setClaimed_cmdLen (b : Bool) (s : State) : (s.setClaimed b).cmdLen = s.cmdLen := rfl
@[simp] theorem setClaimed_payloadLen (b : Bool) (s : State) : (s.setClaimed b).payloadLen = s.payloadLen := rfl
@[simp] theorem setClaimed_claimed (b : Bool) (s : State) : (s.setClaimed b).claimed = b := rfl
@[simp] theorem setClaimed_xferBuf (b : Bool) (s : State) : (s.setClaimed b).xferBuf = s.xferBuf := rfl
@[simp] theorem setClaimed_owner (b : Bool) (s : State) : (s.setClaimed b).owner = s.owner := rfl
@[simp] theorem setClaimed_pin (b : Bool) (s : State) : (s.setClaimed b).pin = s.pin := rfl
@[simp] theorem setClaimed_seq (b : Bool) (s : State) : (s.setClaimed b).seq = s.seq := rfl
@[simp] theorem setClaimed_client (b : Bool) (s : State) : (s.setClaimed b).client = s.client := rfl
@[simp] theorem setClaimed_pending (b : Bool) (s : State) : (s.setClaimed b).pending = s.pending := rfl
@[simp] theorem setClaimed_snap (b : Bool) (s : State) : (s.setClaimed b).snap = s.snap := rfl
@[simp] theorem setClaimed_engine (b : Bool) (s : State) : (s.setClaimed b).engine = s.engine := rfl
@[simp] theorem setClaimed_jobs (b : Bool) (s : State) : (s.setClaimed b).jobs = s.jobs := rfl
@[simp] theorem setClaimed_env (b : Bool) (s : State) : (s.setClaimed b).env = s.env := rfl
@[simp] theorem setClaimed_obs (b : Bool) (s : State) : (s.setClaimed b).obs = s.obs := rfl

/-! ### The traces and the tick count -/

@[simp] theorem trace_params (e : BusEvent) (s : State) : (s.trace e).params = s.params := rfl
@[simp] theorem trace_cmdBytes (e : BusEvent) (s : State) : (s.trace e).cmdBytes = s.cmdBytes := rfl
@[simp] theorem trace_cmdLen (e : BusEvent) (s : State) : (s.trace e).cmdLen = s.cmdLen := rfl
@[simp] theorem trace_payloadLen (e : BusEvent) (s : State) : (s.trace e).payloadLen = s.payloadLen := rfl
@[simp] theorem trace_claimed (e : BusEvent) (s : State) : (s.trace e).claimed = s.claimed := rfl
@[simp] theorem trace_xferBuf (e : BusEvent) (s : State) : (s.trace e).xferBuf = s.xferBuf := rfl
@[simp] theorem trace_owner (e : BusEvent) (s : State) : (s.trace e).owner = s.owner := rfl
@[simp] theorem trace_pin (e : BusEvent) (s : State) : (s.trace e).pin = s.pin := rfl
@[simp] theorem trace_seq (e : BusEvent) (s : State) : (s.trace e).seq = s.seq := rfl
@[simp] theorem trace_client (e : BusEvent) (s : State) : (s.trace e).client = s.client := rfl
@[simp] theorem trace_pending (e : BusEvent) (s : State) : (s.trace e).pending = s.pending := rfl
@[simp] theorem trace_snap (e : BusEvent) (s : State) : (s.trace e).snap = s.snap := rfl
@[simp] theorem trace_engine (e : BusEvent) (s : State) : (s.trace e).engine = s.engine := rfl
@[simp] theorem trace_jobs (e : BusEvent) (s : State) : (s.trace e).jobs = s.jobs := rfl
@[simp] theorem trace_env (e : BusEvent) (s : State) : (s.trace e).env = s.env := rfl
@[simp] theorem trace_obs_responses (e : BusEvent) (s : State) : (s.trace e).obs.responses = s.obs.responses := rfl
@[simp] theorem trace_obs_bus (e : BusEvent) (s : State) : (s.trace e).obs.bus = s.obs.bus ++ [e] := rfl
@[simp] theorem trace_obs_pins (e : BusEvent) (s : State) : (s.trace e).obs.pins = s.obs.pins := rfl
@[simp] theorem trace_obs_text (e : BusEvent) (s : State) : (s.trace e).obs.text = s.obs.text := rfl
@[simp] theorem trace_obs_ticks (e : BusEvent) (s : State) : (s.trace e).obs.ticks = s.obs.ticks := rfl

@[simp] theorem tracePin_params (e : PinEvent) (s : State) : (s.tracePin e).params = s.params := rfl
@[simp] theorem tracePin_cmdBytes (e : PinEvent) (s : State) : (s.tracePin e).cmdBytes = s.cmdBytes := rfl
@[simp] theorem tracePin_cmdLen (e : PinEvent) (s : State) : (s.tracePin e).cmdLen = s.cmdLen := rfl
@[simp] theorem tracePin_payloadLen (e : PinEvent) (s : State) : (s.tracePin e).payloadLen = s.payloadLen := rfl
@[simp] theorem tracePin_claimed (e : PinEvent) (s : State) : (s.tracePin e).claimed = s.claimed := rfl
@[simp] theorem tracePin_xferBuf (e : PinEvent) (s : State) : (s.tracePin e).xferBuf = s.xferBuf := rfl
@[simp] theorem tracePin_owner (e : PinEvent) (s : State) : (s.tracePin e).owner = s.owner := rfl
@[simp] theorem tracePin_pin (e : PinEvent) (s : State) : (s.tracePin e).pin = s.pin := rfl
@[simp] theorem tracePin_seq (e : PinEvent) (s : State) : (s.tracePin e).seq = s.seq := rfl
@[simp] theorem tracePin_client (e : PinEvent) (s : State) : (s.tracePin e).client = s.client := rfl
@[simp] theorem tracePin_pending (e : PinEvent) (s : State) : (s.tracePin e).pending = s.pending := rfl
@[simp] theorem tracePin_snap (e : PinEvent) (s : State) : (s.tracePin e).snap = s.snap := rfl
@[simp] theorem tracePin_engine (e : PinEvent) (s : State) : (s.tracePin e).engine = s.engine := rfl
@[simp] theorem tracePin_jobs (e : PinEvent) (s : State) : (s.tracePin e).jobs = s.jobs := rfl
@[simp] theorem tracePin_env (e : PinEvent) (s : State) : (s.tracePin e).env = s.env := rfl
@[simp] theorem tracePin_obs_responses (e : PinEvent) (s : State) : (s.tracePin e).obs.responses = s.obs.responses := rfl
@[simp] theorem tracePin_obs_bus (e : PinEvent) (s : State) : (s.tracePin e).obs.bus = s.obs.bus := rfl
@[simp] theorem tracePin_obs_pins (e : PinEvent) (s : State) : (s.tracePin e).obs.pins = s.obs.pins ++ [e] := rfl
@[simp] theorem tracePin_obs_text (e : PinEvent) (s : State) : (s.tracePin e).obs.text = s.obs.text := rfl
@[simp] theorem tracePin_obs_ticks (e : PinEvent) (s : State) : (s.tracePin e).obs.ticks = s.obs.ticks := rfl

@[simp] theorem countTick_params (s : State) : s.countTick.params = s.params := rfl
@[simp] theorem countTick_cmdBytes (s : State) : s.countTick.cmdBytes = s.cmdBytes := rfl
@[simp] theorem countTick_cmdLen (s : State) : s.countTick.cmdLen = s.cmdLen := rfl
@[simp] theorem countTick_payloadLen (s : State) : s.countTick.payloadLen = s.payloadLen := rfl
@[simp] theorem countTick_claimed (s : State) : s.countTick.claimed = s.claimed := rfl
@[simp] theorem countTick_xferBuf (s : State) : s.countTick.xferBuf = s.xferBuf := rfl
@[simp] theorem countTick_owner (s : State) : s.countTick.owner = s.owner := rfl
@[simp] theorem countTick_pin (s : State) : s.countTick.pin = s.pin := rfl
@[simp] theorem countTick_seq (s : State) : s.countTick.seq = s.seq := rfl
@[simp] theorem countTick_client (s : State) : s.countTick.client = s.client := rfl
@[simp] theorem countTick_pending (s : State) : s.countTick.pending = s.pending := rfl
@[simp] theorem countTick_snap (s : State) : s.countTick.snap = s.snap := rfl
@[simp] theorem countTick_engine (s : State) : s.countTick.engine = s.engine := rfl
@[simp] theorem countTick_jobs (s : State) : s.countTick.jobs = s.jobs := rfl
@[simp] theorem countTick_env (s : State) : s.countTick.env = s.env := rfl
@[simp] theorem countTick_obs_responses (s : State) : s.countTick.obs.responses = s.obs.responses := rfl
@[simp] theorem countTick_obs_bus (s : State) : s.countTick.obs.bus = s.obs.bus := rfl
@[simp] theorem countTick_obs_pins (s : State) : s.countTick.obs.pins = s.obs.pins := rfl
@[simp] theorem countTick_obs_text (s : State) : s.countTick.obs.text = s.obs.text := rfl
@[simp] theorem countTick_obs_ticks (s : State) : s.countTick.obs.ticks = s.obs.ticks + 1 := rfl

/-! ### The end and the start of a request -/

@[simp] theorem respond_params (st : Status) (r : List Byte) (s : State) : (respond st r s).params = s.params := rfl
@[simp] theorem respond_cmdBytes (st : Status) (r : List Byte) (s : State) : (respond st r s).cmdBytes = s.cmdBytes := rfl
@[simp] theorem respond_cmdLen (st : Status) (r : List Byte) (s : State) : (respond st r s).cmdLen = s.cmdLen := rfl
@[simp] theorem respond_payloadLen (st : Status) (r : List Byte) (s : State) : (respond st r s).payloadLen = s.payloadLen := rfl
@[simp] theorem respond_claimed (st : Status) (r : List Byte) (s : State) : (respond st r s).claimed = s.claimed := rfl
@[simp] theorem respond_xferBuf (st : Status) (r : List Byte) (s : State) : (respond st r s).xferBuf = s.xferBuf := rfl
@[simp] theorem respond_owner (st : Status) (r : List Byte) (s : State) : (respond st r s).owner = s.owner := rfl
@[simp] theorem respond_pin (st : Status) (r : List Byte) (s : State) : (respond st r s).pin = s.pin := rfl
@[simp] theorem respond_seq (st : Status) (r : List Byte) (s : State) : (respond st r s).seq = .idle := rfl
@[simp] theorem respond_client (st : Status) (r : List Byte) (s : State) : (respond st r s).client = s.client := rfl
@[simp] theorem respond_pending (st : Status) (r : List Byte) (s : State) : (respond st r s).pending = s.pending := rfl
@[simp] theorem respond_snap (st : Status) (r : List Byte) (s : State) : (respond st r s).snap = s.snap := rfl
@[simp] theorem respond_engine (st : Status) (r : List Byte) (s : State) : (respond st r s).engine = s.engine := rfl
@[simp] theorem respond_jobs (st : Status) (r : List Byte) (s : State) : (respond st r s).jobs = s.jobs := rfl
@[simp] theorem respond_env (st : Status) (r : List Byte) (s : State) : (respond st r s).env = s.env := rfl
@[simp] theorem respond_obs_responses (st : Status) (r : List Byte) (s : State) : (respond st r s).obs.responses = s.obs.responses ++ [(s.client, ⟨st, r⟩)] := rfl
@[simp] theorem respond_obs_bus (st : Status) (r : List Byte) (s : State) : (respond st r s).obs.bus = s.obs.bus := rfl
@[simp] theorem respond_obs_pins (st : Status) (r : List Byte) (s : State) : (respond st r s).obs.pins = s.obs.pins := rfl
@[simp] theorem respond_obs_text (st : Status) (r : List Byte) (s : State) : (respond st r s).obs.text = s.obs.text := rfl
@[simp] theorem respond_obs_ticks (st : Status) (r : List Byte) (s : State) : (respond st r s).obs.ticks = s.obs.ticks := rfl

@[simp] theorem raise_params (st : Status) (s : State) : (raise st s).params = s.params := rfl
@[simp] theorem raise_cmdBytes (st : Status) (s : State) : (raise st s).cmdBytes = s.cmdBytes := rfl
@[simp] theorem raise_cmdLen (st : Status) (s : State) : (raise st s).cmdLen = s.cmdLen := rfl
@[simp] theorem raise_payloadLen (st : Status) (s : State) : (raise st s).payloadLen = s.payloadLen := rfl
@[simp] theorem raise_claimed (st : Status) (s : State) : (raise st s).claimed = s.claimed := rfl
@[simp] theorem raise_xferBuf (st : Status) (s : State) : (raise st s).xferBuf = s.xferBuf := rfl
@[simp] theorem raise_owner (st : Status) (s : State) : (raise st s).owner = s.owner := rfl
@[simp] theorem raise_pin (st : Status) (s : State) : (raise st s).pin = s.pin := rfl
@[simp] theorem raise_seq (st : Status) (s : State) : (raise st s).seq = .idle := rfl
@[simp] theorem raise_client (st : Status) (s : State) : (raise st s).client = s.client := rfl
@[simp] theorem raise_pending (st : Status) (s : State) : (raise st s).pending = s.pending := rfl
@[simp] theorem raise_snap (st : Status) (s : State) : (raise st s).snap = s.snap := rfl
@[simp] theorem raise_engine (st : Status) (s : State) : (raise st s).engine = s.engine := rfl
@[simp] theorem raise_jobs (st : Status) (s : State) : (raise st s).jobs = s.jobs := rfl
@[simp] theorem raise_env (st : Status) (s : State) : (raise st s).env = s.env := rfl
@[simp] theorem raise_obs_responses (st : Status) (s : State) : (raise st s).obs.responses = s.obs.responses ++ [(s.client, ⟨st, []⟩)] := rfl
@[simp] theorem raise_obs_bus (st : Status) (s : State) : (raise st s).obs.bus = s.obs.bus := rfl
@[simp] theorem raise_obs_pins (st : Status) (s : State) : (raise st s).obs.pins = s.obs.pins := rfl
@[simp] theorem raise_obs_text (st : Status) (s : State) : (raise st s).obs.text = s.obs.text := rfl
@[simp] theorem raise_obs_ticks (st : Status) (s : State) : (raise st s).obs.ticks = s.obs.ticks := rfl

@[simp] theorem accept_params (r : Request) (s : State) : (accept r s).params = s.params := rfl
@[simp] theorem accept_cmdBytes (r : Request) (s : State) : (accept r s).cmdBytes = s.cmdBytes := rfl
@[simp] theorem accept_cmdLen (r : Request) (s : State) : (accept r s).cmdLen = s.cmdLen := rfl
@[simp] theorem accept_payloadLen (r : Request) (s : State) : (accept r s).payloadLen = s.payloadLen := rfl
@[simp] theorem accept_claimed (r : Request) (s : State) : (accept r s).claimed = s.claimed := rfl
@[simp] theorem accept_xferBuf (r : Request) (s : State) : (accept r s).xferBuf = s.xferBuf := rfl
@[simp] theorem accept_owner (r : Request) (s : State) : (accept r s).owner = s.owner := rfl
@[simp] theorem accept_pin (r : Request) (s : State) : (accept r s).pin = s.pin := rfl
@[simp] theorem accept_seq (r : Request) (s : State) : (accept r s).seq = .busy := rfl
@[simp] theorem accept_client (r : Request) (s : State) : (accept r s).client = r.host := rfl
@[simp] theorem accept_pending (r : Request) (s : State) : (accept r s).pending = s.pending.filter fun q => q.host != r.host := rfl
@[simp] theorem accept_snap (r : Request) (s : State) : (accept r s).snap = s.snap := rfl
@[simp] theorem accept_engine (r : Request) (s : State) : (accept r s).engine = s.engine := rfl
@[simp] theorem accept_jobs (r : Request) (s : State) : (accept r s).jobs = s.jobs := rfl
@[simp] theorem accept_env (r : Request) (s : State) : (accept r s).env = s.env := rfl
@[simp] theorem accept_obs (r : Request) (s : State) : (accept r s).obs = s.obs := rfl

@[simp] theorem nextEvent_params (s : State) : s.nextEvent.2.params = s.params := by
  unfold State.nextEvent; split <;> rfl
@[simp] theorem nextEvent_cmdBytes (s : State) : s.nextEvent.2.cmdBytes = s.cmdBytes := by
  unfold State.nextEvent; split <;> rfl
@[simp] theorem nextEvent_cmdLen (s : State) : s.nextEvent.2.cmdLen = s.cmdLen := by
  unfold State.nextEvent; split <;> rfl
@[simp] theorem nextEvent_payloadLen (s : State) : s.nextEvent.2.payloadLen = s.payloadLen := by
  unfold State.nextEvent; split <;> rfl
@[simp] theorem nextEvent_claimed (s : State) : s.nextEvent.2.claimed = s.claimed := by
  unfold State.nextEvent; split <;> rfl
@[simp] theorem nextEvent_xferBuf (s : State) : s.nextEvent.2.xferBuf = s.xferBuf := by
  unfold State.nextEvent; split <;> rfl
@[simp] theorem nextEvent_owner (s : State) : s.nextEvent.2.owner = s.owner := by
  unfold State.nextEvent; split <;> rfl
@[simp] theorem nextEvent_pin (s : State) : s.nextEvent.2.pin = s.pin := by
  unfold State.nextEvent; split <;> rfl
@[simp] theorem nextEvent_seq (s : State) : s.nextEvent.2.seq = s.seq := by
  unfold State.nextEvent; split <;> rfl
@[simp] theorem nextEvent_client (s : State) : s.nextEvent.2.client = s.client := by
  unfold State.nextEvent; split <;> rfl
@[simp] theorem nextEvent_pending (s : State) : s.nextEvent.2.pending = s.pending := by
  unfold State.nextEvent; split <;> rfl
@[simp] theorem nextEvent_snap (s : State) : s.nextEvent.2.snap = s.snap := by
  unfold State.nextEvent; split <;> rfl
@[simp] theorem nextEvent_engine (s : State) : s.nextEvent.2.engine = s.engine := by
  unfold State.nextEvent; split <;> rfl
@[simp] theorem nextEvent_jobs (s : State) : s.nextEvent.2.jobs = s.jobs := by
  unfold State.nextEvent; split <;> rfl
@[simp] theorem nextEvent_env_transport (s : State) : s.nextEvent.2.env.transport = s.env.transport := by
  unfold State.nextEvent; split <;> rfl
@[simp] theorem nextEvent_env_endAborts (s : State) : s.nextEvent.2.env.endAborts = s.env.endAborts := by
  unfold State.nextEvent; split <;> rfl
@[simp] theorem nextEvent_env_miso (s : State) : s.nextEvent.2.env.miso = s.env.miso := by
  unfold State.nextEvent; split <;> rfl
@[simp] theorem nextEvent_obs (s : State) : s.nextEvent.2.obs = s.obs := by
  unfold State.nextEvent; split <;> rfl

/-- A scheduled move is the next one, and leaves the schedule. -/
theorem nextEvent_of_schedule {s : State} {e : Event} {rest : List Event} (h : s.env.schedule = e :: rest) :
    s.nextEvent = (e, { s with env := { s.env with schedule := rest } }) := by simp [State.nextEvent, h]

/-- With an empty schedule the next move is a free value. -/
theorem nextEvent_of_nil {s : State} (h : s.env.schedule = []) :
    s.nextEvent = (Config.freeMove s.env.draws, { s with env := { s.env with draws := s.env.draws + 1 } }) := by
  simp [State.nextEvent, h]

@[simp] theorem clearErr_params (s : State) : s.clearErr.params = s.params := rfl
@[simp] theorem clearErr_cmdBytes (s : State) : s.clearErr.cmdBytes = s.cmdBytes := rfl
@[simp] theorem clearErr_cmdLen (s : State) : s.clearErr.cmdLen = s.cmdLen := rfl
@[simp] theorem clearErr_payloadLen (s : State) : s.clearErr.payloadLen = s.payloadLen := rfl
@[simp] theorem clearErr_claimed (s : State) : s.clearErr.claimed = s.claimed := rfl
@[simp] theorem clearErr_xferBuf (s : State) : s.clearErr.xferBuf = s.xferBuf := rfl
@[simp] theorem clearErr_owner (s : State) : s.clearErr.owner = s.owner := rfl
@[simp] theorem clearErr_pin (s : State) : s.clearErr.pin = s.pin := rfl
@[simp] theorem clearErr_seq (s : State) : s.clearErr.seq = s.seq := rfl
@[simp] theorem clearErr_client (s : State) : s.clearErr.client = s.client := rfl
@[simp] theorem clearErr_pending (s : State) : s.clearErr.pending = s.pending := rfl
@[simp] theorem clearErr_snap (s : State) : s.clearErr.snap = s.snap := rfl
@[simp] theorem clearErr_engine_phase (s : State) : s.clearErr.engine.phase = s.engine.phase := rfl
@[simp] theorem clearErr_engine_dir (s : State) : s.clearErr.engine.dir = s.engine.dir := rfl
@[simp] theorem clearErr_engine_byteIdx (s : State) : s.clearErr.engine.byteIdx = s.engine.byteIdx := rfl
@[simp] theorem clearErr_engine_bitIdx (s : State) : s.clearErr.engine.bitIdx = s.engine.bitIdx := rfl
@[simp] theorem clearErr_engine_half (s : State) : s.clearErr.engine.half = s.engine.half := rfl
@[simp] theorem clearErr_engine_shiftOut (s : State) : s.clearErr.engine.shiftOut = s.engine.shiftOut := rfl
@[simp] theorem clearErr_engine_shiftIn (s : State) : s.clearErr.engine.shiftIn = s.engine.shiftIn := rfl
@[simp] theorem clearErr_engine_sampled (s : State) : s.clearErr.engine.sampled = s.engine.sampled := rfl
@[simp] theorem clearErr_engine_out (s : State) : s.clearErr.engine.out = s.engine.out := rfl
@[simp] theorem clearErr_jobs (s : State) : s.clearErr.jobs = s.jobs := rfl
@[simp] theorem clearErr_env (s : State) : s.clearErr.env = s.env := rfl
@[simp] theorem clearErr_obs (s : State) : s.clearErr.obs = s.obs := rfl
@[simp] theorem clearErr_engine_err (s : State) : s.clearErr.engine.err = false := rfl

/-! ### The pins: a line set to the level it has is left alone -/

@[simp] theorem driveSclk_params (v : Bool) (s : State) : (s.driveSclk v).params = s.params := by
  unfold State.driveSclk; split <;> simp_all
@[simp] theorem driveSclk_cmdBytes (v : Bool) (s : State) : (s.driveSclk v).cmdBytes = s.cmdBytes := by
  unfold State.driveSclk; split <;> simp_all
@[simp] theorem driveSclk_cmdLen (v : Bool) (s : State) : (s.driveSclk v).cmdLen = s.cmdLen := by
  unfold State.driveSclk; split <;> simp_all
@[simp] theorem driveSclk_payloadLen (v : Bool) (s : State) : (s.driveSclk v).payloadLen = s.payloadLen := by
  unfold State.driveSclk; split <;> simp_all
@[simp] theorem driveSclk_claimed (v : Bool) (s : State) : (s.driveSclk v).claimed = s.claimed := by
  unfold State.driveSclk; split <;> simp_all
@[simp] theorem driveSclk_xferBuf (v : Bool) (s : State) : (s.driveSclk v).xferBuf = s.xferBuf := by
  unfold State.driveSclk; split <;> simp_all
@[simp] theorem driveSclk_owner (v : Bool) (s : State) : (s.driveSclk v).owner = s.owner := by
  unfold State.driveSclk; split <;> simp_all
@[simp] theorem driveSclk_pin_sclk (v : Bool) (s : State) : (s.driveSclk v).pin.sclk = .out v := by
  unfold State.driveSclk; split <;> simp_all
@[simp] theorem driveSclk_pin_mosi (v : Bool) (s : State) : (s.driveSclk v).pin.mosi = s.pin.mosi := by
  unfold State.driveSclk; split <;> simp_all
@[simp] theorem driveSclk_pin_miso (v : Bool) (s : State) : (s.driveSclk v).pin.miso = s.pin.miso := by
  unfold State.driveSclk; split <;> simp_all
@[simp] theorem driveSclk_pin_cs (v : Bool) (s : State) : (s.driveSclk v).pin.cs = s.pin.cs := by
  unfold State.driveSclk; split <;> simp_all
@[simp] theorem driveSclk_pin_rsv (v : Bool) (s : State) : (s.driveSclk v).pin.rsv = s.pin.rsv := by
  unfold State.driveSclk; split <;> simp_all
@[simp] theorem driveSclk_seq (v : Bool) (s : State) : (s.driveSclk v).seq = s.seq := by
  unfold State.driveSclk; split <;> simp_all
@[simp] theorem driveSclk_client (v : Bool) (s : State) : (s.driveSclk v).client = s.client := by
  unfold State.driveSclk; split <;> simp_all
@[simp] theorem driveSclk_pending (v : Bool) (s : State) : (s.driveSclk v).pending = s.pending := by
  unfold State.driveSclk; split <;> simp_all
@[simp] theorem driveSclk_snap (v : Bool) (s : State) : (s.driveSclk v).snap = s.snap := by
  unfold State.driveSclk; split <;> simp_all
@[simp] theorem driveSclk_engine (v : Bool) (s : State) : (s.driveSclk v).engine = s.engine := by
  unfold State.driveSclk; split <;> simp_all
@[simp] theorem driveSclk_jobs (v : Bool) (s : State) : (s.driveSclk v).jobs = s.jobs := by
  unfold State.driveSclk; split <;> simp_all
@[simp] theorem driveSclk_env (v : Bool) (s : State) : (s.driveSclk v).env = s.env := by
  unfold State.driveSclk; split <;> simp_all
@[simp] theorem driveSclk_obs_responses (v : Bool) (s : State) : (s.driveSclk v).obs.responses = s.obs.responses := by
  unfold State.driveSclk; split <;> simp_all
@[simp] theorem driveSclk_obs_bus (v : Bool) (s : State) : (s.driveSclk v).obs.bus = s.obs.bus := by
  unfold State.driveSclk; split <;> simp_all
@[simp] theorem driveSclk_obs_text (v : Bool) (s : State) : (s.driveSclk v).obs.text = s.obs.text := by
  unfold State.driveSclk; split <;> simp_all
@[simp] theorem driveSclk_obs_ticks (v : Bool) (s : State) : (s.driveSclk v).obs.ticks = s.obs.ticks := by
  unfold State.driveSclk; split <;> simp_all

@[simp] theorem driveMosi_params (v : Bool) (s : State) : (s.driveMosi v).params = s.params := by
  unfold State.driveMosi; split <;> simp_all
@[simp] theorem driveMosi_cmdBytes (v : Bool) (s : State) : (s.driveMosi v).cmdBytes = s.cmdBytes := by
  unfold State.driveMosi; split <;> simp_all
@[simp] theorem driveMosi_cmdLen (v : Bool) (s : State) : (s.driveMosi v).cmdLen = s.cmdLen := by
  unfold State.driveMosi; split <;> simp_all
@[simp] theorem driveMosi_payloadLen (v : Bool) (s : State) : (s.driveMosi v).payloadLen = s.payloadLen := by
  unfold State.driveMosi; split <;> simp_all
@[simp] theorem driveMosi_claimed (v : Bool) (s : State) : (s.driveMosi v).claimed = s.claimed := by
  unfold State.driveMosi; split <;> simp_all
@[simp] theorem driveMosi_xferBuf (v : Bool) (s : State) : (s.driveMosi v).xferBuf = s.xferBuf := by
  unfold State.driveMosi; split <;> simp_all
@[simp] theorem driveMosi_owner (v : Bool) (s : State) : (s.driveMosi v).owner = s.owner := by
  unfold State.driveMosi; split <;> simp_all
@[simp] theorem driveMosi_pin_sclk (v : Bool) (s : State) : (s.driveMosi v).pin.sclk = s.pin.sclk := by
  unfold State.driveMosi; split <;> simp_all
@[simp] theorem driveMosi_pin_mosi (v : Bool) (s : State) : (s.driveMosi v).pin.mosi = .out v := by
  unfold State.driveMosi; split <;> simp_all
@[simp] theorem driveMosi_pin_miso (v : Bool) (s : State) : (s.driveMosi v).pin.miso = s.pin.miso := by
  unfold State.driveMosi; split <;> simp_all
@[simp] theorem driveMosi_pin_cs (v : Bool) (s : State) : (s.driveMosi v).pin.cs = s.pin.cs := by
  unfold State.driveMosi; split <;> simp_all
@[simp] theorem driveMosi_pin_rsv (v : Bool) (s : State) : (s.driveMosi v).pin.rsv = s.pin.rsv := by
  unfold State.driveMosi; split <;> simp_all
@[simp] theorem driveMosi_seq (v : Bool) (s : State) : (s.driveMosi v).seq = s.seq := by
  unfold State.driveMosi; split <;> simp_all
@[simp] theorem driveMosi_client (v : Bool) (s : State) : (s.driveMosi v).client = s.client := by
  unfold State.driveMosi; split <;> simp_all
@[simp] theorem driveMosi_pending (v : Bool) (s : State) : (s.driveMosi v).pending = s.pending := by
  unfold State.driveMosi; split <;> simp_all
@[simp] theorem driveMosi_snap (v : Bool) (s : State) : (s.driveMosi v).snap = s.snap := by
  unfold State.driveMosi; split <;> simp_all
@[simp] theorem driveMosi_engine (v : Bool) (s : State) : (s.driveMosi v).engine = s.engine := by
  unfold State.driveMosi; split <;> simp_all
@[simp] theorem driveMosi_jobs (v : Bool) (s : State) : (s.driveMosi v).jobs = s.jobs := by
  unfold State.driveMosi; split <;> simp_all
@[simp] theorem driveMosi_env (v : Bool) (s : State) : (s.driveMosi v).env = s.env := by
  unfold State.driveMosi; split <;> simp_all
@[simp] theorem driveMosi_obs_responses (v : Bool) (s : State) : (s.driveMosi v).obs.responses = s.obs.responses := by
  unfold State.driveMosi; split <;> simp_all
@[simp] theorem driveMosi_obs_bus (v : Bool) (s : State) : (s.driveMosi v).obs.bus = s.obs.bus := by
  unfold State.driveMosi; split <;> simp_all
@[simp] theorem driveMosi_obs_text (v : Bool) (s : State) : (s.driveMosi v).obs.text = s.obs.text := by
  unfold State.driveMosi; split <;> simp_all
@[simp] theorem driveMosi_obs_ticks (v : Bool) (s : State) : (s.driveMosi v).obs.ticks = s.obs.ticks := by
  unfold State.driveMosi; split <;> simp_all

@[simp] theorem driveCs_params (v : Bool) (s : State) : (s.driveCs v).params = s.params := by
  unfold State.driveCs; split <;> simp_all
@[simp] theorem driveCs_cmdBytes (v : Bool) (s : State) : (s.driveCs v).cmdBytes = s.cmdBytes := by
  unfold State.driveCs; split <;> simp_all
@[simp] theorem driveCs_cmdLen (v : Bool) (s : State) : (s.driveCs v).cmdLen = s.cmdLen := by
  unfold State.driveCs; split <;> simp_all
@[simp] theorem driveCs_payloadLen (v : Bool) (s : State) : (s.driveCs v).payloadLen = s.payloadLen := by
  unfold State.driveCs; split <;> simp_all
@[simp] theorem driveCs_claimed (v : Bool) (s : State) : (s.driveCs v).claimed = s.claimed := by
  unfold State.driveCs; split <;> simp_all
@[simp] theorem driveCs_xferBuf (v : Bool) (s : State) : (s.driveCs v).xferBuf = s.xferBuf := by
  unfold State.driveCs; split <;> simp_all
@[simp] theorem driveCs_owner (v : Bool) (s : State) : (s.driveCs v).owner = s.owner := by
  unfold State.driveCs; split <;> simp_all
@[simp] theorem driveCs_pin_sclk (v : Bool) (s : State) : (s.driveCs v).pin.sclk = s.pin.sclk := by
  unfold State.driveCs; split <;> simp_all
@[simp] theorem driveCs_pin_mosi (v : Bool) (s : State) : (s.driveCs v).pin.mosi = s.pin.mosi := by
  unfold State.driveCs; split <;> simp_all
@[simp] theorem driveCs_pin_miso (v : Bool) (s : State) : (s.driveCs v).pin.miso = s.pin.miso := by
  unfold State.driveCs; split <;> simp_all
@[simp] theorem driveCs_pin_cs (v : Bool) (s : State) : (s.driveCs v).pin.cs = .out v := by
  unfold State.driveCs; split <;> simp_all
@[simp] theorem driveCs_pin_rsv (v : Bool) (s : State) : (s.driveCs v).pin.rsv = s.pin.rsv := by
  unfold State.driveCs; split <;> simp_all
@[simp] theorem driveCs_seq (v : Bool) (s : State) : (s.driveCs v).seq = s.seq := by
  unfold State.driveCs; split <;> simp_all
@[simp] theorem driveCs_client (v : Bool) (s : State) : (s.driveCs v).client = s.client := by
  unfold State.driveCs; split <;> simp_all
@[simp] theorem driveCs_pending (v : Bool) (s : State) : (s.driveCs v).pending = s.pending := by
  unfold State.driveCs; split <;> simp_all
@[simp] theorem driveCs_snap (v : Bool) (s : State) : (s.driveCs v).snap = s.snap := by
  unfold State.driveCs; split <;> simp_all
@[simp] theorem driveCs_engine (v : Bool) (s : State) : (s.driveCs v).engine = s.engine := by
  unfold State.driveCs; split <;> simp_all
@[simp] theorem driveCs_jobs (v : Bool) (s : State) : (s.driveCs v).jobs = s.jobs := by
  unfold State.driveCs; split <;> simp_all
@[simp] theorem driveCs_env (v : Bool) (s : State) : (s.driveCs v).env = s.env := by
  unfold State.driveCs; split <;> simp_all
@[simp] theorem driveCs_obs_responses (v : Bool) (s : State) : (s.driveCs v).obs.responses = s.obs.responses := by
  unfold State.driveCs; split <;> simp_all
@[simp] theorem driveCs_obs_bus (v : Bool) (s : State) : (s.driveCs v).obs.bus = s.obs.bus := by
  unfold State.driveCs; split <;> simp_all
@[simp] theorem driveCs_obs_text (v : Bool) (s : State) : (s.driveCs v).obs.text = s.obs.text := by
  unfold State.driveCs; split <;> simp_all
@[simp] theorem driveCs_obs_ticks (v : Bool) (s : State) : (s.driveCs v).obs.ticks = s.obs.ticks := by
  unfold State.driveCs; split <;> simp_all

@[simp] theorem floatCs_params (s : State) : s.floatCs.params = s.params := by
  unfold State.floatCs; split <;> simp_all
@[simp] theorem floatCs_cmdBytes (s : State) : s.floatCs.cmdBytes = s.cmdBytes := by
  unfold State.floatCs; split <;> simp_all
@[simp] theorem floatCs_cmdLen (s : State) : s.floatCs.cmdLen = s.cmdLen := by
  unfold State.floatCs; split <;> simp_all
@[simp] theorem floatCs_payloadLen (s : State) : s.floatCs.payloadLen = s.payloadLen := by
  unfold State.floatCs; split <;> simp_all
@[simp] theorem floatCs_claimed (s : State) : s.floatCs.claimed = s.claimed := by
  unfold State.floatCs; split <;> simp_all
@[simp] theorem floatCs_xferBuf (s : State) : s.floatCs.xferBuf = s.xferBuf := by
  unfold State.floatCs; split <;> simp_all
@[simp] theorem floatCs_owner (s : State) : s.floatCs.owner = s.owner := by
  unfold State.floatCs; split <;> simp_all
@[simp] theorem floatCs_pin_sclk (s : State) : s.floatCs.pin.sclk = s.pin.sclk := by
  unfold State.floatCs; split <;> simp_all
@[simp] theorem floatCs_pin_mosi (s : State) : s.floatCs.pin.mosi = s.pin.mosi := by
  unfold State.floatCs; split <;> simp_all
@[simp] theorem floatCs_pin_miso (s : State) : s.floatCs.pin.miso = s.pin.miso := by
  unfold State.floatCs; split <;> simp_all
@[simp] theorem floatCs_pin_cs (s : State) : s.floatCs.pin.cs = .input := by
  unfold State.floatCs; split <;> simp_all
@[simp] theorem floatCs_pin_rsv (s : State) : s.floatCs.pin.rsv = s.pin.rsv := by
  unfold State.floatCs; split <;> simp_all
@[simp] theorem floatCs_seq (s : State) : s.floatCs.seq = s.seq := by
  unfold State.floatCs; split <;> simp_all
@[simp] theorem floatCs_client (s : State) : s.floatCs.client = s.client := by
  unfold State.floatCs; split <;> simp_all
@[simp] theorem floatCs_pending (s : State) : s.floatCs.pending = s.pending := by
  unfold State.floatCs; split <;> simp_all
@[simp] theorem floatCs_snap (s : State) : s.floatCs.snap = s.snap := by
  unfold State.floatCs; split <;> simp_all
@[simp] theorem floatCs_engine (s : State) : s.floatCs.engine = s.engine := by
  unfold State.floatCs; split <;> simp_all
@[simp] theorem floatCs_jobs (s : State) : s.floatCs.jobs = s.jobs := by
  unfold State.floatCs; split <;> simp_all
@[simp] theorem floatCs_env (s : State) : s.floatCs.env = s.env := by
  unfold State.floatCs; split <;> simp_all
@[simp] theorem floatCs_obs_responses (s : State) : s.floatCs.obs.responses = s.obs.responses := by
  unfold State.floatCs; split <;> simp_all
@[simp] theorem floatCs_obs_bus (s : State) : s.floatCs.obs.bus = s.obs.bus := by
  unfold State.floatCs; split <;> simp_all
@[simp] theorem floatCs_obs_text (s : State) : s.floatCs.obs.text = s.obs.text := by
  unfold State.floatCs; split <;> simp_all
@[simp] theorem floatCs_obs_ticks (s : State) : s.floatCs.obs.ticks = s.obs.ticks := by
  unfold State.floatCs; split <;> simp_all

/-! ### The draws: only the scripts and the count of free values change -/

@[simp] theorem drawTransport_params (s : State) : s.drawTransport.2.params = s.params := by
  unfold State.drawTransport; split <;> rfl
@[simp] theorem drawTransport_cmdBytes (s : State) : s.drawTransport.2.cmdBytes = s.cmdBytes := by
  unfold State.drawTransport; split <;> rfl
@[simp] theorem drawTransport_cmdLen (s : State) : s.drawTransport.2.cmdLen = s.cmdLen := by
  unfold State.drawTransport; split <;> rfl
@[simp] theorem drawTransport_payloadLen (s : State) : s.drawTransport.2.payloadLen = s.payloadLen := by
  unfold State.drawTransport; split <;> rfl
@[simp] theorem drawTransport_claimed (s : State) : s.drawTransport.2.claimed = s.claimed := by
  unfold State.drawTransport; split <;> rfl
@[simp] theorem drawTransport_xferBuf (s : State) : s.drawTransport.2.xferBuf = s.xferBuf := by
  unfold State.drawTransport; split <;> rfl
@[simp] theorem drawTransport_owner (s : State) : s.drawTransport.2.owner = s.owner := by
  unfold State.drawTransport; split <;> rfl
@[simp] theorem drawTransport_pin (s : State) : s.drawTransport.2.pin = s.pin := by
  unfold State.drawTransport; split <;> rfl
@[simp] theorem drawTransport_seq (s : State) : s.drawTransport.2.seq = s.seq := by
  unfold State.drawTransport; split <;> rfl
@[simp] theorem drawTransport_client (s : State) : s.drawTransport.2.client = s.client := by
  unfold State.drawTransport; split <;> rfl
@[simp] theorem drawTransport_pending (s : State) : s.drawTransport.2.pending = s.pending := by
  unfold State.drawTransport; split <;> rfl
@[simp] theorem drawTransport_snap (s : State) : s.drawTransport.2.snap = s.snap := by
  unfold State.drawTransport; split <;> rfl
@[simp] theorem drawTransport_engine (s : State) : s.drawTransport.2.engine = s.engine := by
  unfold State.drawTransport; split <;> rfl
@[simp] theorem drawTransport_jobs (s : State) : s.drawTransport.2.jobs = s.jobs := by
  unfold State.drawTransport; split <;> rfl
@[simp] theorem drawTransport_env_schedule (s : State) : s.drawTransport.2.env.schedule = s.env.schedule := by
  unfold State.drawTransport; split <;> rfl
@[simp] theorem drawTransport_env_endAborts (s : State) : s.drawTransport.2.env.endAborts = s.env.endAborts := by
  unfold State.drawTransport; split <;> rfl
@[simp] theorem drawTransport_env_miso (s : State) : s.drawTransport.2.env.miso = s.env.miso := by
  unfold State.drawTransport; split <;> rfl
@[simp] theorem drawTransport_obs (s : State) : s.drawTransport.2.obs = s.obs := by
  unfold State.drawTransport; split <;> rfl

@[simp] theorem drawEndAbort_params (s : State) : s.drawEndAbort.2.params = s.params := by
  unfold State.drawEndAbort; split <;> rfl
@[simp] theorem drawEndAbort_cmdBytes (s : State) : s.drawEndAbort.2.cmdBytes = s.cmdBytes := by
  unfold State.drawEndAbort; split <;> rfl
@[simp] theorem drawEndAbort_cmdLen (s : State) : s.drawEndAbort.2.cmdLen = s.cmdLen := by
  unfold State.drawEndAbort; split <;> rfl
@[simp] theorem drawEndAbort_payloadLen (s : State) : s.drawEndAbort.2.payloadLen = s.payloadLen := by
  unfold State.drawEndAbort; split <;> rfl
@[simp] theorem drawEndAbort_claimed (s : State) : s.drawEndAbort.2.claimed = s.claimed := by
  unfold State.drawEndAbort; split <;> rfl
@[simp] theorem drawEndAbort_xferBuf (s : State) : s.drawEndAbort.2.xferBuf = s.xferBuf := by
  unfold State.drawEndAbort; split <;> rfl
@[simp] theorem drawEndAbort_owner (s : State) : s.drawEndAbort.2.owner = s.owner := by
  unfold State.drawEndAbort; split <;> rfl
@[simp] theorem drawEndAbort_pin (s : State) : s.drawEndAbort.2.pin = s.pin := by
  unfold State.drawEndAbort; split <;> rfl
@[simp] theorem drawEndAbort_seq (s : State) : s.drawEndAbort.2.seq = s.seq := by
  unfold State.drawEndAbort; split <;> rfl
@[simp] theorem drawEndAbort_client (s : State) : s.drawEndAbort.2.client = s.client := by
  unfold State.drawEndAbort; split <;> rfl
@[simp] theorem drawEndAbort_pending (s : State) : s.drawEndAbort.2.pending = s.pending := by
  unfold State.drawEndAbort; split <;> rfl
@[simp] theorem drawEndAbort_snap (s : State) : s.drawEndAbort.2.snap = s.snap := by
  unfold State.drawEndAbort; split <;> rfl
@[simp] theorem drawEndAbort_engine (s : State) : s.drawEndAbort.2.engine = s.engine := by
  unfold State.drawEndAbort; split <;> rfl
@[simp] theorem drawEndAbort_jobs (s : State) : s.drawEndAbort.2.jobs = s.jobs := by
  unfold State.drawEndAbort; split <;> rfl
@[simp] theorem drawEndAbort_env_schedule (s : State) : s.drawEndAbort.2.env.schedule = s.env.schedule := by
  unfold State.drawEndAbort; split <;> rfl
@[simp] theorem drawEndAbort_env_transport (s : State) : s.drawEndAbort.2.env.transport = s.env.transport := by
  unfold State.drawEndAbort; split <;> rfl
@[simp] theorem drawEndAbort_env_miso (s : State) : s.drawEndAbort.2.env.miso = s.env.miso := by
  unfold State.drawEndAbort; split <;> rfl
@[simp] theorem drawEndAbort_obs (s : State) : s.drawEndAbort.2.obs = s.obs := by
  unfold State.drawEndAbort; split <;> rfl

@[simp] theorem drawMiso_params (s : State) : s.drawMiso.2.params = s.params := by
  unfold State.drawMiso; split <;> rfl
@[simp] theorem drawMiso_cmdBytes (s : State) : s.drawMiso.2.cmdBytes = s.cmdBytes := by
  unfold State.drawMiso; split <;> rfl
@[simp] theorem drawMiso_cmdLen (s : State) : s.drawMiso.2.cmdLen = s.cmdLen := by
  unfold State.drawMiso; split <;> rfl
@[simp] theorem drawMiso_payloadLen (s : State) : s.drawMiso.2.payloadLen = s.payloadLen := by
  unfold State.drawMiso; split <;> rfl
@[simp] theorem drawMiso_claimed (s : State) : s.drawMiso.2.claimed = s.claimed := by
  unfold State.drawMiso; split <;> rfl
@[simp] theorem drawMiso_xferBuf (s : State) : s.drawMiso.2.xferBuf = s.xferBuf := by
  unfold State.drawMiso; split <;> rfl
@[simp] theorem drawMiso_owner (s : State) : s.drawMiso.2.owner = s.owner := by
  unfold State.drawMiso; split <;> rfl
@[simp] theorem drawMiso_pin (s : State) : s.drawMiso.2.pin = s.pin := by
  unfold State.drawMiso; split <;> rfl
@[simp] theorem drawMiso_seq (s : State) : s.drawMiso.2.seq = s.seq := by
  unfold State.drawMiso; split <;> rfl
@[simp] theorem drawMiso_client (s : State) : s.drawMiso.2.client = s.client := by
  unfold State.drawMiso; split <;> rfl
@[simp] theorem drawMiso_pending (s : State) : s.drawMiso.2.pending = s.pending := by
  unfold State.drawMiso; split <;> rfl
@[simp] theorem drawMiso_snap (s : State) : s.drawMiso.2.snap = s.snap := by
  unfold State.drawMiso; split <;> rfl
@[simp] theorem drawMiso_engine (s : State) : s.drawMiso.2.engine = s.engine := by
  unfold State.drawMiso; split <;> rfl
@[simp] theorem drawMiso_jobs (s : State) : s.drawMiso.2.jobs = s.jobs := by
  unfold State.drawMiso; split <;> rfl
@[simp] theorem drawMiso_env_schedule (s : State) : s.drawMiso.2.env.schedule = s.env.schedule := by
  unfold State.drawMiso; split <;> rfl
@[simp] theorem drawMiso_env_transport (s : State) : s.drawMiso.2.env.transport = s.env.transport := by
  unfold State.drawMiso; split <;> rfl
@[simp] theorem drawMiso_env_endAborts (s : State) : s.drawMiso.2.env.endAborts = s.env.endAborts := by
  unfold State.drawMiso; split <;> rfl
@[simp] theorem drawMiso_obs (s : State) : s.drawMiso.2.obs = s.obs := by
  unfold State.drawMiso; split <;> rfl

end Sys2Proof.Machine
end

