-- ==== Sys2Proof/Laws/Arbiter.lean ====
section
/-! SUPPORT. The arbiter: everything a claim, a release and the external consumer can do. -/

namespace Sys2Proof

/-- Two tables with the same value for each line are the same. -/
theorem PerLine.ext_get {α : Type} {p q : PerLine α} (h : ∀ l, p.get l = q.get l) : p = q := by
  cases p; cases q
  have := h .sclk; have := h .mosi; have := h .miso; have := h .cs; have := h .rsv
  simp_all [PerLine.get]

theorem PerLine.all_iff {α : Type} (f : α → Bool) (p : PerLine α) : p.all f = true ↔ ∀ l, f (p.get l) = true := by
  constructor
  · intro h l
    simp only [PerLine.all, Bool.and_eq_true] at h
    cases l <;> simp [PerLine.get, h]
  · intro h
    have := h .sclk; have := h .mosi; have := h .miso; have := h .cs; have := h .rsv
    simp_all [PerLine.all, PerLine.get]

@[simp] theorem PerLine.get_map {α β : Type} (f : α → β) (p : PerLine α) (l : Line) :
    (p.map f).get l = f (p.get l) := by cases l <;> rfl

@[simp] theorem PerLine.get_const {α : Type} (v : α) (l : Line) : (PerLine.const v).get l = v := by cases l <;> rfl

theorem PerLine.get_set {α : Type} (p : PerLine α) (l m : Line) (v : α) :
    (p.set l v).get m = if m = l then v else p.get m := by
  cases l <;> cases m <;> rfl

namespace Machine

theorem allFree_iff (s : State) : s.allFree = true ↔ ∀ l, s.owner.get l = .free := by
  simp [State.allFree, PerLine.all_iff]

theorem ownersAgree_iff (s : State) : s.ownersAgree = true ↔
    (s.claimed = true ∧ ∀ l, s.owner.get l = .self) ∨ (s.claimed = false ∧ ∀ l, s.owner.get l ≠ .self) := by
  unfold State.ownersAgree
  split
  · next h => simp [h, PerLine.all_iff]
  · next h => simp [h, PerLine.all_iff]

/-- Everything a claim can do (44_line_arbiter R160). -/
theorem claim_cases (s : State) :
    (s.claimed = false ∧ (∀ l, s.owner.get l = .free) ∧
      claim s = (true, { s with
        claimed := true, owner := PerLine.const .self, pin := s.params.lineInit.map initPin
        obs := { s.obs with pins := s.obs.pins ++ s.initEvents } })) ∨
    ((s.claimed = true ∨ ∃ l, s.owner.get l ≠ .free) ∧ claim s = (false, s)) := by
  unfold claim
  split
  · next h =>
    simp only [Bool.and_eq_true, Bool.not_eq_true', allFree_iff] at h
    exact .inl ⟨h.1, h.2, rfl⟩
  · next h =>
    refine .inr ⟨?_, rfl⟩
    simp only [Bool.and_eq_true, Bool.not_eq_true', allFree_iff, not_and, not_forall] at h
    by_cases hc : s.claimed = true
    · exact .inl hc
    · exact .inr (h (by simpa using hc))

/-- Everything a release does: it changes the claim, the owners and the pins (44_line_arbiter R161). -/
theorem release_eq (s : State) :
    release s = { s with claimed := false, owner := (release s).owner, pin := (release s).pin } := rfl

theorem release_owner (s : State) (l : Line) : (release s).owner.get l = releasedOwner (s.owner.get l) := by
  cases l <;> rfl

theorem release_pin (s : State) (l : Line) : (release s).pin.get l = releasedPin (s.owner.get l) (s.pin.get l) := by
  cases l <;> rfl

/-- A release with no line of SELF leaves the owners and the pins alone. -/
theorem release_unowned {s : State} (h : ∀ l, s.owner.get l ≠ .self) :
    release s = { s with claimed := false } := by
  have ho : (release s).owner = s.owner :=
    PerLine.ext_get fun l => by rw [release_owner, releasedOwner, if_neg (h l)]
  have hp : (release s).pin = s.pin :=
    PerLine.ext_get fun l => by rw [release_pin, releasedPin, if_neg (h l)]
  rw [release_eq, ho, hp]

theorem release_none_self (s : State) (l : Line) : (release s).owner.get l ≠ .self := by
  rw [release_owner, releasedOwner]
  split
  · simp
  · assumption

theorem setOwners_get (lines : List Line) (o : Owner) (p : PerLine Owner) (l : Line) :
    (setOwners lines o p).get l = if l ∈ lines then o else p.get l := by
  induction lines generalizing p with
  | nil => simp [setOwners]
  | cons m lines ih =>
    have : setOwners (m :: lines) o p = setOwners lines o (p.set m o) := rfl
    rw [this, ih, PerLine.get_set]
    by_cases h1 : l ∈ lines <;> by_cases h2 : l = m <;> simp [h1, h2]

theorem allOwned_iff (lines : List Line) (o : Owner) (p : PerLine Owner) :
    allOwned lines o p = true ↔ lines ≠ [] ∧ ∀ l ∈ lines, p.get l = o := by
  cases lines <;> simp [allOwned]

/-- Everything `X.take` can do (44_line_arbiter R165). -/
theorem externalTake_cases (lines : List Line) (s : State) :
    ((lines ≠ [] ∧ ∀ l ∈ lines, s.owner.get l = .free) ∧
      externalTake lines s = { s with owner := setOwners lines .other s.owner }) ∨
    (¬ (lines ≠ [] ∧ ∀ l ∈ lines, s.owner.get l = .free) ∧ externalTake lines s = s) := by
  unfold externalTake
  split
  · next h => exact .inl ⟨(allOwned_iff ..).1 h, rfl⟩
  · next h => exact .inr ⟨fun hh => h ((allOwned_iff ..).2 hh), rfl⟩

/-- Everything `X.give` can do (44_line_arbiter R165). -/
theorem externalGive_cases (lines : List Line) (s : State) :
    ((lines ≠ [] ∧ ∀ l ∈ lines, s.owner.get l = .other) ∧
      externalGive lines s = { s with owner := setOwners lines .free s.owner }) ∨
    (¬ (lines ≠ [] ∧ ∀ l ∈ lines, s.owner.get l = .other) ∧ externalGive lines s = s) := by
  unfold externalGive
  split
  · next h => exact .inl ⟨(allOwned_iff ..).1 h, rfl⟩
  · next h => exact .inr ⟨fun hh => h ((allOwned_iff ..).2 hh), rfl⟩

/-- No move of the external consumer takes a line from SELF or gives it one. -/
theorem externalTake_self (lines : List Line) (s : State) (l : Line) :
    (externalTake lines s).owner.get l = .self ↔ s.owner.get l = .self := by
  rcases externalTake_cases lines s with ⟨⟨_, h⟩, e⟩ | ⟨_, e⟩
  · rw [e]
    simp only [setOwners_get]
    split
    · next hm => simp [h l hm]
    · rfl
  · rw [e]

theorem externalGive_self (lines : List Line) (s : State) (l : Line) :
    (externalGive lines s).owner.get l = .self ↔ s.owner.get l = .self := by
  rcases externalGive_cases lines s with ⟨⟨_, h⟩, e⟩ | ⟨_, e⟩
  · rw [e]
    simp only [setOwners_get]
    split
    · next hm => simp [h l hm]
    · rfl
  · rw [e]

end Machine

end Sys2Proof
end

