-- ==== Sys2Proof/Laws/PerInstr.lean ====
section
/-! SUPPORT. One law for each constructor of Instr: what its opcode byte is made of. -/

namespace Sys2Proof.Laws.Opcode

/-- The opcode byte has `SUB = 0`, and the opcode map gives the request back from its `OP` and its arguments. -/
def Statement (i : Instr) : Prop :=
  subField i.opcode = 0 ∧ requestOf (opField i.opcode).toNat i.args = .ok i

theorem numcmdWr (a : List Byte) : Statement (.numcmdWr a) := by
  simp [Statement, subField, opField, requestOf, Instr.opcode, Instr.args]
theorem numcmdRd (a : List Byte) : Statement (.numcmdRd a) := by
  simp [Statement, subField, opField, requestOf, Instr.opcode, Instr.args]
theorem cmdWr (a : List Byte) : Statement (.cmdWr a) := by
  simp [Statement, subField, opField, requestOf, Instr.opcode, Instr.args]
theorem cmdRd (a : List Byte) : Statement (.cmdRd a) := by
  simp [Statement, subField, opField, requestOf, Instr.opcode, Instr.args]
theorem numrwWr (a : List Byte) : Statement (.numrwWr a) := by
  simp [Statement, subField, opField, requestOf, Instr.opcode, Instr.args]
theorem numrwRd (a : List Byte) : Statement (.numrwRd a) := by
  simp [Statement, subField, opField, requestOf, Instr.opcode, Instr.args]
theorem dataWr (a : List Byte) : Statement (.dataWr a) := by
  simp [Statement, subField, opField, requestOf, Instr.opcode, Instr.args]
theorem dataRd (a : List Byte) : Statement (.dataRd a) := by
  simp [Statement, subField, opField, requestOf, Instr.opcode, Instr.args]
theorem lockWr (a : List Byte) : Statement (.lockWr a) := by
  simp [Statement, subField, opField, requestOf, Instr.opcode, Instr.args]
theorem lockRd (a : List Byte) : Statement (.lockRd a) := by
  simp [Statement, subField, opField, requestOf, Instr.opcode, Instr.args]
theorem status (a : List Byte) : Statement (.status a) := by
  simp [Statement, subField, opField, requestOf, Instr.opcode, Instr.args]

theorem every (i : Instr) : Statement i := by cases i <;> simp [Statement, subField, opField, requestOf, Instr.opcode, Instr.args]

end Sys2Proof.Laws.Opcode
end

