-- ==== Sys2Proof/Laws/Codec.lean ====
section
/-! SUPPORT. The decoder and the encoder: the fields of an opcode byte make it up, and what decoding can answer. -/

namespace Sys2Proof

/-- The two fields of 30_encoding R72 are the whole opcode byte. -/
theorem opcode_of_fields (op : Byte) : op.toNat = 16 * (opField op).toNat + (subField op).toNat := by
  simp only [opField, subField, BitVec.extractLsb'_toNat, Nat.shiftRight_eq_div_pow]
  have := op.isLt
  omega

/-- The opcode map answers only the request whose opcode byte has that `OP`, with the arguments as they are. -/
theorem requestOf_ok {op : Nat} {args : List Byte} {i : Instr} (h : requestOf op args = .ok i) :
    i.opcode.toNat = 16 * op ∧ i.args = args := by
  unfold requestOf at h
  split at h <;> cases h <;> simp [Instr.opcode, Instr.args]

/-- The opcode map refuses exactly 0x0 and everything from 0xC on (30_encoding R75). -/
theorem requestOf_error {op : Nat} {args : List Byte} {e : DecodeError} (h : requestOf op args = .error e) :
    e = .reservedOp ∧ (op = 0 ∨ 12 ≤ op) := by
  unfold requestOf at h
  split at h <;> cases h
  refine ⟨rfl, ?_⟩
  by_contra hc
  rw [not_or, Nat.not_le] at hc
  have : op = 1 ∨ op = 2 ∨ op = 3 ∨ op = 4 ∨ op = 5 ∨ op = 6 ∨ op = 7 ∨ op = 8 ∨ op = 9 ∨ op = 10 ∨ op = 11 := by
    omega
  simp_all

end Sys2Proof
end

