-- ==== Sys2Proof/Laws/Engine.lean ====
section
/-! SUPPORT. What the transaction engine can change: the frame of one engine step, and of a whole run of them. -/

namespace Sys2Proof.Machine

/-- What no step of the engine changes: the configuration registers, the claim, the pool, the hosts' side, the
snapshot and the direction of the exchange, and the lines the engine does not drive. -/
structure EngineFrame (s t : State) : Prop where
  params     : t.params = s.params
  cmdBytes   : t.cmdBytes = s.cmdBytes
  cmdLen     : t.cmdLen = s.cmdLen
  payloadLen : t.payloadLen = s.payloadLen
  claimed    : t.claimed = s.claimed
  owner      : t.owner = s.owner
  seq        : t.seq = s.seq
  client     : t.client = s.client
  pending    : t.pending = s.pending
  snap       : t.snap = s.snap
  jobs       : t.jobs = s.jobs
  dir        : t.engine.dir = s.engine.dir
  out        : t.engine.out = s.engine.out
  schedule   : t.env.schedule = s.env.schedule
  responses  : t.obs.responses = s.obs.responses
  text       : t.obs.text = s.obs.text
  miso       : t.pin.miso = s.pin.miso
  rsv        : t.pin.rsv = s.pin.rsv

namespace EngineFrame

theorem refl (s : State) : EngineFrame s s := by constructor <;> rfl

theorem trans {s t u : State} (h : EngineFrame s t) (k : EngineFrame t u) : EngineFrame s u := by
  constructor
  · exact k.params.trans h.params
  · exact k.cmdBytes.trans h.cmdBytes
  · exact k.cmdLen.trans h.cmdLen
  · exact k.payloadLen.trans h.payloadLen
  · exact k.claimed.trans h.claimed
  · exact k.owner.trans h.owner
  · exact k.seq.trans h.seq
  · exact k.client.trans h.client
  · exact k.pending.trans h.pending
  · exact k.snap.trans h.snap
  · exact k.jobs.trans h.jobs
  · exact k.dir.trans h.dir
  · exact k.out.trans h.out
  · exact k.schedule.trans h.schedule
  · exact k.responses.trans h.responses
  · exact k.text.trans h.text
  · exact k.miso.trans h.miso
  · exact k.rsv.trans h.rsv

end EngineFrame

theorem frame_sampleMiso (s : State) : EngineFrame s (sampleMiso s) := by
  constructor <;> simp [sampleMiso]

theorem frame_leadStep (s : State) : EngineFrame s (leadStep s) := by
  by_cases h : s.params.cpha = true
  · constructor <;> simp [leadStep, h]
  · refine EngineFrame.trans (t := sampleMiso ((s.driveMosi (wireBit s.params.bitOrder s.engine.shiftOut
      s.engine.bitIdx)).driveSclk (!s.params.cpol))) ((EngineFrame.trans ?_ (frame_sampleMiso _))) ?_
    · constructor <;> simp
    · constructor <;> simp [leadStep, h]

theorem frame_trailStep (s : State) : EngineFrame s (trailStep s) := by
  by_cases h : s.params.cpha = true
  · refine EngineFrame.trans (t := sampleMiso (s.driveSclk s.params.cpol))
      ((EngineFrame.trans ?_ (frame_sampleMiso _))) ?_
    · constructor <;> simp
    · constructor <;> simp [trailStep, h]
  · constructor <;> simp [trailStep, h]

theorem frame_loadByte (s : State) : EngineFrame s (loadByte s) := by
  unfold loadByte; split
  · constructor <;> rfl
  · exact .refl s

theorem frame_byteDone (s : State) : EngineFrame s (byteDone s) := by
  unfold byteDone; split
  · constructor <;> (dsimp only; split <;> rfl)
  · exact .refl s

theorem frame_halfBitAct (s : State) : EngineFrame s (halfBitAct s) := by
  unfold halfBitAct; split
  · exact frame_leadStep s
  · exact (frame_trailStep s).trans (frame_byteDone _)

theorem frame_drawTransport (s : State) : EngineFrame s s.drawTransport.2 := by constructor <;> simp

theorem frame_countTick (s : State) : EngineFrame s s.countTick := by constructor <;> rfl

theorem frame_abortAt (b : Nat) (s : State) : EngineFrame s (abortAt b s) := by constructor <;> rfl

theorem frame_selectStep (s : State) : EngineFrame s (selectStep s) := by constructor <;> simp [selectStep]

theorem frame_enterPayload (s : State) : EngineFrame s (enterPayload s) := by constructor <;> rfl

theorem frame_endStep (s : State) : EngineFrame s (endStep s) := by
  have h : EngineFrame s s.drawEndAbort.2 := by constructor <;> simp
  unfold endStep
  dsimp only
  split
  · exact h.trans (frame_abortAt 0 _)
  · refine h.trans ?_
    constructor <;> rfl

theorem frame_deselectStep (s : State) : EngineFrame s (deselectStep s) := by
  constructor <;> simp [deselectStep]

theorem frame_clearErr (s : State) : EngineFrame s s.clearErr := by constructor <;> rfl

/-- The state a progress carries. -/
def Progress.state : Progress → State
  | .running s => s
  | .waiting s => s
  | .over s => s

theorem frame_halfBit (s : State) : EngineFrame s (halfBit s).state := by
  have h := (frame_loadByte s).trans (frame_drawTransport _)
  unfold halfBit
  dsimp only
  split
  · exact h
  · exact (h.trans (frame_countTick _)).trans (frame_abortAt _ _)
  · exact (h.trans (frame_countTick _)).trans (frame_halfBitAct _)

/-- One engine step changes nothing outside its frame. -/
theorem frame_engineStep (s : State) : EngineFrame s (engineStep s).state := by
  unfold engineStep
  split
  · exact .refl s
  · exact frame_selectStep s
  · split
    · exact frame_halfBit s
    · exact frame_enterPayload s
  · split
    · exact frame_halfBit s
    · exact frame_endStep s
  · exact frame_deselectStep s

/-- An engine step is over only at DESELECT. -/
theorem engineStep_over {s t : State} (h : engineStep s = .over t) :
    s.engine.phase = .deselect ∧ t = deselectStep s := by
  unfold engineStep at h
  split at h
  · cases h
  · cases h
  · split at h
    · unfold halfBit at h; dsimp only at h; split at h <;> cases h
    · cases h
  · split at h
    · unfold halfBit at h; dsimp only at h; split at h <;> cases h
    · cases h
  · next hp => cases h; exact ⟨hp, rfl⟩

/-- A run of the engine keeps every property that each of its steps short of DESELECT keeps, up to the response if
one is given. -/
theorem runEngine_keeps (P : State → Prop) (hstep : ∀ s, P s → s.engine.phase ≠ .deselect → P (engineStep s).state) :
    ∀ (n : Nat) (s : State), P s →
      P (runEngine n s) ∨ ∃ u, P u ∧ u.engine.phase = .deselect ∧ runEngine n s = finishExchange (deselectStep u) := by
  intro n
  induction n with
  | zero => intro s h; exact .inl h
  | succ n ih =>
    intro s h
    by_cases hp : s.engine.phase = .deselect
    · exact .inr ⟨s, h, hp, by simp [runEngine, engineStep, hp]⟩
    · have hs := hstep s h hp
      unfold runEngine
      split
      · next t e => rw [e] at hs; exact ih t hs
      · next t e => rw [e] at hs; exact .inl hs
      · next t e => exact absurd (engineStep_over e).1 hp

/-- What a run of the engine can come to: the exchange is still in progress within the frame, or it went through
DESELECT and was answered. -/
theorem runEngine_spec (n : Nat) (s : State) :
    EngineFrame s (runEngine n s) ∨
      ∃ u, EngineFrame s u ∧ u.engine.phase = .deselect ∧ runEngine n s = finishExchange (deselectStep u) :=
  runEngine_keeps (EngineFrame s) (fun t h _ => h.trans (frame_engineStep t)) n s (.refl s)

/-- The answer to a data request: only the response, `SEQ` and `ERR` change. -/
theorem finishExchange_eq (s : State) : ∃ st r, finishExchange s = respond st r s.clearErr ∧ (st ≠ .ok → r = []) ∧
    (s.engine.err = true → st = .ioError) ∧ (s.engine.err = false → st = .ok) := by
  unfold finishExchange
  split
  · next h => exact ⟨.ioError, [], rfl, by simp, by simp, by simp [h]⟩
  · next h =>
    split
    · exact ⟨.ok, [], rfl, by simp, by simp [h], by simp⟩
    · exact ⟨.ok, _, rfl, by simp, by simp [h], by simp⟩

end Sys2Proof.Machine
end

