-- ==== Sys2Proof/Laws/Memory.lean ====
section
/-! SUPPORT. The laws of XFER_BUF (a read after a write, the canonical form) and of the command bytes. -/

namespace Sys2Proof.Machine

namespace XferBuf

theorem read_put (m : List Host.Cell) (i j : Nat) (v : Byte) (h : ∀ c ∈ m, i < c.1) :
    read (put i v m) j = if j = i then v else read m j := by
  have below : ∀ m : List Host.Cell, (∀ c ∈ m, i < c.1) → read m i = unlisted := by
    intro m h
    induction m with
    | nil => rfl
    | cons c m ih =>
      have hc : i < c.1 := h c (by simp)
      simp only [read]
      rw [if_neg (by omega)]
      exact ih fun d hd => h d (by simp [hd])
  unfold put
  split
  · next hv =>
    split
    · next e => rw [e, hv, below m h]
    · rfl
  · simp only [read]
    split
    · next e => simp [e]
    · next e => rw [if_neg fun e' => e e'.symm]

theorem read_below (m : List Host.Cell) (i : Nat) (h : ∀ c ∈ m, i < c.1) : read m i = unlisted := by
  induction m with
  | nil => rfl
  | cons c m ih =>
    have hc : i < c.1 := h c (by simp)
    simp only [read]
    rw [if_neg (by omega)]
    exact ih fun d hd => h d (by simp [hd])

/-- A read after a write: the value at the index written, the old value at every other one. -/
theorem read_write (m : List Host.Cell) (i j : Nat) (v : Byte) (h : m.Pairwise fun c d => c.1 < d.1) :
    read (write m i v) j = if j = i then v else read m j := by
  induction m with
  | nil => simpa [write, read] using read_put [] i j v (by simp)
  | cons c m ih =>
    obtain ⟨a, b⟩ := c
    rw [List.pairwise_cons] at h
    simp only [write]
    split
    · next e =>
      subst e
      rw [read_put m a j v h.1]
      simp only [read]
      split
      · rfl
      · next e => rw [if_neg fun e' => e e'.symm]
    · split
      · next hne hlt =>
        refine read_put _ i j v fun c hc => ?_
        rcases List.mem_cons.1 hc with rfl | hc
        · exact hlt
        · exact Nat.lt_trans hlt (h.1 c hc)
      · next hne hge =>
        simp only [read]
        split
        · next e => rw [if_neg (by omega)]
        · exact ih h.2

theorem mem_put {m : List Host.Cell} {i : Nat} {v : Byte} {c : Host.Cell} (h : c ∈ put i v m) :
    c = (i, v) ∨ c ∈ m := by
  unfold put at h
  split at h
  · exact .inr h
  · simpa using h

/-- A write lists no index but the one written and those listed before. -/
theorem mem_write {m : List Host.Cell} {i : Nat} {v : Byte} {c : Host.Cell} (h : c ∈ write m i v) :
    c.1 = i ∨ c ∈ m := by
  induction m with
  | nil =>
    rcases mem_put h with rfl | h
    · exact .inl rfl
    · exact .inr h
  | cons d m ih =>
    obtain ⟨a, b⟩ := d
    simp only [write] at h
    split at h
    · rcases mem_put h with rfl | h
      · exact .inl rfl
      · exact .inr (by simp [h])
    · split at h
      · rcases mem_put h with rfl | h
        · exact .inl rfl
        · exact .inr h
      · rcases List.mem_cons.1 h with rfl | h
        · exact .inr (by simp)
        · exact (ih h).imp id fun h => by simp [h]

theorem wf_nil : wf [] := ⟨List.Pairwise.nil, by simp⟩

/-- The buffer after reset has the canonical form. -/
theorem wf_reset : wf State.reset.xferBuf := wf_nil

theorem wf_put (m : List Host.Cell) (i : Nat) (v : Byte) (hw : wf m) (h : ∀ c ∈ m, i < c.1) : wf (put i v m) := by
  unfold put
  split
  · exact hw
  · next hv =>
    refine ⟨List.pairwise_cons.2 ⟨h, hw.1⟩, fun c hc => ?_⟩
    rcases List.mem_cons.1 hc with rfl | hc
    · exact hv
    · exact hw.2 c hc

/-- Every write keeps the canonical form. -/
theorem wf_write (m : List Host.Cell) (i : Nat) (v : Byte) (hw : wf m) : wf (write m i v) := by
  induction m with
  | nil => exact wf_put [] i v wf_nil (by simp)
  | cons c m ih =>
    obtain ⟨a, b⟩ := c
    have ht : wf m := ⟨(List.pairwise_cons.1 hw.1).2, fun c hc => hw.2 c (by simp [hc])⟩
    have hh := (List.pairwise_cons.1 hw.1).1
    simp only [write]
    split
    · next e => subst e; exact wf_put m a v ht hh
    · split
      · next hne hlt =>
        refine wf_put _ i v hw fun c hc => ?_
        rcases List.mem_cons.1 hc with rfl | hc
        · exact hlt
        · exact Nat.lt_trans hlt (hh c hc)
      · next hne hge =>
        have := ih ht
        refine ⟨List.pairwise_cons.2 ⟨fun c hc => ?_, this.1⟩, fun c hc => ?_⟩
        · rcases mem_write hc with rfl | hc
          · show a < c.1; omega
          · exact hh c hc
        · rcases List.mem_cons.1 hc with rfl | hc
          · exact hw.2 _ (by simp)
          · exact this.2 c hc

end XferBuf

/-- The command bytes after a write from index `i` on: the bytes written where they fit, the old ones elsewhere. -/
theorem putBytes_toList (bs : List Byte) : ∀ (i : Nat) (v : Vector Byte 4), i + bs.length ≤ 4 →
    (putBytes i bs v).toList = v.toList.take i ++ bs ++ v.toList.drop (i + bs.length) := by
  induction bs with
  | nil => intro i v _; simp [putBytes]
  | cons b bs ih =>
    intro i v h
    simp only [List.length_cons] at h
    have hv : v.toList.length = 4 := by simp
    have hi : i < v.toList.length := by omega
    rw [putBytes, ih (i + 1) _ (by omega)]
    have hs : (v.setIfInBounds i b).toList = v.toList.set i b := by
      rw [Vector.toList, Vector.toArray_setIfInBounds, Array.toList_setIfInBounds]; rfl
    have hm : i - min i 4 = 0 := by omega
    rw [hs, List.take_set, List.drop_set_of_lt (by omega), List.take_succ_eq_append_getElem hi,
      List.set_append_right _ _ (by simp)]
    simp [hm, Nat.add_assoc, Nat.add_comm 1]

/-- `CMD_WR` then the first `n` cells: the bytes written. -/
theorem putBytes_take (bs : List Byte) (v : Vector Byte 4) (h : bs.length ≤ 4) :
    (putBytes 0 bs v).toList.take bs.length = bs := by
  rw [putBytes_toList bs 0 v (by omega)]; simp

/-- `CMD_WR` keeps the cells from the number of bytes written on (10_state R23). -/
theorem putBytes_drop (bs : List Byte) (v : Vector Byte 4) (h : bs.length ≤ 4) :
    (putBytes 0 bs v).toList.drop bs.length = v.toList.drop bs.length := by
  rw [putBytes_toList bs 0 v (by omega)]; simp

/-- The command has `CMD_LEN` bytes. -/
theorem command_length (s : State) (h : s.cmdLen.toNat ≤ cmdCap) : s.command.length = s.cmdLen.toNat := by
  simp only [cmdCap] at h
  simp [State.command, h]

end Sys2Proof.Machine
end

