-- ==== Sys2Proof/Laws/Serializer.lean ====
section
/-! SUPPORT. The serial master: the byte put together from its own wire bits, and what one half-bit step does to each
field of the engine. -/

namespace Sys2Proof.Machine

/-- The byte received when the first `n` samples are the wire bits of `d` (43_serializer R141). -/
def partialByte (o : BitOrder) (d : Byte) (n : Nat) : Byte :=
  (List.range n).foldl (fun v i => placeBit o v i (wireBit o d i)) 0x00

theorem partialByte_succ (o : BitOrder) (d : Byte) (n : Nat) :
    partialByte o d (n + 1) = placeBit o (partialByte o d n) n (wireBit o d n) := by
  simp [partialByte, List.range_succ, List.foldl_append]

/-- A bit of a byte with one wire bit placed. -/
theorem placeBit_getLsbD (o : BitOrder) (v : Byte) (i j : Nat) (b : Bool) (hi : i < 8) (hj : j < 8) :
    (placeBit o v i b).getLsbD j = if j = wirePos o i then b else v.getLsbD j := by
  have hw : wirePos o i < 8 := by cases o <;> (simp [wirePos]; try omega)
  have hm : ((1#8 : Byte) <<< wirePos o i).getLsbD j = decide (j = wirePos o i) := by
    simp only [BitVec.getLsbD_shiftLeft, BitVec.getLsbD_one, hj]
    by_cases e : j = wirePos o i
    · simp [e]
    · simp only [e, decide_false]
      by_cases hlt : j < wirePos o i
      · simp [hlt]
      · have : ¬ j - wirePos o i = 0 := by omega
        simp [this]
  unfold placeBit
  split
  · next hb => simp only [BitVec.getLsbD_or, hm]; by_cases e : j = wirePos o i <;> simp [e, hb]
  · next hb => simp only [BitVec.getLsbD_and, BitVec.getLsbD_not, hm, hj]; by_cases e : j = wirePos o i <;> simp [e, hb]

/-- After all eight samples the byte received is the byte whose wire bits were sampled (43_serializer R141). -/
theorem partialByte_eight (o : BitOrder) (d : Byte) : partialByte o d 8 = d := by
  have key : ∀ n, n ≤ 8 → ∀ i, i < n → (partialByte o d n).getLsbD (wirePos o i) = wireBit o d i := by
    intro n
    induction n with
    | zero => intro _ i hi; omega
    | succ n ih =>
      intro hn i hi
      have hp : wirePos o i < 8 := by cases o <;> (simp [wirePos]; try omega)
      rw [partialByte_succ, placeBit_getLsbD o _ n _ _ (by omega) hp]
      have inj : wirePos o i = wirePos o n ↔ i = n := by cases o <;> (simp [wirePos]; try omega)
      split
      · next e => rw [inj.1 e]
      · next e =>
        rw [inj] at e
        exact ih (by omega) i (by omega)
  apply BitVec.eq_of_getLsbD_eq
  intro j hj
  have hpos : wirePos o (wirePos o j) = j := by cases o <;> (simp [wirePos]; try omega)
  have := key 8 (Nat.le_refl 8) (wirePos o j) (by cases o <;> (simp [wirePos]; try omega))
  rw [hpos] at this
  rw [this, wireBit, hpos]

/-! ### One half-bit step, field by field -/

section sampleMiso
variable (s : State)
@[simp] theorem sampleMiso_phase : (sampleMiso s).engine.phase = s.engine.phase := by simp [sampleMiso]
@[simp] theorem sampleMiso_byteIdx : (sampleMiso s).engine.byteIdx = s.engine.byteIdx := by simp [sampleMiso]
@[simp] theorem sampleMiso_bitIdx : (sampleMiso s).engine.bitIdx = s.engine.bitIdx := by simp [sampleMiso]
@[simp] theorem sampleMiso_shiftOut : (sampleMiso s).engine.shiftOut = s.engine.shiftOut := by simp [sampleMiso]
@[simp] theorem sampleMiso_shiftIn : (sampleMiso s).engine.shiftIn = s.engine.shiftIn := by simp [sampleMiso]
@[simp] theorem sampleMiso_err : (sampleMiso s).engine.err = s.engine.err := by simp [sampleMiso]
@[simp] theorem sampleMiso_dir : (sampleMiso s).engine.dir = s.engine.dir := by simp [sampleMiso]
@[simp] theorem sampleMiso_bus : (sampleMiso s).obs.bus = s.obs.bus := by simp [sampleMiso]
@[simp] theorem sampleMiso_ticks : (sampleMiso s).obs.ticks = s.obs.ticks := by simp [sampleMiso]
@[simp] theorem sampleMiso_transport : (sampleMiso s).env.transport = s.env.transport := by simp [sampleMiso]
@[simp] theorem sampleMiso_endAborts : (sampleMiso s).env.endAborts = s.env.endAborts := by simp [sampleMiso]
@[simp] theorem sampleMiso_pin : (sampleMiso s).pin = s.pin := by simp [sampleMiso]
@[simp] theorem sampleMiso_xferBuf : (sampleMiso s).xferBuf = s.xferBuf := by simp [sampleMiso]
@[simp] theorem sampleMiso_params : (sampleMiso s).params = s.params := by simp [sampleMiso]

theorem sampleMiso_scripted {v : Bool} {rest : List Bool} (h : s.env.miso = v :: rest) :
    (sampleMiso s).engine.sampled = v ∧ (sampleMiso s).env.miso = rest ∧ (sampleMiso s).env.draws = s.env.draws := by
  simp [sampleMiso, State.drawMiso, h]
end sampleMiso

section leadStep
variable (s : State)
@[simp] theorem leadStep_half : (leadStep s).engine.half = .trail := rfl
@[simp] theorem leadStep_phase : (leadStep s).engine.phase = s.engine.phase := by unfold leadStep; dsimp only; split <;> simp
@[simp] theorem leadStep_byteIdx : (leadStep s).engine.byteIdx = s.engine.byteIdx := by unfold leadStep; dsimp only; split <;> simp
@[simp] theorem leadStep_bitIdx : (leadStep s).engine.bitIdx = s.engine.bitIdx := by unfold leadStep; dsimp only; split <;> simp
@[simp] theorem leadStep_shiftOut : (leadStep s).engine.shiftOut = s.engine.shiftOut := by unfold leadStep; dsimp only; split <;> simp
@[simp] theorem leadStep_shiftIn : (leadStep s).engine.shiftIn = s.engine.shiftIn := by unfold leadStep; dsimp only; split <;> simp
@[simp] theorem leadStep_err : (leadStep s).engine.err = s.engine.err := by unfold leadStep; dsimp only; split <;> simp
@[simp] theorem leadStep_dir : (leadStep s).engine.dir = s.engine.dir := by unfold leadStep; dsimp only; split <;> simp
@[simp] theorem leadStep_bus : (leadStep s).obs.bus = s.obs.bus := by unfold leadStep; dsimp only; split <;> simp
@[simp] theorem leadStep_ticks : (leadStep s).obs.ticks = s.obs.ticks := by unfold leadStep; dsimp only; split <;> simp
@[simp] theorem leadStep_transport : (leadStep s).env.transport = s.env.transport := by unfold leadStep; dsimp only; split <;> simp
@[simp] theorem leadStep_endAborts : (leadStep s).env.endAborts = s.env.endAborts := by unfold leadStep; dsimp only; split <;> simp
@[simp] theorem leadStep_xferBuf : (leadStep s).xferBuf = s.xferBuf := by unfold leadStep; dsimp only; split <;> simp
@[simp] theorem leadStep_cs : (leadStep s).pin.cs = s.pin.cs := by unfold leadStep; dsimp only; split <;> simp
@[simp] theorem leadStep_mosi :
    (leadStep s).pin.mosi = .out (wireBit s.params.bitOrder s.engine.shiftOut s.engine.bitIdx) := by
  unfold leadStep; dsimp only; split <;> simp
@[simp] theorem leadStep_sclk : (leadStep s).pin.sclk = .out (!s.params.cpol) := by unfold leadStep; dsimp only; split <;> simp

/-- With `P_CPHA = 0` the leading edge samples MISO (43_serializer R142). -/
theorem leadStep_sample {v : Bool} {rest : List Bool} (hc : s.params.cpha = false) (h : s.env.miso = v :: rest) :
    (leadStep s).engine.sampled = v ∧ (leadStep s).env.miso = rest ∧ (leadStep s).env.draws = s.env.draws := by
  have := sampleMiso_scripted ((s.driveMosi (wireBit s.params.bitOrder s.engine.shiftOut
    s.engine.bitIdx)).driveSclk (!s.params.cpol)) (v := v) (rest := rest) (by simpa using h)
  simpa [leadStep, hc] using this

/-- With `P_CPHA = 1` it does not. -/
theorem leadStep_noSample (hc : s.params.cpha = true) :
    (leadStep s).engine.sampled = s.engine.sampled ∧ (leadStep s).env.miso = s.env.miso
      ∧ (leadStep s).env.draws = s.env.draws := by
  simp [leadStep, hc]
end leadStep

section trailStep
variable (s : State)
@[simp] theorem trailStep_half : (trailStep s).engine.half = .lead := rfl
@[simp] theorem trailStep_phase : (trailStep s).engine.phase = s.engine.phase := by unfold trailStep; dsimp only; (split <;> simp)
@[simp] theorem trailStep_byteIdx : (trailStep s).engine.byteIdx = s.engine.byteIdx := by unfold trailStep; dsimp only; (split <;> simp)
@[simp] theorem trailStep_bitIdx : (trailStep s).engine.bitIdx = s.engine.bitIdx + 1 := by unfold trailStep; dsimp only; (split <;> simp)
@[simp] theorem trailStep_shiftOut : (trailStep s).engine.shiftOut = s.engine.shiftOut := by unfold trailStep; dsimp only; (split <;> simp)
@[simp] theorem trailStep_err : (trailStep s).engine.err = s.engine.err := by unfold trailStep; dsimp only; (split <;> simp)
@[simp] theorem trailStep_dir : (trailStep s).engine.dir = s.engine.dir := by unfold trailStep; dsimp only; (split <;> simp)
@[simp] theorem trailStep_bus : (trailStep s).obs.bus = s.obs.bus := by unfold trailStep; dsimp only; (split <;> simp)
@[simp] theorem trailStep_ticks : (trailStep s).obs.ticks = s.obs.ticks := by unfold trailStep; dsimp only; (split <;> simp)
@[simp] theorem trailStep_transport : (trailStep s).env.transport = s.env.transport := by unfold trailStep; dsimp only; (split <;> simp)
@[simp] theorem trailStep_endAborts : (trailStep s).env.endAborts = s.env.endAborts := by unfold trailStep; dsimp only; (split <;> simp)
@[simp] theorem trailStep_xferBuf : (trailStep s).xferBuf = s.xferBuf := by unfold trailStep; dsimp only; (split <;> simp)
@[simp] theorem trailStep_cs : (trailStep s).pin.cs = s.pin.cs := by unfold trailStep; dsimp only; (split <;> simp)
@[simp] theorem trailStep_mosi : (trailStep s).pin.mosi = s.pin.mosi := by unfold trailStep; dsimp only; (split <;> simp)
@[simp] theorem trailStep_sclk : (trailStep s).pin.sclk = .out s.params.cpol := by unfold trailStep; dsimp only; (split <;> simp)

/-- With `P_CPHA = 1` the trailing edge samples MISO, and the sample is placed (43_serializer R142, R143). -/
theorem trailStep_sample {v : Bool} {rest : List Bool} (hc : s.params.cpha = true) (h : s.env.miso = v :: rest) :
    (trailStep s).engine.shiftIn = placeBit s.params.bitOrder s.engine.shiftIn s.engine.bitIdx v
      ∧ (trailStep s).env.miso = rest ∧ (trailStep s).env.draws = s.env.draws := by
  obtain ⟨h1, h2, h3⟩ := sampleMiso_scripted (s.driveSclk s.params.cpol) (v := v) (rest := rest) (by simpa using h)
  simp [trailStep, hc, h1, h2, h3]

/-- With `P_CPHA = 0` the sample of the leading edge is placed. -/
theorem trailStep_noSample (hc : s.params.cpha = false) :
    (trailStep s).engine.shiftIn = placeBit s.params.bitOrder s.engine.shiftIn s.engine.bitIdx s.engine.sampled
      ∧ (trailStep s).env.miso = s.env.miso ∧ (trailStep s).env.draws = s.env.draws := by
  simp [trailStep, hc]
end trailStep

end Sys2Proof.Machine
end

