-- ==== Sys2Proof/Laws/Exchange.lean ====
section
/-! SUPPORT. A scripted exchange, tick by tick: where it stands after `k` ticks that came with no abort. -/

namespace Sys2Proof.Machine

/-! ### Counting engine steps -/

/-- `n` engine steps lead from `s` to `t`, and the run goes on from there. -/
def Steps (s t : State) (n : Nat) : Prop := ∀ f, runEngine (n + f) s = runEngine f t

theorem Steps.zero (s : State) : Steps s s 0 := fun f => by rw [Nat.zero_add]

theorem Steps.one {s t : State} (h : engineStep s = .running t) : Steps s t 1 := by
  intro f
  rw [Nat.add_comm, runEngine, h]

theorem Steps.trans {s t u : State} {m n : Nat} (h : Steps s t m) (k : Steps t u n) : Steps s u (m + n) := by
  intro f
  rw [Nat.add_assoc, h, k]

/-! ### The scripts of the transport and of the agents' moves

No engine step reads the schedule, and one whose tick comes reads no more of the transport's script than that tick. -/

/-- The same state, with these coming draws of the transport and these coming moves. -/
def State.script (s : State) (draws : List TransportDraw) (moves : List Event) : State :=
  { s with env := { s.env with transport := draws, schedule := moves } }

section script
variable (s : State) (R : List TransportDraw) (Y : List Event)
theorem script_self : s.script s.env.transport s.env.schedule = s := rfl
@[simp] theorem script_script (R' : List TransportDraw) (Y' : List Event) :
    (s.script R' Y').script R Y = s.script R Y := rfl
@[simp] theorem script_transport : (s.script R Y).env.transport = R := rfl
@[simp] theorem script_schedule : (s.script R Y).env.schedule = Y := rfl
@[simp] theorem script_params : (s.script R Y).params = s.params := rfl
@[simp] theorem script_engine : (s.script R Y).engine = s.engine := rfl
theorem driveSclk_script (v : Bool) : (s.script R Y).driveSclk v = (s.driveSclk v).script R Y := by
  by_cases h : s.pin.sclk = .out v <;> simp [State.driveSclk, State.script, State.tracePin, h]
theorem driveMosi_script (v : Bool) : (s.script R Y).driveMosi v = (s.driveMosi v).script R Y := by
  by_cases h : s.pin.mosi = .out v <;> simp [State.driveMosi, State.script, State.tracePin, h]
theorem driveCs_script (v : Bool) : (s.script R Y).driveCs v = (s.driveCs v).script R Y := by
  by_cases h : s.pin.cs = .out v <;> simp [State.driveCs, State.script, State.tracePin, h]
theorem sampleMiso_script : sampleMiso (s.script R Y) = (sampleMiso s).script R Y := by
  cases h : s.env.miso <;> simp [sampleMiso, State.drawMiso, State.script, State.tracePin, h]
theorem loadByte_script : loadByte (s.script R Y) = (loadByte s).script R Y := by
  by_cases h : s.engine.bitIdx = 0 ∧ s.engine.half = .lead <;> simp only [loadByte, State.script, h] <;> rfl
theorem leadStep_script : leadStep (s.script R Y) = (leadStep s).script R Y := by
  cases hc : s.params.cpha <;>
    simp only [leadStep, script_params, script_engine, driveMosi_script, driveSclk_script, sampleMiso_script, hc] <;> rfl
theorem trailStep_script : trailStep (s.script R Y) = (trailStep s).script R Y := by
  cases hc : s.params.cpha <;>
    simp only [trailStep, script_params, driveSclk_script, driveSclk_params, sampleMiso_script, hc] <;> rfl
theorem byteDone_script : byteDone (s.script R Y) = (byteDone s).script R Y := by
  by_cases h : s.engine.bitIdx = 8
  · by_cases hw : s.engine.phase = .payload ∧ s.engine.dir = .read <;>
      simp [byteDone, State.script, State.trace, State.bufWrite, h, hw]
  · simp [byteDone, State.script, h]
theorem halfBitAct_script : halfBitAct (s.script R Y) = (halfBitAct s).script R Y := by
  cases hh : s.engine.half <;>
    simp only [halfBitAct, script_engine, hh, leadStep_script, trailStep_script, byteDone_script]
theorem selectStep_script : selectStep (s.script R Y) = (selectStep s).script R Y := by
  simp only [selectStep, script_params, driveSclk_script, driveCs_script]; rfl
end script

/-! ### A half-bit step whose tick comes -/

theorem engineStep_inByte {s : State} (h : s.inByte) : engineStep s = halfBit s := by
  rcases h with ⟨hp, hi⟩ | ⟨hp, hi⟩ <;> simp [engineStep, hp, hi]

/-- The state in which the actions of a half-bit step are taken when its tick comes. -/
def State.ticked (s : State) : State := (loadByte s).drawTransport.2.countTick

theorem halfBit_tick {s : State} {rest : List TransportDraw} (h : s.env.transport = .tick :: rest) :
    halfBit s = .running (halfBitAct s.ticked) := by
  have hl : (loadByte s).env.transport = .tick :: rest := by unfold loadByte; split <;> exact h
  simp [halfBit, State.ticked, State.drawTransport, hl]

/-- A tick that comes, whatever the transport and the agents do after it. -/
theorem engineStep_tick_script {s : State} {rest : List TransportDraw} (hin : s.inByte)
    (h : s.env.transport = .tick :: rest) (R : List TransportDraw) (Y : List Event) :
    engineStep (s.script (.tick :: R) Y) = .running ((halfBitAct s.ticked).script R Y) := by
  have ht : (s.script (.tick :: R) Y).ticked = s.ticked.script R Y := by
    have hl : (loadByte s).env.transport = .tick :: rest := by unfold loadByte; split <;> exact h
    simp [State.ticked, loadByte_script, State.drawTransport, hl]
    rfl
  rw [engineStep_inByte (s := s.script (.tick :: R) Y) hin, halfBit_tick (s := s.script (.tick :: R) Y) rfl, ht,
    halfBitAct_script]

theorem halfBit_abort {s : State} {rest : List TransportDraw} (h : s.env.transport = .abort :: rest) :
    halfBit s = .running (abortAt s.engine.bitIdx s.ticked) := by
  have hl : (loadByte s).env.transport = .abort :: rest := by unfold loadByte; split <;> exact h
  have hb : (loadByte s).engine.bitIdx = s.engine.bitIdx := by unfold loadByte; split <;> rfl
  simp [halfBit, State.ticked, State.drawTransport, hl, hb]

theorem halfBit_stall {s : State} {rest : List TransportDraw} (h : s.env.transport = .stall :: rest) :
    halfBit s = .waiting (loadByte s).drawTransport.2 := by
  have hl : (loadByte s).env.transport = .stall :: rest := by unfold loadByte; split <;> exact h
  simp [halfBit, State.drawTransport, hl]

section loadByte
variable (s : State)
@[simp] theorem loadByte_phase : (loadByte s).engine.phase = s.engine.phase := by unfold loadByte; split <;> rfl
@[simp] theorem loadByte_byteIdx : (loadByte s).engine.byteIdx = s.engine.byteIdx := by unfold loadByte; split <;> rfl
@[simp] theorem loadByte_bitIdx : (loadByte s).engine.bitIdx = s.engine.bitIdx := by unfold loadByte; split <;> rfl
@[simp] theorem loadByte_half : (loadByte s).engine.half = s.engine.half := by unfold loadByte; split <;> rfl
@[simp] theorem loadByte_err : (loadByte s).engine.err = s.engine.err := by unfold loadByte; split <;> rfl
@[simp] theorem loadByte_dir : (loadByte s).engine.dir = s.engine.dir := by unfold loadByte; split <;> rfl
@[simp] theorem loadByte_sampled : (loadByte s).engine.sampled = s.engine.sampled := by unfold loadByte; split <;> rfl
@[simp] theorem loadByte_obs : (loadByte s).obs = s.obs := by unfold loadByte; split <;> rfl
@[simp] theorem loadByte_env : (loadByte s).env = s.env := by unfold loadByte; split <;> rfl
@[simp] theorem loadByte_pin : (loadByte s).pin = s.pin := by unfold loadByte; split <;> rfl
@[simp] theorem loadByte_params : (loadByte s).params = s.params := by unfold loadByte; split <;> rfl
@[simp] theorem loadByte_xferBuf : (loadByte s).xferBuf = s.xferBuf := by unfold loadByte; split <;> rfl

theorem loadByte_first (hb : s.engine.bitIdx = 0) (hh : s.engine.half = .lead) :
    (loadByte s).engine.shiftOut = s.engine.out.getD s.outIdx 0x00 ∧ (loadByte s).engine.shiftIn = 0x00 := by
  simp [loadByte, hb, hh]

theorem loadByte_later (h : ¬ (s.engine.bitIdx = 0 ∧ s.engine.half = .lead)) : loadByte s = s := by
  simp only [loadByte, if_neg h]
end loadByte

/-- What of a state the transport's and the engine's ticks move: everything else of `ticked` is as before. -/
theorem ticked_env {s : State} {d : TransportDraw} {rest : List TransportDraw} (h : s.env.transport = d :: rest) :
    s.ticked.env = { s.env with transport := rest } := by
  simp [State.ticked, State.drawTransport, State.countTick, h]

@[simp] theorem ticked_engine (s : State) : s.ticked.engine = (loadByte s).engine := by simp [State.ticked]
@[simp] theorem ticked_pin (s : State) : s.ticked.pin = s.pin := by simp [State.ticked]
@[simp] theorem ticked_params (s : State) : s.ticked.params = s.params := by simp [State.ticked]
@[simp] theorem ticked_xferBuf (s : State) : s.ticked.xferBuf = s.xferBuf := by simp [State.ticked]
@[simp] theorem ticked_bus (s : State) : s.ticked.obs.bus = s.obs.bus := by simp [State.ticked]
@[simp] theorem ticked_ticks (s : State) : s.ticked.obs.ticks = s.obs.ticks + 1 := by simp [State.ticked]

theorem frame_ticked (s : State) : EngineFrame s s.ticked :=
  ((frame_loadByte s).trans (frame_drawTransport _)).trans (frame_countTick _)

/-! ### Where a scripted exchange stands -/

/-- Where the exchange begun in `s` stands after `k` half-bit steps, whatever the peripheral answered. -/
structure Midway (s : State) (k : Nat) (t : State) : Prop where
  frame     : EngineFrame s t
  place     : (t.engine.phase = .cmd ∧ t.engine.byteIdx = k / 16 ∧ k ≤ 16 * s.snap.len.toNat)
                ∨ (t.engine.phase = .payload ∧ s.snap.len.toNat + t.engine.byteIdx = k / 16)
  bitIdx    : t.engine.bitIdx = k % 16 / 2
  half      : t.engine.half = if k % 2 = 0 then .lead else .trail
  err       : t.engine.err = false
  ticks     : t.obs.ticks = s.obs.ticks + k
  transport : t.env.transport = s.env.transport.drop k
  endAborts : t.env.endAborts = s.env.endAborts
  cs        : t.pin.cs = .out s.params.csActive
  sclk      : t.pin.sclk = .out (if k % 2 = 0 then s.params.cpol else !s.params.cpol)
  shiftOut  : k % 16 ≠ 0 → t.engine.shiftOut = s.engine.out.getD (k / 16) 0x00
  bus       : ∃ ins : List Byte, ins.length = k / 16 ∧ t.obs.bus = s.obs.bus ++
                .select :: List.zipWith BusEvent.byte (s.engine.out.take (k / 16)) ins
  mosi      : t.pin.mosi = s.mosiMidway s.engine.out k
  scripted  : ∀ R Y, Steps (s.script (s.env.transport.take k ++ R) Y) (t.script R Y)
                (1 + k + if t.engine.phase = .payload then 1 else 0)

theorem Midway.steps {s t : State} {k : Nat} (m : Midway s k t) :
    Steps s t (1 + k + if t.engine.phase = .payload then 1 else 0) := by
  have := m.scripted t.env.transport t.env.schedule
  rw [script_self, m.transport, List.take_append_drop, m.frame.schedule, script_self] at this
  exact this

/-- The number of MISO samples in `k` half-bit steps (43_serializer R142, R143). -/
def samplesIn (cpha : Bool) (k : Nat) : Nat := if cpha then k / 2 else (k + 1) / 2

/-- The same with the answers of the peripheral: it answers the bytes `ins`. -/
structure Answered (s : State) (ins : List Byte) (k : Nat) (t : State) : Prop where
  bus     : t.obs.bus = s.obs.bus ++
              .select :: List.zipWith BusEvent.byte (s.engine.out.take (k / 16)) (ins.take (k / 16))
  miso    : t.env.miso = s.env.miso.drop (samplesIn s.params.cpha k)
  draws   : t.env.draws = s.env.draws
  shiftIn : k % 16 ≠ 0 →
              t.engine.shiftIn = partialByte s.params.bitOrder (ins.getD (k / 16) 0x00) (k % 16 / 2)
  sampled : k % 2 = 1 → s.params.cpha = false →
              t.engine.sampled = wireBit s.params.bitOrder (ins.getD (k / 16) 0x00) (k % 16 / 2)
  xferBuf : XferBuf.wf s.xferBuf → ∀ j, XferBuf.read t.xferBuf j =
              if s.engine.dir = .read ∧ s.snap.len.toNat + j < k / 16 then ins.getD (s.snap.len.toNat + j) 0x00
              else XferBuf.read s.xferBuf j
  kept    : s.engine.dir = .write → t.xferBuf = s.xferBuf
  wf      : XferBuf.wf s.xferBuf → XferBuf.wf t.xferBuf

/-- The exchange is begun: SELECT comes next, SCLK-independent, with no bit shifted. -/
structure Begun (s : State) : Prop where
  phase  : s.engine.phase = .select
  bitIdx : s.engine.bitIdx = 0
  half   : s.engine.half = .lead
  err    : s.engine.err = false
  outLen : s.engine.out.length = s.snap.len.toNat + s.snap.plen.toNat

theorem midway_zero {s : State} (h : Begun s) : Midway s 0 (selectStep s) where
  frame := frame_selectStep s
  place := .inl ⟨rfl, rfl, Nat.zero_le _⟩
  bitIdx := by simp [selectStep, h.bitIdx]
  half := by simp [selectStep, h.half]
  err := by simp [selectStep, h.err]
  ticks := by simp [selectStep]
  transport := by simp [selectStep]
  endAborts := by simp [selectStep]
  cs := by simp [selectStep]
  sclk := by simp [selectStep]
  shiftOut := by simp
  bus := ⟨[], rfl, by simp [selectStep]⟩
  mosi := by simp [selectStep, State.mosiMidway]
  scripted := by
    intro R Y
    have hp : (s.script R Y).engine.phase = .select := h.phase
    have : engineStep (s.script R Y) = .running ((selectStep s).script R Y) := by
      rw [← selectStep_script]; simp only [engineStep, hp]
    simpa [selectStep] using Steps.one this

theorem answered_zero (s : State) (ins : List Byte) : Answered s ins 0 (selectStep s) where
  bus := by simp [selectStep]
  miso := by simp [selectStep, samplesIn]
  draws := by simp [selectStep]
  shiftIn := by simp
  sampled := by simp
  xferBuf := by intro _ j; simp [selectStep]
  kept := by simp [selectStep]
  wf := by simp [selectStep]

/-- The payload phase is entered when the command phase has no byte left. -/
theorem midway_enter {s t : State} {k : Nat} (m : Midway s k t) (hp : t.engine.phase = .cmd)
    (hk : k = 16 * s.snap.len.toNat) : Midway s k (enterPayload t) where
  frame := m.frame.trans (frame_enterPayload t)
  place := .inr ⟨rfl, by simp [enterPayload, hk]⟩
  bitIdx := m.bitIdx
  half := m.half
  err := m.err
  ticks := m.ticks
  transport := m.transport
  endAborts := m.endAborts
  cs := m.cs
  sclk := m.sclk
  shiftOut := m.shiftOut
  bus := m.bus
  mosi := m.mosi
  scripted := by
    intro R Y
    have hi : t.engine.byteIdx = k / 16 := by
      rcases m.place with ⟨_, h, _⟩ | ⟨h, _⟩
      · exact h
      · rw [hp] at h; cases h
    have hs : engineStep (t.script R Y) = .running ((enterPayload t).script R Y) := by
      have hl : ¬ t.engine.byteIdx < t.snap.len.toNat := by rw [m.frame.snap, hi, hk]; omega
      simp [engineStep, enterPayload, State.script, hp, hl]
    have := (m.scripted R Y).trans (Steps.one hs)
    simpa [enterPayload, hp] using this

theorem answered_enter {s t : State} {ins : List Byte} {k : Nat} (a : Answered s ins k t) :
    Answered s ins k (enterPayload t) := ⟨a.bus, a.miso, a.draws, a.shiftIn, a.sampled, a.xferBuf, a.kept, a.wf⟩

/-- Short of the last byte, the exchange stands inside a byte, after at most one change of phase. -/
theorem midway_inByte {s t : State} {k : Nat} (m : Midway s k t)
    (hk : k < 16 * (s.snap.len.toNat + s.snap.plen.toNat)) :
    ∃ u, Midway s k u ∧ u.inByte ∧ ∀ ins, Answered s ins k t → Answered s ins k u := by
  by_cases hp : t.engine.phase = .cmd
  · have hi : t.engine.byteIdx = k / 16 ∧ k ≤ 16 * s.snap.len.toNat := by
      rcases m.place with ⟨_, h, h'⟩ | ⟨h, _⟩
      · exact ⟨h, h'⟩
      · rw [hp] at h; cases h
    by_cases he : k = 16 * s.snap.len.toNat
    · refine ⟨enterPayload t, midway_enter m hp he, .inr ⟨rfl, ?_⟩, fun ins a => answered_enter a⟩
      simp only [enterPayload]
      rw [m.frame.snap]; omega
    · exact ⟨t, m, .inl ⟨hp, by rw [m.frame.snap, hi.1]; omega⟩, fun _ a => a⟩
  · have hi : t.engine.phase = .payload ∧ s.snap.len.toNat + t.engine.byteIdx = k / 16 := by
      rcases m.place with ⟨h, _⟩ | h
      · exact absurd h hp
      · exact h
    exact ⟨t, m, .inr ⟨hi.1, by rw [m.frame.snap]; omega⟩, fun _ a => a⟩

theorem midway_outIdx {s t : State} {k : Nat} (m : Midway s k t) : t.outIdx = k / 16 := by
  rcases m.place with ⟨hp, hi, _⟩ | ⟨hp, hi⟩
  · simp [State.outIdx, hp, hi]
  · simp [State.outIdx, hp, m.frame.snap, hi]

/-- The byte being shifted out, after the load that the first half-bit step of a byte makes. -/
theorem midway_shiftOut {s t : State} {k : Nat} (m : Midway s k t) :
    (loadByte t).engine.shiftOut = s.engine.out.getD (k / 16) 0x00 := by
  by_cases h0 : k % 16 = 0
  · have hb : t.engine.bitIdx = 0 := by rw [m.bitIdx, h0]
    have hh : t.engine.half = .lead := by rw [m.half, if_pos (by omega)]
    rw [(loadByte_first t hb hh).1, m.frame.out, midway_outIdx m]
  · rw [loadByte_later, m.shiftOut h0]
    rintro ⟨hb, hh⟩
    rw [m.bitIdx] at hb
    rw [m.half] at hh
    split at hh
    · omega
    · cases hh

theorem answered_shiftIn {s t : State} {ins : List Byte} {k : Nat} (m : Midway s k t) (a : Answered s ins k t) :
    (loadByte t).engine.shiftIn = partialByte s.params.bitOrder (ins.getD (k / 16) 0x00) (k % 16 / 2) := by
  by_cases h0 : k % 16 = 0
  · have hb : t.engine.bitIdx = 0 := by rw [m.bitIdx, h0]
    have hh : t.engine.half = .lead := by rw [m.half, if_pos (by omega)]
    rw [(loadByte_first t hb hh).2, h0]; rfl
  · rw [loadByte_later, a.shiftIn h0]
    rintro ⟨hb, hh⟩
    rw [m.bitIdx] at hb
    rw [m.half] at hh
    split at hh
    · omega
    · cases hh

theorem byteDone_not {s : State} (h : s.engine.bitIdx ≠ 8) : byteDone s = s := by simp [byteDone, h]

section byteDone
variable {s : State} (h : s.engine.bitIdx = 8)
include h
theorem byteDone_byteIdx : (byteDone s).engine.byteIdx = s.engine.byteIdx + 1 := by
  simp only [byteDone, h, if_true]; split <;> simp
theorem byteDone_bitIdx : (byteDone s).engine.bitIdx = 0 := by simp [byteDone, h]
theorem byteDone_bus : (byteDone s).obs.bus = s.obs.bus ++ [.byte s.engine.shiftOut s.engine.shiftIn] := by
  simp only [byteDone, h, if_true]; split <;> simp
theorem byteDone_xferBuf : (byteDone s).xferBuf = if s.engine.phase = .payload ∧ s.engine.dir = .read
    then XferBuf.write s.xferBuf s.engine.byteIdx s.engine.shiftIn else s.xferBuf := by
  simp only [byteDone, h, if_true]; split <;> split <;> simp_all
end byteDone

section byteDoneSame
variable (s : State)
@[simp] theorem byteDone_phase : (byteDone s).engine.phase = s.engine.phase := by
  unfold byteDone; split
  · dsimp only; split <;> rfl
  · rfl
@[simp] theorem byteDone_half : (byteDone s).engine.half = s.engine.half := by
  unfold byteDone; split
  · dsimp only; split <;> rfl
  · rfl
@[simp] theorem byteDone_err : (byteDone s).engine.err = s.engine.err := by
  unfold byteDone; split
  · dsimp only; split <;> rfl
  · rfl
@[simp] theorem byteDone_shiftOut : (byteDone s).engine.shiftOut = s.engine.shiftOut := by
  unfold byteDone; split
  · dsimp only; split <;> rfl
  · rfl
@[simp] theorem byteDone_ticks : (byteDone s).obs.ticks = s.obs.ticks := by
  unfold byteDone; split
  · dsimp only; split <;> rfl
  · rfl
@[simp] theorem byteDone_env : (byteDone s).env = s.env := by
  unfold byteDone; split
  · dsimp only; split <;> rfl
  · rfl
@[simp] theorem byteDone_pin : (byteDone s).pin = s.pin := by
  unfold byteDone; split
  · dsimp only; split <;> rfl
  · rfl
@[simp] theorem byteDone_pins : (byteDone s).obs.pins = s.obs.pins := by
  unfold byteDone; split
  · dsimp only; split <;> rfl
  · rfl
end byteDoneSame

theorem take_succ_of_drop {α : Type} {l rest R : List α} {a : α} {k : Nat} (h : l.drop k = a :: rest) :
    l.take (k + 1) ++ R = l.take k ++ a :: R := by
  have hk : k < l.length := by
    by_contra hk
    rw [List.drop_eq_nil_of_le (by omega)] at h
    cases h
  rw [List.drop_eq_getElem_cons hk] at h
  cases h
  rw [List.take_succ_eq_append_getElem hk, List.append_assoc]
  rfl

/-- A tick that comes after an even number of half-bit steps: the leading edge. -/
theorem midway_lead {s t : State} {k : Nat} {rest : List TransportDraw} (m : Midway s k t) (hin : t.inByte)
    (hk : k % 2 = 0) (ht : t.env.transport = .tick :: rest) : Midway s (k + 1) (leadStep t.ticked) := by
  have hd : (k + 1) / 16 = k / 16 := by omega
  have hh : t.engine.half = .lead := by rw [m.half, if_pos hk]
  have hact : halfBitAct t.ticked = leadStep t.ticked := by simp [halfBitAct, hh]
  constructor
  · exact m.frame.trans ((frame_ticked t).trans (frame_leadStep _))
  · rw [hd]
    rcases m.place with ⟨hp, hi, hl⟩ | ⟨hp, hi⟩
    · refine .inl ⟨by simpa using hp, by simpa using hi, ?_⟩
      rcases hin with ⟨_, hlt⟩ | ⟨hp', _⟩
      · rw [m.frame.snap] at hlt; omega
      · rw [hp] at hp'; cases hp'
    · exact .inr ⟨by simpa using hp, by simpa using hi⟩
  · rw [leadStep_bitIdx, ticked_engine, loadByte_bitIdx, m.bitIdx]; omega
  · rw [leadStep_half, if_neg (by omega)]
  · simpa using m.err
  · rw [leadStep_ticks, ticked_ticks, m.ticks]; omega
  · rw [leadStep_transport, ticked_env ht]
    have := m.transport
    rw [ht] at this
    rw [← List.drop_drop, ← this]; rfl
  · rw [leadStep_endAborts, ticked_env ht]; exact m.endAborts
  · simpa using m.cs
  · rw [leadStep_sclk, if_neg (by omega), ticked_params, m.frame.params]
  · intro _; rw [hd, leadStep_shiftOut, ticked_engine]; exact midway_shiftOut m
  · rw [hd, leadStep_bus, ticked_bus]; exact m.bus
  · have hk0 : ¬ k + 1 = 0 := by omega
    rw [leadStep_mosi, ticked_engine, midway_shiftOut m, loadByte_bitIdx, m.bitIdx, ticked_params, m.frame.params]
    simp only [State.mosiMidway, hk0, if_false, Nat.add_sub_cancel]
  · intro R Y
    have h1 := engineStep_tick_script hin ht R Y
    rw [hact] at h1
    have := (m.scripted (.tick :: R) Y).trans (Steps.one h1)
    have e : (leadStep t.ticked).engine.phase = t.engine.phase := by simp
    rw [e, take_succ_of_drop (m.transport.symm.trans ht)]
    convert this using 1; omega

/-- A tick that comes after an odd number of half-bit steps: the trailing edge, and with the eighth bit the byte. -/
theorem midway_trail {s t : State} {k : Nat} {rest : List TransportDraw} (hb : Begun s) (m : Midway s k t)
    (hin : t.inByte) (hk : k % 2 = 1) (ht : t.env.transport = .tick :: rest) :
    Midway s (k + 1) (byteDone (trailStep t.ticked)) := by
  have hh : t.engine.half = .trail := by rw [m.half, if_neg (by omega)]
  have hact : halfBitAct t.ticked = byteDone (trailStep t.ticked) := by simp [halfBitAct, hh]
  have hbit : (trailStep t.ticked).engine.bitIdx = k % 16 / 2 + 1 := by simp [m.bitIdx]
  have hlast : (trailStep t.ticked).engine.bitIdx = 8 ↔ k % 16 = 15 := by rw [hbit]; omega
  have hout : (trailStep t.ticked).engine.shiftOut = s.engine.out.getD (k / 16) 0x00 := by
    rw [trailStep_shiftOut, ticked_engine]; exact midway_shiftOut m
  have hphase : (byteDone (trailStep t.ticked)).engine.phase = t.engine.phase := by simp
  constructor
  · exact m.frame.trans ((frame_ticked t).trans ((frame_trailStep _).trans (frame_byteDone _)))
  · have hidx : (byteDone (trailStep t.ticked)).engine.byteIdx
        = t.engine.byteIdx + (k + 1) / 16 - k / 16 := by
      by_cases h8 : k % 16 = 15
      · rw [byteDone_byteIdx (hlast.2 h8)]; simp; omega
      · rw [byteDone_not (mt hlast.1 h8)]; simp; omega
    rw [hphase, hidx]
    rcases m.place with ⟨hp, hi, hl⟩ | ⟨hp, hi⟩
    · refine .inl ⟨hp, by omega, ?_⟩
      rcases hin with ⟨_, hlt⟩ | ⟨hp', _⟩
      · rw [m.frame.snap] at hlt; omega
      · rw [hp] at hp'; cases hp'
    · exact .inr ⟨hp, by omega⟩
  · by_cases h8 : k % 16 = 15
    · rw [byteDone_bitIdx (hlast.2 h8)]; omega
    · rw [byteDone_not (mt hlast.1 h8), hbit]; omega
  · rw [byteDone_half, trailStep_half, if_pos (by omega)]
  · simpa using m.err
  · rw [byteDone_ticks, trailStep_ticks, ticked_ticks, m.ticks]; omega
  · rw [byteDone_env, trailStep_transport, ticked_env ht]
    have := m.transport
    rw [ht] at this
    rw [← List.drop_drop, ← this]; rfl
  · rw [byteDone_env, trailStep_endAborts, ticked_env ht]; exact m.endAborts
  · simpa using m.cs
  · rw [byteDone_pin, trailStep_sclk, if_pos (by omega), ticked_params, m.frame.params]
  · intro h16
    have hd : (k + 1) / 16 = k / 16 := by omega
    rw [hd, byteDone_shiftOut, hout]
  · obtain ⟨ins, hl, hbus⟩ := m.bus
    by_cases h8 : k % 16 = 15
    · have hd : (k + 1) / 16 = k / 16 + 1 := by omega
      refine ⟨ins ++ [(trailStep t.ticked).engine.shiftIn], by simp [hl, hd], ?_⟩
      have hlt : k / 16 < s.engine.out.length := by
        rw [hb.outLen]
        rcases hin with ⟨hp, hlt⟩ | ⟨hp, hlt⟩ <;> rw [m.frame.snap] at hlt
        · rcases m.place with ⟨_, hi, _⟩ | ⟨hp', _⟩
          · omega
          · rw [hp] at hp'; cases hp'
        · rcases m.place with ⟨hp', _, _⟩ | ⟨_, hi⟩
          · rw [hp] at hp'; cases hp'
          · omega
      rw [byteDone_bus (hlast.2 h8), hout, trailStep_bus, ticked_bus, hbus, hd,
        List.take_succ_eq_append_getElem hlt, List.zipWith_append (by simp [hl]; omega)]
      simp [hlt]
    · have hd : (k + 1) / 16 = k / 16 := by omega
      exact ⟨ins, by rw [hd]; exact hl, by rw [byteDone_not (mt hlast.1 h8), trailStep_bus, ticked_bus, hbus, hd]⟩
  · have h0 : ¬ k + 1 = 0 := by omega
    have h0' : ¬ k = 0 := by omega
    have hq : (k + 1 - 1) / 16 = (k - 1) / 16 := by omega
    have hr : (k + 1 - 1) % 16 / 2 = (k - 1) % 16 / 2 := by omega
    rw [byteDone_pin, trailStep_mosi, ticked_pin, m.mosi]
    simp only [State.mosiMidway, h0, h0', if_false, hq, hr]
  · intro R Y
    have h1 := engineStep_tick_script hin ht R Y
    rw [hact] at h1
    have := (m.scripted (.tick :: R) Y).trans (Steps.one h1)
    rw [hphase, take_succ_of_drop (m.transport.symm.trans ht)]
    convert this using 1; omega

/-! ### The peripheral's answers -/

/-- The level a peripheral that answers `bs` drives at sample point `m`. -/
theorem answerLevels_get (o : BitOrder) (bs : List Byte) (m : Nat) (h : m < 8 * bs.length) :
    (answerLevels o bs)[m]? = some (wireBit o (bs.getD (m / 8) 0x00) (m % 8)) := by
  induction bs generalizing m with
  | nil => simp at h
  | cons b bs ih =>
    have hlen : ((List.range 8).map (wireBit o b)).length = 8 := by simp
    simp only [answerLevels, List.flatMap_cons]
    by_cases hm : m < 8
    · rw [List.getElem?_append_left (by omega), List.getElem?_map, List.getElem?_range hm]
      simp [Nat.div_eq_of_lt hm, Nat.mod_eq_of_lt hm]
    · rw [List.getElem?_append_right (by omega), hlen]
      have hq : m / 8 = (m - 8) / 8 + 1 := by omega
      have hr : m % 8 = (m - 8) % 8 := by omega
      rw [hq, hr, List.getD_cons_succ]
      exact ih (m - 8) (by simp only [List.length_cons] at h; omega)

/-- A peripheral gives eight levels for each byte. -/
theorem answerLevels_length (o : BitOrder) (bs : List Byte) : (answerLevels o bs).length = 8 * bs.length := by
  induction bs with
  | nil => rfl
  | cons b bs ih =>
    have : answerLevels o (b :: bs) = (List.range 8).map (wireBit o b) ++ answerLevels o bs := rfl
    rw [this, List.length_append, ih]
    simp only [List.length_map, List.length_range, List.length_cons]
    omega

/-- The levels of one answer, then those of the next. -/
theorem answerLevels_append (o : BitOrder) (as bs : List Byte) :
    answerLevels o (as ++ bs) = answerLevels o as ++ answerLevels o bs := by simp [answerLevels]

/-- The script of a peripheral that answers `bs`, from sample point `m` on. -/
theorem answerLevels_drop {o : BitOrder} {bs : List Byte} {miso : List Bool} {m : Nat}
    (hp : answerLevels o bs <+: miso) (h : m < 8 * bs.length) :
    ∃ rest, miso.drop m = wireBit o (bs.getD (m / 8) 0x00) (m % 8) :: rest ∧ rest = miso.drop (m + 1) := by
  obtain ⟨tl, rfl⟩ := hp
  have hg := answerLevels_get o bs m h
  obtain ⟨hlt, hge⟩ := List.getElem?_eq_some_iff.1 hg
  have hlt' : m < (answerLevels o bs ++ tl).length := by simp; omega
  refine ⟨_, ?_, rfl⟩
  rw [List.drop_eq_getElem_cons hlt', List.getElem_append_left hlt, hge]

theorem answered_lead {s t : State} {ins : List Byte} {k : Nat} {rest : List TransportDraw} (m : Midway s k t)
    (a : Answered s ins k t) (hp : answerLevels s.params.bitOrder ins <+: s.env.miso) (hlt : k < 16 * ins.length)
    (hk : k % 2 = 0) (ht : t.env.transport = .tick :: rest) : Answered s ins (k + 1) (leadStep t.ticked) := by
  have hd : (k + 1) / 16 = k / 16 := by omega
  have hm : (k + 1) % 16 / 2 = k % 16 / 2 := by omega
  have hparams : t.ticked.params = s.params := by rw [ticked_params, m.frame.params]
  obtain ⟨tl, hmiso, htl⟩ := answerLevels_drop (m := k / 2) hp (by omega)
  have hq : k / 2 / 8 = k / 16 := by omega
  have hr : k / 2 % 8 = k % 16 / 2 := by omega
  rw [hq, hr] at hmiso
  have hshift : (leadStep t.ticked).engine.shiftIn
      = partialByte s.params.bitOrder (ins.getD (k / 16) 0x00) (k % 16 / 2) := by
    rw [leadStep_shiftIn, ticked_engine]; exact answered_shiftIn m a
  by_cases hc : s.params.cpha = true
  · obtain ⟨h1, h2, h3⟩ := leadStep_noSample t.ticked (by rw [hparams]; exact hc)
    constructor
    · rw [hd, leadStep_bus, ticked_bus]; exact a.bus
    · rw [h2, ticked_env ht]
      simp only [a.miso, samplesIn, hc, if_true]
      congr 1; omega
    · rw [h3, ticked_env ht]; exact a.draws
    · intro _; rw [hshift, hd, hm]
    · intro _ hc'; rw [hc] at hc'; cases hc'
    · intro hw j; rw [hd, leadStep_xferBuf, ticked_xferBuf]; exact a.xferBuf hw j
    · simpa using a.kept
    · simpa using a.wf
  · have hc : s.params.cpha = false := by simpa using hc
    have hmt : t.ticked.env.miso = wireBit s.params.bitOrder (ins.getD (k / 16) 0x00) (k % 16 / 2) :: tl := by
      rw [ticked_env ht]
      simp only [a.miso, samplesIn, hc]
      rw [← hmiso]
      simp only [Bool.false_eq_true, if_false]
      congr 1; omega
    obtain ⟨h1, h2, h3⟩ := leadStep_sample t.ticked (by rw [hparams]; exact hc) hmt
    constructor
    · rw [hd, leadStep_bus, ticked_bus]; exact a.bus
    · rw [h2, htl]
      simp only [samplesIn, hc, Bool.false_eq_true, if_false]
      congr 1; omega
    · rw [h3, ticked_env ht]; exact a.draws
    · intro _; rw [hshift, hd, hm]
    · intro _ _; rw [h1, hd, hm]
    · intro hw j; rw [hd, leadStep_xferBuf, ticked_xferBuf]; exact a.xferBuf hw j
    · simpa using a.kept
    · simpa using a.wf

theorem answered_trail {s t : State} {ins : List Byte} {k : Nat} {rest : List TransportDraw} (hb : Begun s)
    (m : Midway s k t) (hin : t.inByte) (a : Answered s ins k t)
    (hp : answerLevels s.params.bitOrder ins <+: s.env.miso)
    (hlt : k < 16 * ins.length) (hk : k % 2 = 1) (ht : t.env.transport = .tick :: rest) :
    Answered s ins (k + 1) (byteDone (trailStep t.ticked)) := by
  have hparams : t.ticked.params = s.params := by rw [ticked_params, m.frame.params]
  have hbit : (trailStep t.ticked).engine.bitIdx = k % 16 / 2 + 1 := by simp [m.bitIdx]
  have hlast : (trailStep t.ticked).engine.bitIdx = 8 ↔ k % 16 = 15 := by rw [hbit]; omega
  have hout : (trailStep t.ticked).engine.shiftOut = s.engine.out.getD (k / 16) 0x00 := by
    rw [trailStep_shiftOut, ticked_engine]; exact midway_shiftOut m
  -- what the sample placed by this step is, and what is left of the peripheral's script
  have key : (trailStep t.ticked).engine.shiftIn
        = partialByte s.params.bitOrder (ins.getD (k / 16) 0x00) (k % 16 / 2 + 1)
      ∧ (trailStep t.ticked).env.miso = s.env.miso.drop (samplesIn s.params.cpha (k + 1))
      ∧ (trailStep t.ticked).env.draws = s.env.draws := by
    have hsh : t.ticked.engine.shiftIn = partialByte s.params.bitOrder (ins.getD (k / 16) 0x00) (k % 16 / 2) := by
      rw [ticked_engine]; exact answered_shiftIn m a
    have hbi : t.ticked.engine.bitIdx = k % 16 / 2 := by rw [ticked_engine, loadByte_bitIdx, m.bitIdx]
    by_cases hc : s.params.cpha = true
    · obtain ⟨tl, hmiso, htl⟩ := answerLevels_drop (m := k / 2) hp (by omega)
      have hq : k / 2 / 8 = k / 16 := by omega
      have hr : k / 2 % 8 = k % 16 / 2 := by omega
      rw [hq, hr] at hmiso
      have hmt : t.ticked.env.miso = wireBit s.params.bitOrder (ins.getD (k / 16) 0x00) (k % 16 / 2) :: tl := by
        rw [ticked_env ht]
        simp only [a.miso, samplesIn, hc, if_true]
        exact hmiso
      obtain ⟨h1, h2, h3⟩ := trailStep_sample t.ticked (by rw [hparams]; exact hc) hmt
      refine ⟨?_, ?_, ?_⟩
      · rw [h1, hsh, hbi, hparams, partialByte_succ]
      · rw [h2, htl]
        simp only [samplesIn, hc, if_true]
        congr 1; omega
      · rw [h3, ticked_env ht]; exact a.draws
    · have hc : s.params.cpha = false := by simpa using hc
      obtain ⟨h1, h2, h3⟩ := trailStep_noSample t.ticked (by rw [hparams]; exact hc)
      refine ⟨?_, ?_, ?_⟩
      · rw [h1, hsh, hbi, hparams, partialByte_succ, ticked_engine, loadByte_sampled, a.sampled hk hc]
      · rw [h2, ticked_env ht]
        simp only [a.miso, samplesIn, hc, Bool.false_eq_true, if_false]
        congr 1; omega
      · rw [h3, ticked_env ht]; exact a.draws
  obtain ⟨hshift, hmiso, hdraws⟩ := key
  have hphase : (trailStep t.ticked).engine.phase = t.engine.phase := by simp
  have hdir : (trailStep t.ticked).engine.dir = s.engine.dir := by simp [m.frame.dir]
  have hidx : (trailStep t.ticked).engine.byteIdx = t.engine.byteIdx := by simp
  by_cases h8 : k % 16 = 15
  · have hd : (k + 1) / 16 = k / 16 + 1 := by omega
    have hbyte : (trailStep t.ticked).engine.shiftIn = ins.getD (k / 16) 0x00 := by
      rw [hshift, h8]; exact partialByte_eight _ _
    have hlt' : k / 16 < ins.length := by omega
    have hoL : k / 16 < s.engine.out.length := by
      rw [hb.outLen]
      rcases hin with ⟨hp, hlt⟩ | ⟨hp, hlt⟩ <;> rw [m.frame.snap] at hlt
      · rcases m.place with ⟨_, hi, _⟩ | ⟨hp', _⟩
        · omega
        · rw [hp] at hp'; cases hp'
      · rcases m.place with ⟨hp', _, _⟩ | ⟨_, hi⟩
        · rw [hp] at hp'; cases hp'
        · omega
    constructor
    · rw [byteDone_bus (hlast.2 h8), hout, hbyte, trailStep_bus, ticked_bus, a.bus, hd,
        List.take_succ_eq_append_getElem hoL, List.take_succ_eq_append_getElem hlt',
        List.zipWith_append (by simp; omega)]
      simp [hoL, hlt']
    · rw [byteDone_env]; exact hmiso
    · rw [byteDone_env]; exact hdraws
    · intro h; omega
    · intro h; omega
    · intro hw j
      rw [byteDone_xferBuf (hlast.2 h8), hphase, hdir, hidx, hbyte, trailStep_xferBuf, ticked_xferBuf, hd]
      rcases m.place with ⟨hp, hi, hl⟩ | ⟨hp, hi⟩
      · have : ¬ s.snap.len.toNat + j < k / 16 + 1 := by
          rcases hin with ⟨_, hx⟩ | ⟨hp', _⟩
          · rw [m.frame.snap] at hx; omega
          · rw [hp] at hp'; cases hp'
        have h2 : ¬ s.snap.len.toNat + j < k / 16 := by omega
        simpa [hp, this, h2] using a.xferBuf hw j
      · by_cases hr : s.engine.dir = .read
        · simp only [hp, hr, true_and, if_true]
          rw [XferBuf.read_write _ _ _ _ (a.wf hw).1, a.xferBuf hw j]
          by_cases hj : j = t.engine.byteIdx
          · subst hj; rw [if_pos rfl, if_pos (by omega), hi]
          · rw [if_neg hj]
            have : (s.snap.len.toNat + j < k / 16 + 1) ↔ (s.snap.len.toNat + j < k / 16) := by omega
            simp only [this, hr, true_and]
        · simp only [hr, and_false, false_and, if_false]
          simpa [hr] using a.xferBuf hw j
    · intro hd'
      rw [byteDone_xferBuf (hlast.2 h8), hdir, hd', if_neg (by simp), trailStep_xferBuf, ticked_xferBuf, a.kept hd']
    · intro hw
      rw [byteDone_xferBuf (hlast.2 h8)]
      split
      · exact XferBuf.wf_write _ _ _ (by simpa using a.wf hw)
      · simpa using a.wf hw
  · have hd : (k + 1) / 16 = k / 16 := by omega
    have hm : (k + 1) % 16 / 2 = k % 16 / 2 + 1 := by omega
    rw [byteDone_not (mt hlast.1 h8)]
    constructor
    · rw [hd, trailStep_bus, ticked_bus]; exact a.bus
    · exact hmiso
    · exact hdraws
    · intro _; rw [hd, hm]; exact hshift
    · intro h; omega
    · intro hw j; rw [hd, trailStep_xferBuf, ticked_xferBuf]; exact a.xferBuf hw j
    · simpa using a.kept
    · simpa using a.wf

/-- One more tick: the exchange stands one half-bit step further. -/
theorem midway_succ {s t : State} {k : Nat} {rest : List TransportDraw} (hb : Begun s) (m : Midway s k t)
    (hk : k < 16 * (s.snap.len.toNat + s.snap.plen.toNat)) (ht : s.env.transport.drop k = .tick :: rest) :
    ∃ u, Midway s (k + 1) u ∧ ∀ ins, ins.length = s.snap.len.toNat + s.snap.plen.toNat →
      answerLevels s.params.bitOrder ins <+: s.env.miso → Answered s ins k t → Answered s ins (k + 1) u := by
  obtain ⟨v, mv, hin, hans⟩ := midway_inByte m hk
  have htv : v.env.transport = .tick :: rest := mv.transport.trans ht
  rcases Nat.mod_two_eq_zero_or_one k with h | h
  · exact ⟨_, midway_lead mv hin h htv, fun ins hl hp a =>
      answered_lead mv (hans ins a) hp (by rw [hl]; exact hk) h htv⟩
  · exact ⟨_, midway_trail hb mv hin h htv, fun ins hl hp a =>
      answered_trail hb mv hin (hans ins a) hp (by rw [hl]; exact hk) h htv⟩

theorem ticksCome_drop {s : State} {n k : Nat} (h : s.ticksCome n) (hk : k < n) :
    ∃ rest, s.env.transport.drop k = .tick :: rest := by
  obtain ⟨tl, e⟩ := h
  rw [← e]
  refine ⟨List.replicate (n - k - 1) .tick ++ tl, ?_⟩
  have : n = k + (1 + (n - k - 1)) := by omega
  rw [this, List.replicate_add, List.replicate_add]
  simp

/-- After `k` ticks with no abort the exchange stands `k` half-bit steps on. -/
theorem midway_reach {s : State} (hb : Begun s) : ∀ k, s.ticksCome k →
    k ≤ 16 * (s.snap.len.toNat + s.snap.plen.toNat) →
    ∃ t, Midway s k t ∧ ∀ ins, ins.length = s.snap.len.toNat + s.snap.plen.toNat →
      answerLevels s.params.bitOrder ins <+: s.env.miso → Answered s ins k t := by
  intro k
  induction k with
  | zero => intro _ _; exact ⟨_, midway_zero hb, fun ins _ _ => answered_zero s ins⟩
  | succ k ih =>
    intro ht hk
    have ht' : s.ticksCome k := by
      obtain ⟨tl, e⟩ := ht
      exact ⟨.tick :: tl, by rw [← e, List.replicate_succ']; simp⟩
    obtain ⟨t, m, ha⟩ := ih ht' (by omega)
    obtain ⟨rest, hrest⟩ := ticksCome_drop ht (Nat.lt_succ_self k)
    obtain ⟨u, mu, hu⟩ := midway_succ hb m (by omega) hrest
    exact ⟨u, mu, fun ins hl hp => hu ins hl hp (ha ins hl hp)⟩

/-! ### How a scripted exchange ends -/

/-- Every tick came: the exchange stands at the end of the payload phase, and the end draw decides. -/
theorem run_whole {s : State} (hb : Begun s) (ht : s.ticksCome (16 * (s.snap.len.toNat + s.snap.plen.toNat))) :
    ∃ u, Midway s (16 * (s.snap.len.toNat + s.snap.plen.toNat)) u ∧
      runExchange s = finishExchange (deselectStep (endStep u)) ∧
      ∀ ins, ins.length = s.snap.len.toNat + s.snap.plen.toNat →
        answerLevels s.params.bitOrder ins <+: s.env.miso →
        Answered s ins (16 * (s.snap.len.toNat + s.snap.plen.toNat)) u := by
  obtain ⟨t, m, ha⟩ := midway_reach hb _ ht (Nat.le_refl _)
  have hu : ∃ u, Midway s (16 * (s.snap.len.toNat + s.snap.plen.toNat)) u ∧ u.engine.phase = .payload ∧
      ∀ ins, Answered s ins (16 * (s.snap.len.toNat + s.snap.plen.toNat)) t →
        Answered s ins (16 * (s.snap.len.toNat + s.snap.plen.toNat)) u := by
    rcases m.place with ⟨hp, _, hl⟩ | ⟨hp, _⟩
    · exact ⟨_, midway_enter m hp (by omega), rfl, fun _ a => answered_enter a⟩
    · exact ⟨t, m, hp, fun _ a => a⟩
  obtain ⟨u, mu, hp, hau⟩ := hu
  refine ⟨u, mu, ?_, fun ins hl hm => hau ins (ha ins hl hm)⟩
  have hidx : u.engine.byteIdx = u.snap.plen.toNat := by
    rcases mu.place with ⟨hp', _⟩ | ⟨_, hi⟩
    · rw [hp] at hp'; cases hp'
    · rw [mu.frame.snap]; omega
  have h1 : engineStep u = .running (endStep u) := by simp [engineStep, hp, hidx]
  have h2 : (endStep u).engine.phase = .deselect := by unfold endStep; dsimp only; split <;> rfl
  have h3 : engineStep (endStep u) = .over (deselectStep (endStep u)) := by simp [engineStep, h2]
  have hfuel : exchangeFuel s = (1 + 16 * (s.snap.len.toNat + s.snap.plen.toNat) + 1) + 2 := by
    simp only [exchangeFuel]; omega
  have hs := mu.steps 2
  rw [if_pos hp] at hs
  rw [runExchange, hfuel, hs]
  simp only [runEngine, h1, h3]

/-- The transport aborts at the tick after `k` half-bit steps. -/
theorem run_abort {s : State} (hb : Begun s) {k : Nat} {rest : List TransportDraw} (ht : s.ticksCome k)
    (hk : k < 16 * (s.snap.len.toNat + s.snap.plen.toNat)) (ha : s.env.transport.drop k = .abort :: rest) :
    ∃ u, Midway s k u ∧
      runExchange s = finishExchange (deselectStep (abortAt (k % 16 / 2) u.ticked)) ∧
      ∀ ins, ins.length = s.snap.len.toNat + s.snap.plen.toNat →
        answerLevels s.params.bitOrder ins <+: s.env.miso → Answered s ins k u := by
  obtain ⟨t, m, hans⟩ := midway_reach hb k ht (by omega)
  obtain ⟨u, mu, hin, hau⟩ := midway_inByte m hk
  refine ⟨u, mu, ?_, fun ins hl hm => hau ins (hans ins hl hm)⟩
  have h1 : engineStep u = .running (abortAt (k % 16 / 2) u.ticked) := by
    rw [engineStep_inByte hin, halfBit_abort (mu.transport.trans ha), mu.bitIdx]
  have h3 : engineStep (abortAt (k % 16 / 2) u.ticked) = .over (deselectStep (abortAt (k % 16 / 2) u.ticked)) := rfl
  obtain ⟨f, hf⟩ : ∃ f, exchangeFuel s = (1 + k + if u.engine.phase = .payload then 1 else 0) + (f + 2) := by
    refine ⟨exchangeFuel s - (1 + k + if u.engine.phase = .payload then 1 else 0) - 2, ?_⟩
    simp only [exchangeFuel]
    split <;> omega
  rw [runExchange, hf, mu.steps]
  simp only [runEngine, h1, h3]

/-- The tick after `k` half-bit steps does not come: the exchange waits where it stands. -/
theorem run_stall {s : State} (hb : Begun s) {k : Nat} {rest : List TransportDraw} (ht : s.ticksCome k)
    (hk : k < 16 * (s.snap.len.toNat + s.snap.plen.toNat)) (ha : s.env.transport.drop k = .stall :: rest) :
    ∃ u, Midway s k u ∧ u.inByte ∧ runExchange s = (loadByte u).drawTransport.2 ∧
      ∀ ins, ins.length = s.snap.len.toNat + s.snap.plen.toNat →
        answerLevels s.params.bitOrder ins <+: s.env.miso → Answered s ins k u := by
  obtain ⟨t, m, hans⟩ := midway_reach hb k ht (by omega)
  obtain ⟨u, mu, hin, hau⟩ := midway_inByte m hk
  refine ⟨u, mu, hin, ?_, fun ins hl hm => hau ins (hans ins hl hm)⟩
  have h1 : engineStep u = .waiting (loadByte u).drawTransport.2 := by
    rw [engineStep_inByte hin, halfBit_stall (mu.transport.trans ha)]
  obtain ⟨f, hf⟩ : ∃ f, exchangeFuel s = (1 + k + if u.engine.phase = .payload then 1 else 0) + (f + 1) := by
    refine ⟨exchangeFuel s - (1 + k + if u.engine.phase = .payload then 1 else 0) - 1, ?_⟩
    simp only [exchangeFuel]
    split <;> omega
  rw [runExchange, hf, mu.steps]
  simp only [runEngine, h1]

/-- A data request that passed its checks has begun its exchange (42_transaction R120, R121). -/
theorem begun_beginExchange (d : Dir) (p : List Byte) (s : State) (hl : s.cmdLen.toNat ≤ cmdCap)
    (hp : p.length = s.payloadLen.toNat) : Begun (beginExchange d p s) :=
  ⟨rfl, rfl, rfl, rfl, by simp [beginExchange, command_length s hl, hp]⟩

end Sys2Proof.Machine
end

