-- ==== Sys2Proof/Laws/Requests.lean ====
section
/-! SUPPORT. What a half-bit step, a data request, a move of the sequencer and a text operation can come to, each said
once. -/

namespace Sys2Proof.Machine

/-! ### The engine -/

/-- What a half-bit step does to CS, to the place in the exchange and to the bus trace: it stays in its phase and may
complete one byte, or the transport aborts it. -/
theorem halfBit_parts (s : State) (hb : s.engine.bitIdx ≤ 7) (he : s.engine.err = false) :
    let t := (halfBit s).state
    t.pin.cs = s.pin.cs ∧ t.engine.bitIdx ≤ 7 ∧
    ((t.engine.phase = s.engine.phase ∧ t.engine.err = false ∧
        ((t.engine.byteIdx = s.engine.byteIdx ∧ t.obs.bus = s.obs.bus) ∨
          (t.engine.byteIdx = s.engine.byteIdx + 1 ∧ ∃ o i, t.obs.bus = s.obs.bus ++ [.byte o i]))) ∨
      (t.engine.phase = .deselect ∧ t.engine.err = true ∧ ∃ b, b ≤ 7 ∧ t.obs.bus = s.obs.bus ++ [.abort b])) := by
  unfold halfBit
  dsimp only
  split
  · simp [Progress.state, he, hb]
  · exact ⟨by simp [Progress.state, abortAt], by simpa [Progress.state, abortAt] using hb,
      .inr ⟨rfl, rfl, s.engine.bitIdx, hb, by simp [Progress.state, abortAt]⟩⟩
  · simp only [Progress.state, halfBitAct]
    split
    · simp [hb, he]
    · by_cases h8 : (trailStep (loadByte s).drawTransport.2.countTick).engine.bitIdx = 8
      · simp [byteDone_bitIdx h8, byteDone_byteIdx h8, byteDone_bus h8, he]
      · rw [byteDone_not h8]
        have : s.engine.bitIdx + 1 ≠ 8 := by simpa using h8
        simp only [trailStep_cs, trailStep_bitIdx, trailStep_phase, trailStep_err, trailStep_byteIdx, trailStep_bus]
        simp [he]; omega

/-- A half-bit step writes XFER_BUF at most once, at the current byte of the payload phase of a read. -/
theorem halfBit_xferBuf (s : State) : (halfBit s).state.xferBuf = s.xferBuf ∨
    ∃ v, s.engine.phase = .payload ∧ s.engine.dir = .read ∧
      (halfBit s).state.xferBuf = XferBuf.write s.xferBuf s.engine.byteIdx v := by
  unfold halfBit
  dsimp only
  split
  · left; simp [Progress.state]
  · left; simp [Progress.state, abortAt]
  · simp only [Progress.state, halfBitAct]
    split
    · left; simp
    · by_cases h8 : (trailStep (loadByte s).drawTransport.2.countTick).engine.bitIdx = 8
      · rw [byteDone_xferBuf h8]
        split
        · next h =>
          exact .inr ⟨(trailStep (loadByte s).drawTransport.2.countTick).engine.shiftIn, by simpa using h.1,
            by simpa using h.2, by simp⟩
        · left; simp
      · rw [byteDone_not h8]; left; simp

/-- One engine step writes XFER_BUF at most once, below `PAYLOAD_LEN`, and only for a read (42_transaction R121). -/
theorem engineStep_xferBuf (s : State) : (engineStep s).state.xferBuf = s.xferBuf ∨
    ∃ v, s.engine.phase = .payload ∧ s.engine.byteIdx < s.snap.plen.toNat ∧ s.engine.dir = .read ∧
      (engineStep s).state.xferBuf = XferBuf.write s.xferBuf s.engine.byteIdx v := by
  unfold engineStep
  split
  · left; rfl
  · left; simp [Progress.state, selectStep]
  · next hp =>
    split
    · rcases halfBit_xferBuf s with h | ⟨v, h, _⟩
      · exact .inl h
      · rw [hp] at h; cases h
    · left; rfl
  · next hp =>
    split
    · next hlt =>
      rcases halfBit_xferBuf s with h | ⟨v, h, h2, h3⟩
      · exact .inl h
      · exact .inr ⟨v, h, hlt, h2, h3⟩
    · left; simp only [Progress.state, endStep]; split <;> simp [abortAt]
  · left; simp [Progress.state, deselectStep]

/-- A data request that passes its checks either leaves the exchange in service, within the engine's frame, or went
through DESELECT and was answered: OK, or IO_ERROR with no result. -/
theorem runExchange_spec (d : Dir) (p : List Byte) (s : State) :
    EngineFrame (beginExchange d p s) (runExchange (beginExchange d p s)) ∨
      ∃ u st r, EngineFrame (beginExchange d p s) u ∧ u.engine.phase = .deselect ∧
        runExchange (beginExchange d p s) = respond st r (deselectStep u).clearErr ∧
        (st = .ok ∨ st = .ioError) ∧ (st ≠ .ok → r = []) := by
  rcases runEngine_spec (exchangeFuel (beginExchange d p s)) (beginExchange d p s) with h | ⟨u, h, hp, he⟩
  · exact .inl h
  · obtain ⟨st, r, e, h1, h2, h3⟩ := finishExchange_eq (deselectStep u)
    refine .inr ⟨u, st, r, h, hp, he.trans e, ?_, h1⟩
    cases hh : (deselectStep u).engine.err
    · exact .inl (h3 hh)
    · exact .inr (h2 hh)

/-- What a data request can come to: it only answers an error, or it is well formed on claimed lines and its exchange
runs (42_transaction R120). -/
theorem dataRequest_cases {args : List Byte} {s t : State} {i : Instr} (hi : i ∈ [Instr.dataRd args, .dataWr args])
    (h : exec i s = .next t) : (∃ st, t = raise st s) ∨
      (s.claimed = true ∧ i.formatOk s.params.payloadMax s.payloadLen.toNat = true ∧
        ∃ d p, p.length = s.payloadLen.toNat ∧ (i = .dataWr args → d = .write) ∧
          t = runExchange (beginExchange d p s)) := by
  simp only [List.mem_cons, List.not_mem_nil, or_false] at hi
  rcases hi with rfl | rfl <;> cases h
  · split
    · next hf =>
      split
      · next hc => exact .inr ⟨hc, by simpa [Instr.formatOk, operandsF0] using hf, _, _, by simp, by simp, rfl⟩
      · exact .inl ⟨_, rfl⟩
    · exact .inl ⟨_, rfl⟩
  · split
    · exact .inl ⟨_, rfl⟩
    · next ds hf =>
      have hl : args.length = s.payloadLen.toNat ∧ args = ds := by
        simp only [operandsFP] at hf
        split at hf
        · next e => exact ⟨e, by simpa using hf⟩
        · cases hf
      split
      · next hc =>
        exact .inr ⟨hc, by simpa [Instr.formatOk] using hl.1, .write, ds, by rw [← hl.2]; exact hl.1, fun _ => rfl, rfl⟩
      · exact .inl ⟨_, rfl⟩

/-! ### Hosts -/

/-- The request accepted for a host is a waiting one of that host. -/
theorem requestOfHost_some {s : State} {k : Nat} {r : Request} (h : s.requestOfHost k = some r) :
    r ∈ s.pending ∧ r.host = k :=
  ⟨List.mem_of_find?_eq_some h, by simpa using List.find?_some h⟩

/-- With nothing pending there is no request to accept. -/
theorem requestOfHost_nil {s : State} (h : s.pending = []) (k : Nat) : s.requestOfHost k = none := by
  simp [State.requestOfHost, h]

/-- What a move of the sequencer can come to: it goes on with the exchange in service, it waits, or it serves a waiting
request of the host named. -/
theorem sequencerStep_cases (k : Nat) (s : State) :
    (s.seq = .busy ∧ sequencerStep k s = .next (runExchange s)) ∨
      (s.seq = .idle ∧ s.requestOfHost k = none ∧ sequencerStep k s = .next s) ∨
      (s.seq = .idle ∧ ∃ r ∈ s.pending, r.host = k ∧ sequencerStep k s = serve r (accept r s)) := by
  unfold sequencerStep
  split
  · next h => exact .inl ⟨h, rfl⟩
  · next h =>
    split
    · next hr => exact .inr (.inl ⟨h, hr, rfl⟩)
    · next r hr => exact .inr (.inr ⟨h, r, (requestOfHost_some hr).1, (requestOfHost_some hr).2, rfl⟩)

theorem hostFree_iff (s : State) (k : Nat) :
    s.hostFree k = true ↔ k < s.params.nHosts ∧ s.outstanding k = false ∧ s.textBusy k = false := by
  simp [State.hostFree, and_assoc]

/-- A host with no text operation in progress has no job to drop. -/
theorem jobs_filter_of_not_busy {s : State} {k : Nat} (h : s.textBusy k = false) :
    (s.jobs.filter fun j => j.host != k) = s.jobs := by
  rw [List.filter_eq_self]
  intro j hj
  simp only [State.textBusy, List.any_eq_false, beq_iff_eq] at h
  simpa using h j hj

/-! ### Text operations -/

/-- As many byte tokens as were asked for. -/
theorem byteTokens_length (m : ParseMode) : ∀ (n : Nat) (ts : List (List Byte)) (bs : List Byte),
    byteTokens m n ts = some bs → bs.length = n
  | 0, _, bs, h => by unfold byteTokens at h; cases h; rfl
  | n + 1, [], bs, h => by unfold byteTokens at h; cases h
  | n + 1, t :: ts, bs, h => by
    unfold byteTokens at h
    split at h
    · next b bs' h1 h2 => cases h; simp [byteTokens_length m n ts bs' h2]
    · cases h

/-- The first request of a text operation can be presented. -/
theorem beginText_send {p : Params} {op : TextOp} {i : Instr} {l : Bool} (h : beginText p op = .send i l) :
    i.args.length ≤ 255 := by
  unfold beginText at h
  split at h
  case h_2 =>
    unfold beginCmdWrite at h
    split at h
    · cases h
    · split at h
      · cases h
      · split at h
        · cases h
        · next hn =>
          split at h
          · cases h
          · next bs hb => cases h; have := byteTokens_length _ _ _ _ hb; simp [Instr.args, cmdCap] at *; omega
  all_goals first
    | (split at h <;> cases h; simp [Instr.args])
    | (cases h; simp [Instr.args])

/-- The second request of a text operation can be presented. -/
theorem answerText_send {p : Params} {op : TextOp} {b : Bool} {r : Response} {i : Instr} {l : Bool}
    (h : answerText p op b r = .send i l) : i.args.length ≤ 255 := by
  unfold answerText at h
  split at h
  · split at h
    · unfold continueDataWrite at h
      split at h
      · next bs hb => cases h; have := byteTokens_length _ _ _ _ hb; simp [Instr.args]; omega
      · cases h
    · cases h
  all_goals cases h

end Sys2Proof.Machine
end

