-- ==== Sys2Proof/Laws/Trace.lean ====
section
/-! SUPPORT. Reading a pin trace piece by piece. -/

namespace Sys2Proof.Machine

@[simp] theorem busView_nil (p : Params) (r : PinReader) : busView p r [] = [] := rfl

@[simp] theorem busView_cons (p : Params) (r : PinReader) (e : PinEvent) (es : List PinEvent) :
    busView p r (e :: es) = (r.next p e).2 ++ busView p (r.next p e).1 es := rfl

/-- A pin trace is read in pieces, each from where the one before left the reader. -/
theorem busView_append (p : Params) (es fs : List PinEvent) (r : PinReader) :
    busView p r (es ++ fs) = busView p r es ++ busView p (r.after p es) fs := by
  induction es generalizing r with
  | nil => rfl
  | cons e es ih => simp [ih, PinReader.after]

/-- A group of no sample gives no byte. -/
theorem settle_empty (p : Params) {r : PinReader} (h : r.count = 0) : r.settle p = (r, []) := by
  simp [PinReader.settle, h]

/-- Select starts a group with SCLK at its idle level (43_serializer R144, R145). -/
theorem next_select (p : Params) (r : PinReader) :
    r.next p (.cs (some p.csActive)) = (.between p.cpol r.mosi, [.select]) := by simp [PinReader.next]

end Sys2Proof.Machine
end

