-- ==== Sys2Proof/Laws/PinTrace.lean ====
section
/-! SUPPORT. What the reader of the whole pin trace has after each operation on the pins, and what an engine step leaves
it with. -/

namespace Sys2Proof.Machine

/-- The reader of the whole pin trace, and what it has read. -/
def State.read (s : State) : PinReader × List BusEvent := (s.reader, busReading s.params s.obs.pins)

@[simp] theorem read_fst (s : State) : s.read.1 = s.reader := rfl

/-- Only the parameters and the pin trace are read. -/
theorem read_congr {s t : State} (hp : t.params = s.params) (ho : t.obs.pins = s.obs.pins) : t.read = s.read := by
  rw [State.read, State.read, State.reader, State.reader, hp, ho]

theorem reader_of_read {s : State} {x : PinReader × List BusEvent} (h : s.read = x) : s.reader = x.1 := by
  rw [← h]; rfl

theorem busReading_of_read {s : State} {x : PinReader × List BusEvent} (h : s.read = x) :
    busReading s.params s.obs.pins = x.2 := by rw [← h]; rfl

/-- The trace is read on by one event. -/
theorem read_tracePin (e : PinEvent) (s : State) :
    (s.tracePin e).read = ((s.reader.next s.params e).1, s.read.2 ++ (s.reader.next s.params e).2) := by
  simp [State.read, State.reader, busReading, busView_append, PinReader.after]

theorem after_append (p : Params) (r : PinReader) (es fs : List PinEvent) :
    r.after p (es ++ fs) = (r.after p es).after p fs := by simp [PinReader.after]

/-- Within a group of samples, and before SCLK is back, nothing is read yet. -/
theorem settle_open (p : Params) {r : PinReader} (h : r.count ≠ 8 ∨ r.sclk ≠ p.cpol) : r.settle p = (r, []) := by
  rw [PinReader.settle, if_neg]; rintro ⟨a, b⟩; rcases h with h | h <;> contradiction

theorem settle_whole (p : Params) {r : PinReader} (h : r.count = 8) (h' : r.sclk = p.cpol) :
    r.settle p = (.between r.sclk r.mosi, [.byte r.out r.inn]) := by
  rw [PinReader.settle, if_pos ⟨h, h'⟩]

theorem read_driveMosi {s : State} (v : Bool) (h : ∀ v, s.pin.mosi = .out v → s.reader.mosi = v) :
    (s.driveMosi v).read = ({ s.reader with mosi := v }, s.read.2) := by
  unfold State.driveMosi
  split
  · next e => rw [← h v e]; rfl
  · rw [read_tracePin]
    exact congrArg (Prod.mk _) (List.append_nil _)

/-- Driving SCLK to another level is read as its event. -/
theorem read_driveSclk_edge {s : State} {v : Bool} (h : s.pin.sclk ≠ .out v) :
    (s.driveSclk v).read =
      ((s.reader.next s.params (.sclk v)).1, s.read.2 ++ (s.reader.next s.params (.sclk v)).2) := by
  rw [State.driveSclk, if_neg h]
  exact read_tracePin _ _

/-- Driving SCLK, when the reader has no byte to end by it. -/
theorem read_driveSclk {s : State} (v : Bool) (h : ∀ v, s.pin.sclk = .out v → s.reader.sclk = v)
    (hc : s.reader.count ≠ 8 ∨ v ≠ s.params.cpol) :
    (s.driveSclk v).read = ({ s.reader with sclk := v }, s.read.2) := by
  by_cases e : s.pin.sclk = .out v
  · rw [State.driveSclk, if_pos e, ← h v e]; rfl
  · rw [read_driveSclk_edge e, PinReader.next, settle_open _ hc, List.append_nil]

/-- SCLK back at its idle level after the eighth sample ends the byte. -/
theorem read_driveSclk_whole {s : State} (h : s.pin.sclk ≠ .out s.params.cpol) (hc : s.reader.count = 8) :
    (s.driveSclk s.params.cpol).read = (.between s.params.cpol s.reader.mosi,
      s.read.2 ++ [.byte s.reader.out s.reader.inn]) := by
  rw [read_driveSclk_edge h, PinReader.next, settle_whole (r := { s.reader with sclk := s.params.cpol }) _ hc rfl]

/-- Driving CS to another level is read as its event. -/
theorem read_driveCs_edge {s : State} {v : Bool} (h : s.pin.cs ≠ .out v) :
    (s.driveCs v).read =
      ((s.reader.next s.params (.cs (some v))).1, s.read.2 ++ (s.reader.next s.params (.cs (some v))).2) := by
  rw [State.driveCs, if_neg h]
  exact read_tracePin _ _

/-- CS floating is read as its event. -/
theorem read_floatCs_edge {s : State} (h : s.pin.cs ≠ .input) :
    s.floatCs.read = ((s.reader.next s.params (.cs none)).1, s.read.2 ++ (s.reader.next s.params (.cs none)).2) := by
  rw [State.floatCs, if_neg h]
  exact read_tracePin _ _

theorem read_sampleMiso (s : State) : ∃ v, (sampleMiso s).engine.sampled = v ∧
    (sampleMiso s).read = ((s.reader.next s.params (.sample v)).1, s.read.2 ++ (s.reader.next s.params (.sample v)).2) := by
  refine ⟨s.drawMiso.1, rfl, ?_⟩
  have h : State.read { s.drawMiso.2 with engine := { s.drawMiso.2.engine with sampled := s.drawMiso.1 } } = s.read :=
    read_congr (by simp) (by unfold State.drawMiso; split <;> rfl)
  unfold sampleMiso
  dsimp only
  rw [read_tracePin, reader_of_read h, h]
  simp

/-! ### One half-bit step -/

/-- The levels in force are known from the trace. -/
def State.LevelsTold (s : State) : Prop :=
  (∀ v, s.pin.sclk = .out v → s.reader.sclk = v) ∧ ∀ v, s.pin.mosi = .out v → s.reader.mosi = v

theorem levelsTold_of {s : State} {a : Bool} (ha : s.pin.sclk = .out a) (hb : ∀ v, s.pin.mosi = .out v → s.reader.mosi = v)
    (h : s.reader.sclk = a) : s.LevelsTold :=
  ⟨fun v e => by rw [ha] at e; cases e; exact h, hb⟩

/-- Step A: nothing more is read, and the group has one more sample when `P_CPHA = 0`. -/
theorem told_leadStep {s : State} (l : s.LevelsTold) (g : s.GroupTold) (hh : s.engine.half = .lead)
    (hin : s.reader.inn = s.engine.shiftIn) :
    (leadStep s).LevelsTold ∧ (leadStep s).GroupTold ∧ (leadStep s).read.2 = s.read.2 := by
  have hcount : s.reader.count = s.engine.bitIdx := by rw [g.count, hh]; simp
  have hne : (!s.params.cpol) ≠ s.params.cpol := by cases s.params.cpol <;> simp
  generalize ho : wireBit s.params.bitOrder s.engine.shiftOut s.engine.bitIdx = o
  cases hc : s.params.cpha
  · have r1 := read_driveMosi o l.2
    have l1 : ∀ v, (s.driveMosi o).pin.sclk = .out v → (s.driveMosi o).reader.sclk = v := by
      intro v e; rw [reader_of_read r1]; exact l.1 v (by simpa using e)
    have r2 := read_driveSclk (s := s.driveMosi o) (!s.params.cpol) l1 (.inr (by simp))
    rw [r1, reader_of_read r1] at r2
    obtain ⟨v, hv, r3⟩ := read_sampleMiso ((s.driveMosi o).driveSclk (!s.params.cpol))
    rw [r2, reader_of_read r2, PinReader.next, settle_open _ (.inr (by simp))] at r3
    have e : leadStep s = { sampleMiso ((s.driveMosi o).driveSclk (!s.params.cpol)) with
        engine := { (sampleMiso ((s.driveMosi o).driveSclk (!s.params.cpol))).engine with half := .trail } } := by
      simp [leadStep, hc, ho]
    have r4 : (leadStep s).read = _ := (read_congr (by rw [e]) (by rw [e])).trans r3
    have hs : (leadStep s).engine.sampled = v := by rw [e]; exact hv
    have hp : (leadStep s).params = s.params := (frame_leadStep s).params
    refine ⟨⟨?_, ?_⟩, ⟨?_, ?_, ?_, ?_, ?_⟩, ?_⟩
    · rw [reader_of_read r4]; simp
    · rw [reader_of_read r4]; simp [ho]
    · rw [reader_of_read r4, hp]; simp [hcount, hc]
    · rw [reader_of_read r4, hp]
      simp [List.range_succ, List.foldl_append, hcount, ho, g.out]
    · rw [reader_of_read r4, hp, hs]; simp [hc, hin, hcount]
    · simp [hp]
    · simp [hp]
    · rw [r4]; simp
  · have r1 := read_driveSclk (!s.params.cpol) l.1 (.inr hne)
    have l1 : ∀ v, (s.driveSclk (!s.params.cpol)).pin.mosi = .out v → (s.driveSclk (!s.params.cpol)).reader.mosi = v := by
      intro v e; rw [reader_of_read r1]; exact l.2 v (by simpa using e)
    have r2 := read_driveMosi (s := s.driveSclk (!s.params.cpol)) o l1
    rw [r1, reader_of_read r1] at r2
    have e : leadStep s = { (s.driveSclk (!s.params.cpol)).driveMosi o with
        engine := { ((s.driveSclk (!s.params.cpol)).driveMosi o).engine with half := .trail } } := by
      simp [leadStep, hc, ho]
    have r4 : (leadStep s).read = _ := (read_congr (by rw [e]) (by rw [e])).trans r2
    have hp : (leadStep s).params = s.params := (frame_leadStep s).params
    refine ⟨⟨?_, ?_⟩, ⟨?_, ?_, ?_, ?_, ?_⟩, ?_⟩
    · rw [reader_of_read r4]; simp
    · rw [reader_of_read r4]; simp [ho]
    · rw [reader_of_read r4, hp]; simp [hcount, hc]
    · rw [reader_of_read r4, hp]; simp [g.out]
    · rw [reader_of_read r4, hp]; simp [hc, hin]
    · simp [hp]
    · simp [hp]
    · rw [r4]

/-- A whole group is the byte sent and the byte received. -/
theorem outBits_eight (o : BitOrder) (d : Byte) :
    (List.range 8).foldl (fun v j => placeBit o v j (wireBit o d j)) 0x00 = d := partialByte_eight o d

/-- Step B: the eighth bit gives the byte of the bus trace, and no other gives anything. -/
theorem told_trail {s : State} (l : s.LevelsTold) (g : s.GroupTold) (hh : s.engine.half = .trail)
    (hb : s.engine.bitIdx ≤ 7) :
    let t := byteDone (trailStep s)
    t.LevelsTold ∧ t.GroupTold ∧ ∃ new, t.read.2 = s.read.2 ++ new ∧ t.obs.bus = s.obs.bus ++ new := by
  intro t
  have hne : s.pin.sclk ≠ .out s.params.cpol := by rw [g.sclk, hh]; cases s.params.cpol <;> simp
  have hmosi := l.2 _ (g.mosi hh)
  have hpt : t.params = s.params := ((frame_trailStep s).trans (frame_byteDone _)).params
  have hpins : t.obs.pins = (trailStep s).obs.pins := by simp [t]
  -- what the reader has after the step, whole group or not
  have key : ∃ r : PinReader, r.sclk = s.params.cpol ∧ r.mosi = s.reader.mosi ∧ r.count = s.engine.bitIdx + 1 ∧
      r.out = (List.range (s.engine.bitIdx + 1)).foldl (fun v j =>
        placeBit s.params.bitOrder v j (wireBit s.params.bitOrder s.engine.shiftOut j)) 0x00 ∧
      r.inn = (trailStep s).engine.shiftIn ∧
      t.read = ((r.settle s.params).1, s.read.2 ++ (r.settle s.params).2) := by
    cases hc : s.params.cpha
    · have e : (trailStep s).obs.pins = (s.driveSclk s.params.cpol).obs.pins := by simp [trailStep, hc]
      refine ⟨{ s.reader with sclk := s.params.cpol }, rfl, rfl, ?_, ?_, ?_, ?_⟩
      · simp [g.count, hh, hc]
      · simp [g.out, g.count, hh, hc]
      · simp [g.inn, hh, hc, trailStep]
      · rw [read_congr (t := t) (s := s.driveSclk s.params.cpol) (by simp [hpt]) (hpins.trans e), read_driveSclk_edge hne]
        rfl
    · have hcount : s.reader.count = s.engine.bitIdx := by rw [g.count, hh, hc]; simp
      have e : (trailStep s).obs.pins = (sampleMiso (s.driveSclk s.params.cpol)).obs.pins := by simp [trailStep, hc]
      have r1 := read_driveSclk s.params.cpol l.1 (.inl (by omega))
      obtain ⟨v, hv, r2⟩ := read_sampleMiso (s.driveSclk s.params.cpol)
      rw [r1, reader_of_read r1, driveSclk_params, PinReader.next] at r2
      refine ⟨_, ?_, ?_, ?_, ?_, ?_, (read_congr (t := t) (by simp [hpt]) (hpins.trans e)).trans r2⟩
      · rfl
      · rfl
      · simp [hcount]
      · simp [g.out, hcount, List.range_succ, List.foldl_append, hmosi]
      · have : s.reader.inn = s.engine.shiftIn := by simp [g.inn, hh, hc]
        simp [this, hcount, trailStep, hc, hv]
  obtain ⟨r, h1, h2, h3, h4, h5, h6⟩ := key
  by_cases h8 : s.engine.bitIdx = 7
  · have h8' : (trailStep s).engine.bitIdx = 8 := by simp [h8]
    rw [settle_whole _ (by omega) h1] at h6
    refine ⟨⟨?_, ?_⟩, ⟨?_, ?_, ?_, ?_, ?_⟩, [.byte r.out r.inn], by rw [h6], ?_⟩
    · rw [reader_of_read h6]; simp [t, PinReader.between, h1]
    · rw [reader_of_read h6]; intro v e
      rw [PinReader.between, h2]; exact l.2 v (by simpa [t] using e)
    · rw [reader_of_read h6]; simp [t, PinReader.between, byteDone_bitIdx h8']
    · rw [reader_of_read h6]; simp [PinReader.between]
    · rw [reader_of_read h6]; simp [t, PinReader.between, byteDone_bitIdx h8']
    · simp [hpt]; simp [t]
    · simp [t]
    · rw [h4, h5, h8, outBits_eight]
      simp [t, byteDone_bus h8']
  · have h8' : (trailStep s).engine.bitIdx ≠ 8 := by simp; omega
    have et : t = trailStep s := byteDone_not h8'
    rw [settle_open _ (.inl (by omega))] at h6
    refine ⟨⟨?_, ?_⟩, ⟨?_, ?_, ?_, ?_, ?_⟩, [], by rw [h6], by simp [et]⟩
    · rw [reader_of_read h6]; simp [et, h1]
    · rw [reader_of_read h6]; intro v e
      rw [h2]; exact l.2 v (by simpa [et] using e)
    · rw [reader_of_read h6]; simp [et, h3]
    · rw [reader_of_read h6, hpt]; simp [et, h3, h4]
    · rw [reader_of_read h6]; simp [et, h5]
    · simp [hpt]; simp [et]
    · simp [et]

/-- A byte loaded before its first tick: the reader has nothing of it yet. -/
theorem told_loadByte {s : State} (l : s.LevelsTold) (g : s.GroupTold) :
    (loadByte s).LevelsTold ∧ (loadByte s).GroupTold ∧ (loadByte s).read = s.read ∧
      ((loadByte s).engine.half = .lead → (loadByte s).reader.inn = (loadByte s).engine.shiftIn) := by
  have hr : (loadByte s).read = s.read := read_congr (by simp) (by simp)
  have hr' : (loadByte s).reader = s.reader := reader_of_read hr
  refine ⟨by simpa [State.LevelsTold, hr'] using l, ?_, hr, ?_⟩
  · by_cases h : s.engine.bitIdx = 0 ∧ s.engine.half = .lead
    · have h0 : s.reader.count = 0 := by simp [g.count, h]
      have h1 : s.reader.out = 0x00 := by rw [g.out, h0]; rfl
      have h2 : s.reader.inn = 0x00 := by simp [g.inn, h]
      have h3 := g.sclk
      refine ⟨?_, ?_, ?_, by simpa using h3, fun e => ?_⟩
      · rw [hr']; simp [h, h0]
      · rw [hr']; simp [h0, h1]
      · rw [hr']; simp [h, h2]
      · rw [loadByte_half, h.2] at e; cases e
    · rw [loadByte_later s h]; exact g
  · intro hh
    rw [hr']
    by_cases h : s.engine.bitIdx = 0 ∧ s.engine.half = .lead
    · simp [g.inn, h, loadByte_first s h.1 h.2]
    · rw [loadByte_later s h] at hh ⊢
      have hb : s.engine.bitIdx ≠ 0 := fun e => h ⟨e, hh⟩
      simp [g.inn, hh, hb]

/-- A tick is no pin event. -/
theorem told_tick {s t : State} (hp : t.params = s.params) (he : t.engine = s.engine) (hq : t.pin = s.pin)
    (ho : t.obs.pins = s.obs.pins) (l : s.LevelsTold) (g : s.GroupTold) : t.LevelsTold ∧ t.GroupTold := by
  have hr : t.reader = s.reader := reader_of_read (read_congr hp ho)
  refine ⟨by simpa [State.LevelsTold, hr, hq] using l, ?_⟩
  obtain ⟨a, b, c, d, e⟩ := g
  constructor <;> simpa [hp, he, hq, hr]

theorem ReadsAs.refl (a : List BusEvent) : ReadsAs a a := ⟨.refl a, rfl⟩

theorem ReadsAs.trans {a b c : List BusEvent} (h : ReadsAs a b) (k : ReadsAs b c) : ReadsAs a c :=
  ⟨h.1.trans k.1, h.2.trans k.2⟩

theorem ReadsAs.append {a b c d : List BusEvent} (h : ReadsAs a b) (k : ReadsAs c d) : ReadsAs (a ++ c) (b ++ d) :=
  ⟨h.1.append k.1, by rw [List.filter_append, List.filter_append, h.2, k.2]⟩

/-- A trace with no `Abort(0)` is read exactly (43_serializer R145). -/
theorem ReadsAs.eq {a b : List BusEvent} (h : ReadsAs a b) (hb : .abort 0 ∉ b) : a = b := by
  refine h.1.eq_of_length_le ?_
  have : b.filter (· != .abort 0) = b := List.filter_eq_self.2 fun e he => by
    simp only [bne_iff_ne]; rintro rfl; exact hb he
  rw [← this, ← h.2]
  exact List.length_filter_le _ _

/-- CS floating inside a group is read as the abort of its whole bits, but where nothing of a byte has been shown. -/
theorem next_float {s : State} (l : s.LevelsTold) (g : s.GroupTold) :
    ReadsAs (s.reader.next s.params (.cs none)).2 [.abort s.engine.bitIdx, .deselect] := by
  have hs := l.1 _ g.sclk
  have hw : s.reader.wholeBits s.params = s.engine.bitIdx := by
    unfold PinReader.wholeBits
    rw [hs, g.count]
    cases s.engine.half <;> cases s.params.cpha <;> cases s.params.cpol <;> simp
  simp only [PinReader.next]
  split
  · next h =>
    have : s.engine.bitIdx = 0 := by have := g.count; omega
    rw [this]
    exact ⟨List.sublist_cons_self _ _, rfl⟩
  · rw [hw]; exact .refl _

/-- Between two groups CS floating is read as Deselect. -/
theorem next_float_between {s : State} (l : s.LevelsTold) (g : s.GroupTold) (hb : s.engine.bitIdx = 0)
    (hh : s.engine.half = .lead) : (s.reader.next s.params (.cs none)).2 = [.deselect] := by
  have hs := l.1 _ g.sclk
  have hc := g.count
  rw [hb, hh] at hc
  rw [hh] at hs
  simp [PinReader.next, hc, hs]

/-! ### One engine step -/

/-- The pin trace tells the bus trace, and CS is where the phase of the engine has it. -/
structure State.Telling (s : State) : Prop where
  tells    : s.PinsTell
  bits     : s.engine.bitIdx ≤ 7
  selected : s.engine.phase = .cmd ∨ s.engine.phase = .payload → s.pin.cs = .out s.params.csActive
  select   : s.engine.phase = .select → s.pin.cs ≠ .out s.params.csActive

theorem PinsTell_levels {s : State} (h : s.PinsTell) : s.LevelsTold := ⟨h.sclk, h.mosi⟩

/-- A half-bit step inside a byte: it waits, it goes on, or the abort is left to the reader until CS floats. -/
theorem telling_halfBit {s : State} (h : s.Telling) (hin : s.inByte) : (halfBit s).state.Telling := by
  have hp : s.engine.phase = .cmd ∨ s.engine.phase = .payload := by
    rcases hin with h | h
    · exact .inl h.1
    · exact .inr h.1
  have hnd : s.engine.phase ≠ .deselect := by rcases hp with h | h <;> simp [h]
  have hni : s.engine.phase ≠ .idle ∧ s.engine.phase ≠ .select := by rcases hp with h | h <;> simp [h]
  have hcs := h.selected hp
  have hreads := h.tells.reads hnd
  obtain ⟨l1, g1, r1, i1⟩ := told_loadByte (PinsTell_levels h.tells) (h.tells.group hp)
  have sync : ∀ t : State, t.params = s.params → t.engine = (loadByte s).engine → t.pin = s.pin → t.obs.pins = s.obs.pins →
      t.LevelsTold ∧ t.GroupTold ∧ t.read = s.read := fun t a b c d => by
    obtain ⟨x, y⟩ := told_tick (s := loadByte s) (t := t) (by simp [a]) b (by simp [c]) (by simp [d]) l1 g1
    exact ⟨x, y, read_congr a d⟩
  -- a step that stays in its phase
  have stay : ∀ t : State, t.engine.phase = s.engine.phase → t.snap = s.snap → t.params = s.params → t.pin.cs = s.pin.cs →
      t.engine.bitIdx ≤ 7 → t.LevelsTold → t.GroupTold → ReadsAs t.read.2 t.obs.bus →
      (t.engine.byteIdx = s.engine.byteIdx ∨ (t.engine.bitIdx = 0 ∧ t.engine.half = .lead)) → t.Telling := by
    intro t e1 e2 e3 e4 e5 l g hm hi
    refine ⟨⟨fun _ => hm, fun e => absurd (e1.symm.trans e) hnd, l.1, l.2, fun e => ?_, fun _ => g, fun _ _ hn => ?_⟩, e5,
      fun _ => by rw [e4, e3]; exact hcs, fun e => absurd (e1.symm.trans e) hni.2⟩
    · rw [e1] at e; rcases e with e | e
      · exact absurd e hni.1
      · exact absurd e hni.2
    · rcases hi with hi | hi
      · exact absurd (by simpa [State.inByte, e1, e2, hi] using hin) hn
      · exact hi
  unfold halfBit
  dsimp only
  split
  · obtain ⟨l2, g2, r2⟩ := sync (loadByte s).drawTransport.2 (by simp) (by simp) (by simp) (by simp)
    refine stay _ (by simp [Progress.state]) ?_ (by simp [Progress.state]) (by simp [Progress.state])
      (by simpa [Progress.state] using h.bits) l2 g2 ?_ (.inl (by simp [Progress.state]))
    · exact ((frame_loadByte s).trans (frame_drawTransport _)).snap
    · show ReadsAs (loadByte s).drawTransport.2.read.2 (loadByte s).drawTransport.2.obs.bus
      rw [r2, show (loadByte s).drawTransport.2.obs.bus = s.obs.bus by simp]; exact hreads
  · obtain ⟨l2, g2, r2⟩ := sync (loadByte s).drawTransport.2.countTick (by simp) (by simp) (by simp) (by simp)
    generalize hu : (loadByte s).drawTransport.2.countTick = u at l2 g2 r2
    have hb : u.obs.bus = s.obs.bus := by rw [← hu]; simp
    have hbits : (loadByte s).drawTransport.2.engine.bitIdx = u.engine.bitIdx := by rw [← hu]; simp
    have hcs' : u.pin.cs = s.pin.cs := by rw [← hu]; simp
    have hr : (abortAt u.engine.bitIdx u).read = s.read := (read_congr rfl rfl).trans r2
    have hr' : (abortAt u.engine.bitIdx u).reader = u.reader := (reader_of_read hr).trans (reader_of_read r2).symm
    simp only [Progress.state, hbits]
    refine ⟨⟨fun e => absurd rfl e, fun _ => ⟨?_, ?_⟩, ?_, ?_, fun e => ?_, fun e => ?_, fun _ e => absurd rfl e⟩, ?_, ?_, ?_⟩
    · show u.pin.cs ≠ _
      rw [hcs', hcs]; simp
    · rw [busReading_of_read hr, hr']
      rw [show (abortAt u.engine.bitIdx u).obs.bus = s.obs.bus ++ [.abort u.engine.bitIdx] by simp [abortAt, hb],
        List.append_assoc]
      have hn : ReadsAs (u.reader.next u.params (.cs none)).2 [.abort u.engine.bitIdx, .deselect] := next_float l2 g2
      exact ReadsAs.append (b := s.obs.bus) hreads hn
    · rw [hr']; exact l2.1
    · rw [hr']; exact l2.2
    · rcases e with e | e <;> cases e
    · rcases e with e | e <;> cases e
    · show u.engine.bitIdx ≤ 7
      rw [← hbits]; simpa using h.bits
    · intro e; rcases e with e | e <;> cases e
    · intro e; cases e
  · obtain ⟨l2, g2, r2⟩ := sync (loadByte s).drawTransport.2.countTick (by simp) (by simp) (by simp) (by simp)
    generalize hu : (loadByte s).drawTransport.2.countTick = u at l2 g2 r2
    have hb : u.obs.bus = s.obs.bus := by rw [← hu]; simp
    have he : u.engine = (loadByte s).engine := by rw [← hu]; simp
    have hcs' : u.pin.cs = s.pin.cs := by rw [← hu]; simp
    have hfr : EngineFrame s u := by rw [← hu]; exact ((frame_loadByte s).trans (frame_drawTransport _)).trans (frame_countTick _)
    have hm : ReadsAs u.read.2 u.obs.bus := by rw [r2, hb]; exact hreads
    have hr' : u.reader = (loadByte s).reader := (reader_of_read r2).trans (reader_of_read r1).symm
    have hbits : u.engine.bitIdx ≤ 7 := by rw [he]; simpa using h.bits
    have hfr' := hfr.trans (frame_halfBitAct u)
    simp only [Progress.state]
    cases hh : u.engine.half
    · obtain ⟨l3, g3, r3⟩ := told_leadStep l2 g2 hh (by rw [hr', he]; exact i1 (by rw [← he]; exact hh))
      have e : halfBitAct u = leadStep u := by simp [halfBitAct, hh]
      rw [e] at hfr' ⊢
      exact stay _ (by simp [he]) hfr'.snap hfr'.params (by simp [hcs']) (by simpa using hbits) l3 g3
        (by rw [r3]; simpa using hm) (.inl (by simp [he]))
    · obtain ⟨l3, g3, new, r3, b3⟩ := told_trail l2 g2 hh hbits
      have e : halfBitAct u = byteDone (trailStep u) := by simp [halfBitAct, hh]
      rw [e] at hfr' ⊢
      by_cases h8 : (trailStep u).engine.bitIdx = 8
      · exact stay _ (by simp [he]) hfr'.snap hfr'.params (by simp [hcs']) (by simp [byteDone_bitIdx h8]) l3 g3
          (by rw [r3, b3]; exact hm.append (.refl new)) (.inr ⟨byteDone_bitIdx h8, by simp⟩)
      · refine stay _ (by simp [he]) hfr'.snap hfr'.params (by simp [hcs']) ?_ l3 g3
          (by rw [r3, b3]; exact hm.append (.refl new)) (.inl ?_)
        · rw [byteDone_not h8]; simp at h8 ⊢; omega
        · rw [byteDone_not h8]; simp [he]

/-- SELECT is read as Select, with SCLK at its idle level (43_serializer R144, R145). -/
theorem telling_selectStep {s : State} (h : s.Telling) (hp : s.engine.phase = .select) : (selectStep s).Telling := by
  have h0 := h.tells.outside (.inr hp)
  have hf := h.tells.fresh (by simp [hp]) (by simp [hp]) (by simp [State.inByte, hp])
  have r1 := read_driveSclk s.params.cpol h.tells.sclk (.inl (by omega))
  have r2 : ((s.driveSclk s.params.cpol).driveCs s.params.csActive).read
      = (.between s.params.cpol s.reader.mosi, s.read.2 ++ [.select]) := by
    rw [read_driveCs_edge (by simpa using h.select hp), r1, reader_of_read r1, driveSclk_params, next_select]
  have r3 : (selectStep s).read = _ := (read_congr rfl rfl).trans r2
  have hm : ReadsAs s.read.2 s.obs.bus := h.tells.reads (by simp [hp])
  have hpar : (selectStep s).params = s.params := by simp [selectStep]
  have hb : (selectStep s).engine.bitIdx = 0 := by simpa [selectStep] using hf.1
  have hh : (selectStep s).engine.half = .lead := by simpa [selectStep] using hf.2
  have hs : (selectStep s).pin.sclk = .out s.params.cpol := by simp [selectStep]
  have hph : (selectStep s).engine.phase = .cmd := rfl
  refine ⟨⟨fun _ => ?_, fun e => ?_, ?_, ?_, fun e => ?_, fun _ => ⟨?_, ?_, ?_, ?_, ?_⟩, fun _ _ _ => ⟨hb, hh⟩⟩, ?_, fun _ => ?_,
    fun e => ?_⟩
  · rw [busReading_of_read r3]
    rw [show (selectStep s).obs.bus = s.obs.bus ++ [.select] by simp [selectStep]]
    exact hm.append (.refl _)
  · rw [hph] at e; cases e
  · rw [reader_of_read r3, hs]; simp [PinReader.between]
  · rw [reader_of_read r3]; intro v e
    exact h.tells.mosi v (by simpa [selectStep] using e)
  · rw [hph] at e; rcases e with e | e <;> cases e
  · rw [reader_of_read r3, hb, hh]; simp [PinReader.between]
  · rw [reader_of_read r3]; simp [PinReader.between]
  · rw [reader_of_read r3, hb, hh]; simp [PinReader.between]
  · rw [hs, hh, hpar]; simp
  · rw [hh]; intro e; cases e
  · rw [hb]; omega
  · simp [selectStep]
  · rw [hph] at e; cases e

/-- From one phase to the next the pins do not move. -/
theorem telling_enterPayload {s : State} (h : s.Telling) (hp : s.engine.phase = .cmd) (hn : ¬ s.inByte) :
    (enterPayload s).Telling := by
  have hr : (enterPayload s).reader = s.reader := rfl
  have hf := h.tells.fresh (by simp [hp]) (by simp [hp]) hn
  obtain ⟨a, b, c, d, e⟩ := h.tells.group (.inl hp)
  have hph : (enterPayload s).engine.phase = .payload := rfl
  refine ⟨⟨fun _ => h.tells.reads (by simp [hp]), fun e => ?_, h.tells.sclk, h.tells.mosi, fun e => ?_,
    fun _ => ⟨a, b, c, d, e⟩, fun _ _ _ => hf⟩, h.bits, fun _ => h.selected (.inl hp), fun e => ?_⟩
  · rw [hph] at e; cases e
  · rw [hph] at e; rcases e with e | e <;> cases e
  · rw [hph] at e; cases e

/-- The end of an exchange, aborted or not, leaves Deselect to the reader. -/
theorem telling_endStep {s : State} (h : s.Telling) (hp : s.engine.phase = .payload) (hn : ¬ s.inByte) :
    (endStep s).Telling := by
  have hf := h.tells.fresh (by simp [hp]) (by simp [hp]) hn
  have hr : (endStep s).read = s.read := by
    refine read_congr (frame_endStep s).params ?_
    unfold endStep; dsimp only; split <;> simp [abortAt]
  have hr' := reader_of_read hr
  have hpin : (endStep s).pin = s.pin := by unfold endStep; dsimp only; split <;> simp [abortAt]
  have hph : (endStep s).engine.phase = .deselect := by unfold endStep; dsimp only; split <;> rfl
  have hbi : (endStep s).engine.bitIdx = s.engine.bitIdx := by unfold endStep; dsimp only; split <;> simp [abortAt]
  have hbus : ReadsAs s.obs.bus (endStep s).obs.bus := by
    unfold endStep; dsimp only; split
    · exact ⟨by simp [abortAt], by simp [abortAt]⟩
    · simp [ReadsAs]
  have g := h.tells.group (.inr hp)
  have hm : ReadsAs s.read.2 s.obs.bus := h.tells.reads (by simp [hp])
  refine ⟨⟨fun e => absurd hph e, fun _ => ⟨?_, ?_⟩, ?_, ?_, fun e => ?_, fun e => ?_, fun _ e => absurd hph e⟩, ?_, fun e => ?_,
    fun e => ?_⟩
  · rw [hpin, h.selected (.inr hp)]; simp
  · rw [busReading_of_read hr, hr', (frame_endStep s).params]
    rw [read_fst, next_float_between (PinsTell_levels h.tells) g hf.1 hf.2]
    exact (hm.trans hbus).append (.refl _)
  · rw [hr', hpin]; exact h.tells.sclk
  · rw [hr', hpin]; exact h.tells.mosi
  · rw [hph] at e; rcases e with e | e <;> cases e
  · rw [hph] at e; rcases e with e | e <;> cases e
  · rw [hbi]; exact h.bits
  · rw [hph] at e; rcases e with e | e <;> cases e
  · rw [hph] at e; cases e

/-- Every engine step short of DESELECT leaves a pin trace that tells the bus trace. -/
theorem telling_engineStep (s : State) (h : s.Telling) (hd : s.engine.phase ≠ .deselect) : (engineStep s).state.Telling := by
  cases hp : s.engine.phase
  · simpa [engineStep, hp, Progress.state] using h
  · simpa [engineStep, hp, Progress.state] using telling_selectStep h hp
  · by_cases hin : s.engine.byteIdx < s.snap.len.toNat
    · simpa [engineStep, hp, hin, Progress.state] using telling_halfBit h (.inl ⟨hp, hin⟩)
    · simpa [engineStep, hp, hin, Progress.state] using telling_enterPayload h hp (by simp [State.inByte, hp]; omega)
  · by_cases hin : s.engine.byteIdx < s.snap.plen.toNat
    · simpa [engineStep, hp, hin, Progress.state] using telling_halfBit h (.inr ⟨hp, hin⟩)
    · simpa [engineStep, hp, hin, Progress.state] using telling_endStep h hp (by simp [State.inByte, hp]; omega)
  · exact absurd hp hd

/-! ### Whole moves -/

/-- Where the engine is idle, the trace tells as much of two states with the same traces and levels in force. -/
theorem pinsTell_idle {s t : State} (h : s.PinsTell) (hs : s.engine.phase = .idle) (ht : t.engine.phase = .idle)
    (hp : t.params = s.params) (ho : t.obs.pins = s.obs.pins) (hb : t.obs.bus = s.obs.bus)
    (hc : ∀ v, t.pin.sclk = .out v → s.pin.sclk = .out v) (hm : ∀ v, t.pin.mosi = .out v → s.pin.mosi = .out v) :
    t.PinsTell := by
  have hr := read_congr hp ho
  have hr' := reader_of_read hr
  refine ⟨fun _ => ?_, fun e => ?_, ?_, ?_, fun _ => ?_, fun e => ?_, fun e => absurd ht e⟩
  · rw [busReading_of_read hr, hb]; exact h.reads (by simp [hs])
  · rw [ht] at e; cases e
  · rw [hr']; exact fun v e => h.sclk v (hc v e)
  · rw [hr']; exact fun v e => h.mosi v (hm v e)
  · rw [hr']; exact h.outside (.inl hs)
  · rw [ht] at e; rcases e with e | e <;> cases e

/-- DESELECT is read as Deselect, after the abort if there was one. -/
theorem pinsTell_deselectStep {s : State} (h : s.Telling) (hp : s.engine.phase = .deselect) : (deselectStep s).PinsTell := by
  obtain ⟨hcs, hm⟩ := h.tells.closing hp
  have hr : (deselectStep s).read = _ := (read_congr rfl rfl).trans (read_floatCs_edge hcs)
  refine ⟨fun _ => ?_, fun e => (by cases e), ?_, ?_, fun _ => ?_, fun e => ?_, fun e => absurd rfl e⟩
  · rw [busReading_of_read hr]
    rw [show (deselectStep s).obs.bus = s.obs.bus ++ [.deselect] by simp [deselectStep]]
    exact hm
  · rw [reader_of_read hr]
    intro v e
    exact h.tells.sclk v (by simpa [deselectStep] using e)
  · rw [reader_of_read hr]
    intro v e
    exact h.tells.mosi v (by simpa [deselectStep] using e)
  · rw [reader_of_read hr]; rfl
  · rcases e with e | e <;> cases e

/-- A run of the exchange, to its response or to a wait. -/
theorem pinsTell_runExchange {s : State} (h : s.Telling) : (runExchange s).PinsTell := by
  rcases runEngine_keeps State.Telling telling_engineStep (exchangeFuel s) s h with h | ⟨u, hu, hp, e⟩
  · exact h.tells
  · obtain ⟨st, r, e', _⟩ := finishExchange_eq (deselectStep u)
    unfold runExchange
    rw [e, e']
    exact pinsTell_idle (pinsTell_deselectStep hu hp) rfl rfl rfl rfl rfl (fun _ h => h) (fun _ h => h)

/-- The event of a claim on SCLK, read between two groups. -/
theorem after_sclkEvent (p : Params) {r : PinReader} {old new : Pin} (h0 : r.count = 0)
    (h : ∀ v, old = .out v → r.sclk = v) :
    let r' := r.after p (levelEvent .sclk old new)
    busView p r (levelEvent .sclk old new) = [] ∧ r'.count = 0 ∧ r'.mosi = r.mosi ∧ ∀ v, new = .out v → r'.sclk = v := by
  cases new with
  | input => simp [levelEvent, PinReader.after, h0]
  | out v =>
    by_cases e : old = .out v
    · simp [levelEvent, e, PinReader.after, h0, h v e]
    · have : r.next p (.sclk v) = ({ r with sclk := v }, []) := settle_open p (.inl (by simp [h0]))
      simp [levelEvent, e, PinReader.after, this, h0]

/-- The event of a claim on MOSI. -/
theorem after_mosiEvent (p : Params) {r : PinReader} {old new : Pin} (h : ∀ v, old = .out v → r.mosi = v) :
    let r' := r.after p (levelEvent .mosi old new)
    busView p r (levelEvent .mosi old new) = [] ∧ r'.count = r.count ∧ r'.sclk = r.sclk ∧ ∀ v, new = .out v → r'.mosi = v := by
  cases new with
  | input => simp [levelEvent, PinReader.after]
  | out v =>
    by_cases e : old = .out v
    · simp [levelEvent, e, PinReader.after, h v e]
    · simp [levelEvent, e, PinReader.after, PinReader.next]

/-- The event of a claim on CS, which is not driven to its active level (44_line_arbiter R162). -/
theorem after_csEvent {p : Params} (hp : p.csInitInactive = true) (r : PinReader) (old : Pin) :
    let es := levelEvent (fun v => .cs (some v)) old (initPin p.lineInit.cs)
    busView p r es = [] ∧ r.after p es = r := by
  unfold Params.csInitInactive at hp
  cases h : p.lineInit.cs <;> rw [h] at hp <;> simp only [initPin, levelEvent]
  · split <;> simp [PinReader.after, PinReader.next, hp]
  · split <;> simp_all [PinReader.after, PinReader.next]
  · simp [PinReader.after]

/-- A claim's events are read as no bus event, and tell the levels it sets. -/
theorem pinsTell_initLines {s : State} (h : s.PinsTell) (hi : s.engine.phase = .idle)
    (hp : s.params.csInitInactive = true) : s.initLines.PinsTell := by
  obtain ⟨a1, a2, a3, a4⟩ := after_sclkEvent s.params (new := initPin s.params.lineInit.sclk) (h.outside (.inl hi)) h.sclk
  obtain ⟨b1, b2, b3, b4⟩ := after_mosiEvent s.params (r := s.reader.after s.params
    (levelEvent .sclk s.pin.sclk (initPin s.params.lineInit.sclk))) (new := initPin s.params.lineInit.mosi)
    (fun v e => a3.trans (h.mosi v e))
  obtain ⟨c1, c2⟩ := after_csEvent hp ((s.reader.after s.params
    (levelEvent .sclk s.pin.sclk (initPin s.params.lineInit.sclk))).after s.params
    (levelEvent .mosi s.pin.mosi (initPin s.params.lineInit.mosi))) s.pin.cs
  have hr : s.initLines.read = (((s.reader.after s.params
      (levelEvent .sclk s.pin.sclk (initPin s.params.lineInit.sclk))).after s.params
      (levelEvent .mosi s.pin.mosi (initPin s.params.lineInit.mosi))), s.read.2) := by
    have hread : s.initLines.read = (s.reader.after s.params s.initEvents, s.read.2 ++ busView s.params s.reader s.initEvents) := by
      simp [State.read, State.reader, State.initLines, busReading, busView_append, PinReader.after]
    rw [hread]
    unfold State.initEvents
    simp only [busView_append, after_append, PerLine.map]
    rw [a1, b1, c1, c2]
    simp
  refine ⟨fun _ => ?_, fun e => ?_, ?_, ?_, fun _ => ?_, fun e => ?_, fun e => absurd hi e⟩
  · rw [busReading_of_read hr]; exact h.reads (by simp [hi])
  · exact absurd (hi.symm.trans e) (by simp)
  · rw [reader_of_read hr]; exact fun v e => b3.trans (a4 v e)
  · rw [reader_of_read hr]; exact b4
  · rw [reader_of_read hr]; exact b2.trans a2
  · have : s.engine.phase = .cmd ∨ s.engine.phase = .payload := e
    rw [hi] at this; rcases this with e | e <;> cases e

end Sys2Proof.Machine
end

