-- ==== Sys2Proof/Laws/Waiting.lean ====
section
/-! SUPPORT. An exchange that waits for a tick and goes on: the fuel of a run does not matter when there is enough of
it, and a run with waits comes to what the run without them comes to. -/

namespace Sys2Proof.Machine

/-! ### Enough fuel -/

/-- The half-bit steps of the current phase that are done. -/
def Engine.place (e : Engine) : Nat := 16 * e.byteIdx + 2 * e.bitIdx + if e.half = .lead then 0 else 1

/-- The engine stands at a place of its exchange. -/
structure State.Placed (s : State) : Prop where
  bits    : s.engine.bitIdx ≤ 7
  select  : s.engine.phase = .select → s.engine.bitIdx = 0 ∧ s.engine.half = .lead
  cmd     : s.engine.phase = .cmd → s.engine.place ≤ 16 * s.snap.len.toNat
  payload : s.engine.phase = .payload → s.engine.place ≤ 16 * s.snap.plen.toNat

/-- The engine steps left, when every tick comes. -/
def State.stepsLeft (s : State) : Nat :=
  match s.engine.phase with
  | .idle => 0
  | .select => 16 * (s.snap.len.toNat + s.snap.plen.toNat) + 4
  | .cmd => 16 * s.snap.len.toNat - s.engine.place + 16 * s.snap.plen.toNat + 3
  | .payload => 16 * s.snap.plen.toNat - s.engine.place + 2
  | .deselect => 1

/-- A half-bit step that does not wait goes one place on, or to DESELECT. -/
theorem halfBit_place {s t : State} (hb : s.engine.bitIdx ≤ 7) (h : halfBit s = .running t) :
    t.engine.bitIdx ≤ 7 ∧ t.snap = s.snap ∧ (t.engine.phase = .deselect ∨
      (t.engine.phase = s.engine.phase ∧ t.engine.place = s.engine.place + 1)) := by
  have f := frame_halfBit s
  rw [h] at f
  refine ⟨?_, f.snap, ?_⟩
  all_goals
    unfold halfBit at h
    dsimp only at h
    split at h
    · cases h
    · cases h; first | exact .inl rfl | simpa [abortAt] using hb
    · cases h
      cases hh : s.engine.half
      · simp [halfBitAct, hh, hb, Engine.place]
      · by_cases h8 : s.engine.bitIdx + 1 = 8
        · have h8' : (trailStep (loadByte s).drawTransport.2.countTick).engine.bitIdx = 8 := by simpa using h8
          simp [halfBitAct, hh, byteDone_bitIdx h8', byteDone_byteIdx h8', Engine.place]
          try omega
        · have h8' : (trailStep (loadByte s).drawTransport.2.countTick).engine.bitIdx ≠ 8 := by simpa using h8
          simp [halfBitAct, hh, byteDone_not h8', Engine.place]
          try omega

/-- A step that does not wait keeps the engine placed, with fewer steps left. -/
theorem engineStep_stepsLeft {s t : State} (p : s.Placed) (h : engineStep s = .running t) :
    t.Placed ∧ t.stepsLeft < s.stepsLeft := by
  have byte : ∀ n, s.engine.place < 16 * n → halfBit s = .running t →
      t.engine.bitIdx ≤ 7 ∧ t.snap = s.snap ∧ (t.engine.phase = .deselect ∨
        (t.engine.phase = s.engine.phase ∧ t.engine.place = s.engine.place + 1)) :=
    fun _ _ e => halfBit_place p.bits e
  have inside : ∀ n, s.engine.byteIdx < n → s.engine.place < 16 * n := by
    intro n hn
    have := p.bits
    unfold Engine.place
    split <;> omega
  unfold engineStep at h
  split at h
  · cases h
  · next hp =>
    cases h
    obtain ⟨h1, h2⟩ := p.select hp
    refine ⟨⟨by simp [selectStep, h1], by simp [selectStep], ?_, by simp [selectStep]⟩, ?_⟩
    · simp [selectStep, Engine.place, h1, h2]
    · simp [State.stepsLeft, selectStep, hp]; omega
  · next hp =>
    split at h
    · next hlt =>
      have hi := inside _ hlt
      obtain ⟨a, b, c⟩ := byte _ hi h
      rcases c with c | ⟨c, d⟩
      · exact ⟨⟨a, by simp [c], by simp [c], by simp [c]⟩, by simp [State.stepsLeft, c, hp]⟩
      · rw [hp] at c
        refine ⟨⟨a, by simp [c], fun _ => by rw [b, d]; omega, by simp [c]⟩, ?_⟩
        simp only [State.stepsLeft, c, hp, b, d]; omega
    · next hlt =>
      cases h
      have hpl := p.cmd hp
      have h0 : s.engine.bitIdx = 0 ∧ s.engine.half = .lead := by
        unfold Engine.place at hpl
        split at hpl
        · next hl => exact ⟨by omega, hl⟩
        · omega
      refine ⟨⟨by simp [enterPayload, h0.1], by simp [enterPayload], by simp [enterPayload], ?_⟩, ?_⟩
      · simp [enterPayload, Engine.place, h0.1, h0.2]
      · simp only [State.stepsLeft, enterPayload, hp]; omega
  · next hp =>
    split at h
    · next hlt =>
      have hi := inside _ hlt
      obtain ⟨a, b, c⟩ := byte _ hi h
      rcases c with c | ⟨c, d⟩
      · exact ⟨⟨a, by simp [c], by simp [c], by simp [c]⟩, by simp [State.stepsLeft, c, hp]⟩
      · rw [hp] at c
        refine ⟨⟨a, by simp [c], by simp [c], fun _ => by rw [b, d]; omega⟩, ?_⟩
        simp only [State.stepsLeft, c, hp, b, d]; omega
    · cases h
      have hph : (endStep s).engine.phase = .deselect := by unfold endStep; dsimp only; split <;> rfl
      have hbi : (endStep s).engine.bitIdx = s.engine.bitIdx := by
        unfold endStep; dsimp only; split <;> simp [abortAt, State.trace]
      exact ⟨⟨by rw [hbi]; exact p.bits, by simp [hph], by simp [hph], by simp [hph]⟩,
        by simp [State.stepsLeft, hph, hp]⟩
  · cases h

/-- With fuel for the steps left, more fuel makes no difference. -/
theorem runEngine_fuel : ∀ (n m : Nat) (s : State), s.Placed → s.stepsLeft ≤ n → s.stepsLeft ≤ m →
    runEngine n s = runEngine m s := by
  have idle : ∀ (m : Nat) (s : State), s.stepsLeft = 0 → runEngine m s = s := by
    intro m s h
    have hp : s.engine.phase = .idle := by
      cases hh : s.engine.phase <;> simp [State.stepsLeft, hh] at h ⊢
    cases m <;> simp [runEngine, engineStep, hp]
  intro n
  induction n with
  | zero => intro m s _ hn _; rw [idle m s (by omega), idle 0 s (by omega)]
  | succ n ih =>
    intro m s p hn hm
    cases m with
    | zero => rw [idle _ s (by omega), idle 0 s (by omega)]
    | succ m =>
      simp only [runEngine]
      cases h : engineStep s
      · obtain ⟨pt, hl⟩ := engineStep_stepsLeft p h
        exact ih m _ pt (by omega) (by omega)
      · rfl
      · rfl

/-- A scripted exchange stands at a place, and has the steps left that its place says. -/
theorem midway_placed {s t : State} {k : Nat} (m : Midway s k t)
    (hk : k < 16 * (s.snap.len.toNat + s.snap.plen.toNat)) : t.Placed ∧
      exchangeFuel s = (1 + k + if t.engine.phase = .payload then 1 else 0) + t.stepsLeft := by
  have hb := m.bitIdx
  have hh : (if t.engine.half = .lead then 0 else 1) = k % 2 := by
    rw [m.half]
    rcases Nat.mod_two_eq_zero_or_one k with h | h <;> simp [h]
  have hpl : t.engine.place = 16 * t.engine.byteIdx + k % 16 := by
    unfold Engine.place
    rw [hb, hh]; omega
  rcases m.place with ⟨hp, hi, hl⟩ | ⟨hp, hi⟩
  · refine ⟨⟨by omega, by simp [hp], fun _ => ?_, by simp [hp]⟩, ?_⟩
    · rw [hpl, m.frame.snap]; omega
    · simp only [exchangeFuel, State.stepsLeft, hp, hpl, m.frame.snap]; simp; omega
  · refine ⟨⟨by omega, by simp [hp], by simp [hp], fun _ => ?_⟩, ?_⟩
    · rw [hpl, m.frame.snap]; omega
    · simp only [exchangeFuel, State.stepsLeft, hp, hpl, m.frame.snap]; simp; omega

/-! ### Going on after a wait -/

/-- A scripted draw of the transport leaves the script, and nothing else changes. -/
theorem drawTransport_scripted {s : State} {d : TransportDraw} {rest : List TransportDraw}
    (h : s.env.transport = d :: rest) : s.drawTransport = (d, s.script rest s.env.schedule) := by
  simp only [State.drawTransport, h]; rfl

theorem loadByte_loadByte (s : State) : loadByte (loadByte s) = loadByte s := by
  by_cases h : s.engine.bitIdx = 0 ∧ s.engine.half = .lead
  · have h' : (loadByte s).engine.bitIdx = 0 ∧ (loadByte s).engine.half = .lead := by simpa using h
    have ho : (loadByte s).outIdx = s.outIdx := by
      unfold State.outIdx; rw [loadByte_phase, loadByte_byteIdx, (frame_loadByte s).snap]
    rw [show loadByte (loadByte s) = _ from if_pos h', ho, (frame_loadByte s).out]
    simp [loadByte, h]
  · rw [loadByte_later s h, loadByte_later s h]

theorem loadByte_inByte {s : State} (h : s.inByte) : (loadByte s).inByte := by
  unfold State.inByte
  rw [loadByte_phase, loadByte_byteIdx, (frame_loadByte s).snap]
  exact h

/-- A byte loaded before the wait is the byte loaded after it. -/
theorem runEngine_loadByte {s : State} (h : s.inByte) (n : Nat) : runEngine (n + 1) (loadByte s) = runEngine (n + 1) s := by
  have : halfBit (loadByte s) = halfBit s := by
    unfold halfBit
    rw [loadByte_loadByte]
  rw [runEngine, runEngine, engineStep_inByte (loadByte_inByte h), engineStep_inByte h, this]

theorem runExchange_loadByte {s : State} (h : s.inByte) : runExchange (loadByte s) = runExchange s := by
  have : exchangeFuel (loadByte s) = exchangeFuel s := by unfold exchangeFuel; rw [(frame_loadByte s).snap]
  rw [runExchange, runExchange, this]
  exact runEngine_loadByte h _

/-- Inside a byte, a move of the sequencer that gets no tick loads the byte at most. -/
theorem runExchange_stall {s : State} {rest : List TransportDraw} (h : s.inByte)
    (ht : s.env.transport = .stall :: rest) : runExchange s = (loadByte s).script rest s.env.schedule := by
  rw [runExchange, exchangeFuel, runEngine, engineStep_inByte h, halfBit_stall ht]
  have hl : (loadByte s).env.transport = .stall :: rest := by rw [loadByte_env]; exact ht
  simp only [drawTransport_scripted hl, loadByte_env]

/-- The exchange that waits after `k` half-bit steps goes on, in a later move, to what it comes to with no wait. -/
theorem run_resume {s : State} (hb : Begun s) {k : Nat} {rest : List TransportDraw}
    (hk : k < 16 * (s.snap.len.toNat + s.snap.plen.toNat))
    (ht : s.env.transport = List.replicate k .tick ++ .stall :: rest) (Y : List Event) :
    (runExchange s).inByte ∧ (runExchange s).env.transport = rest ∧
      (runExchange s).env.schedule = s.env.schedule ∧ (runExchange s).seq = s.seq ∧
      runExchange ((runExchange s).script rest Y) = runExchange (s.script (List.replicate k .tick ++ rest) Y) := by
  have hdrop : s.env.transport.drop k = .stall :: rest := by rw [ht]; simp
  have htake : s.env.transport.take k = List.replicate k .tick := by rw [ht]; simp
  obtain ⟨u, m, hin, e, _⟩ := run_stall hb ⟨_, ht.symm⟩ hk hdrop
  have hu : u.env.transport = .stall :: rest := m.transport.trans hdrop
  have e' : runExchange s = (loadByte u).script rest u.env.schedule := by
    have hl : (loadByte u).env.transport = .stall :: rest := by rw [loadByte_env]; exact hu
    rw [e, drawTransport_scripted hl, loadByte_env]
  have hf := (m.frame).trans (frame_loadByte u)
  rw [e']
  refine ⟨loadByte_inByte hin, rfl, m.frame.schedule, hf.seq, ?_⟩
  rw [script_script, ← loadByte_script, runExchange_loadByte (s := u.script rest Y) hin]
  obtain ⟨pl, hfuel⟩ := midway_placed m hk
  have hs := m.scripted rest Y u.stepsLeft
  rw [htake, ← hfuel] at hs
  have h1 : exchangeFuel (s.script (List.replicate k .tick ++ rest) Y) = exchangeFuel s := rfl
  have h2 : exchangeFuel (u.script rest Y) = exchangeFuel s := by
    show exchangeFuel u = _
    unfold exchangeFuel; rw [m.frame.snap]
  rw [runExchange, runExchange, h1, h2, hs]
  exact runEngine_fuel _ _ (u.script rest Y) ⟨pl.bits, pl.select, pl.cmd, pl.payload⟩
    (by show u.stepsLeft ≤ _; omega) (Nat.le_refl _)

/-- Draws with a missing tick, up to the first one. -/
theorem ticksAndWaits_succ {draws : List TransportDraw} {n w : Nat} (h : ticksAndWaits draws n (w + 1)) :
    ∃ k rest, draws = List.replicate k .tick ++ .stall :: rest ∧ k ≤ n ∧
      ticksAndWaits (List.replicate k .tick ++ rest) n w := by
  induction draws generalizing n with
  | nil => obtain ⟨_, _, h⟩ := h; simp at h
  | cons d ds ih =>
    obtain ⟨h1, h2, h3⟩ := h
    cases d with
    | stall => exact ⟨0, ds, by simp, by omega, by simp at h1; simp; omega, by simpa using h2, by simpa using h3⟩
    | tick =>
      obtain ⟨n, rfl⟩ : ∃ m, n = m + 1 := ⟨n - 1, by simp at h2; omega⟩
      obtain ⟨k, rest, e, hk, a, b, c⟩ := ih (n := n) ⟨by simp at h1; omega, by simpa using h2, by simpa using h3⟩
      refine ⟨k + 1, rest, by simp [List.replicate_succ, e], by omega, ?_, ?_, ?_⟩
      · simp [List.replicate_succ] at a ⊢; omega
      · simpa [List.replicate_succ] using b
      · simpa [List.replicate_succ] using c
    | abort =>
      have : ds.count .tick + ds.count .stall ≤ ds.length := by
        clear ih h1 h2 h3
        induction ds with
        | nil => simp
        | cons d ds ih => cases d <;> simp <;> omega
      simp at h1 h2 h3
      omega

/-- Draws with no missing tick are ticks. -/
theorem ticksAndWaits_zero {draws : List TransportDraw} {n : Nat} (h : ticksAndWaits draws n 0) :
    draws = List.replicate n .tick := by
  obtain ⟨h1, h2, _⟩ := h
  rw [List.eq_replicate_iff]
  refine ⟨h1, fun b hb => ?_⟩
  have := List.count_eq_length.1 (h2.trans h1.symm) b hb
  exact this.symm

/-- While BUSY a move of the sequencer goes on with the exchange, whoever is named. -/
theorem sequencerStep_busy {s : State} (h : s.seq = .busy) (k : Nat) : sequencerStep k s = .next (runExchange s) := by
  unfold sequencerStep
  split
  · rfl
  · next hi => rw [h] at hi; cases hi

/-- An exchange that waits `w` times, each wait short of its last half-bit step, comes after `w` more moves of the
sequencer to what it comes to with no wait. -/
theorem run_waits (w : Nat) : ∀ {s : State} {n : Nat} {draws R : List TransportDraw}, Begun s → s.seq = .busy →
    ticksAndWaits draws n w → s.env.transport = draws ++ R → s.sequencerMoves w →
    (n < 16 * (s.snap.len.toNat + s.snap.plen.toNat) ∨
      (n = 16 * (s.snap.len.toNat + s.snap.plen.toNat) ∧ draws.getLast? ≠ some .stall)) →
    (0 < w → (runExchange s).seq = .busy) ∧
    Host.Core.run Sys2Proof.core w (runExchange s) =
      .next (runExchange (s.script (List.replicate n .tick ++ R) (s.env.schedule.drop w))) := by
  induction w with
  | zero =>
    intro s n draws R hb hs hd ht _ _
    refine ⟨fun h => absurd h (by omega), ?_⟩
    rw [← ticksAndWaits_zero hd, ← ht]
    rfl
  | succ w ih =>
    intro s n draws R hb hs hd ht hm hn
    obtain ⟨j, tl, hmoves⟩ := hm
    obtain ⟨k, rest, e, hkn, hd'⟩ := ticksAndWaits_succ hd
    have hk : k < 16 * (s.snap.len.toNat + s.snap.plen.toNat) := by
      rcases hn with hn | ⟨hn, hlast⟩
      · omega
      · rcases Nat.lt_or_ge k n with h | h
        · omega
        · exfalso
          have hkk : k = n := by omega
          obtain ⟨a, b, c⟩ := hd'
          have : rest.count .tick = 0 := by simp [hkk] at b; simpa using b
          cases hr : rest.getLast? with
          | none =>
            rw [List.getLast?_eq_none_iff] at hr
            rw [e, hr] at hlast; simp at hlast
          | some d =>
            have hl : draws.getLast? = some d := by
              rw [e, List.getLast?_append, List.getLast?_cons, hr]; simp
            rw [hl] at hlast
            have hmem := List.mem_of_getLast? hr
            have hsum : rest.count .stall = rest.length := by
              have h0 : (List.replicate k TransportDraw.tick).count .stall = 0 := by simp [List.count_replicate]
              rw [List.length_append, List.length_replicate] at a
              rw [List.count_append, h0] at c
              omega
            have := List.count_eq_length.1 hsum d hmem
            exact hlast (by rw [this])
    have ht' : s.env.transport = List.replicate k .tick ++ .stall :: (rest ++ R) := by rw [ht, e]; simp
    have hY : s.env.schedule = .serve j :: (List.replicate w (.serve j) ++ tl) := by
      rw [← hmoves, List.replicate_succ]; rfl
    obtain ⟨_, r2, r3, r4, r5⟩ := run_resume hb hk ht' (List.replicate w (.serve j) ++ tl)
    have hlast' : n < 16 * (s.snap.len.toNat + s.snap.plen.toNat) ∨ (n = 16 * (s.snap.len.toNat + s.snap.plen.toNat)
        ∧ (List.replicate k TransportDraw.tick ++ rest).getLast? ≠ some .stall) := by
      rcases hn with hn | ⟨hn, hlast⟩
      · exact .inl hn
      · refine .inr ⟨hn, fun h => hlast ?_⟩
        rw [e, List.getLast?_append, List.getLast?_cons]
        rw [List.getLast?_append] at h
        cases hr : rest.getLast? with
        | none => simp
        | some d => rw [hr] at h; simpa using h
    obtain ⟨_, i2⟩ := ih (s := s.script (List.replicate k .tick ++ rest ++ R) (List.replicate w (.serve j) ++ tl))
      ⟨hb.phase, hb.bitIdx, hb.half, hb.err, hb.outLen⟩ hs hd' rfl ⟨j, tl, rfl⟩ hlast'
    refine ⟨fun _ => r4.trans hs, ?_⟩
    have hstep : Sys2Proof.core.step (runExchange s) = .next
        (runExchange (s.script (List.replicate k .tick ++ (rest ++ R)) (List.replicate w (.serve j) ++ tl))) := by
      show step (runExchange s) = _
      rw [step, nextEvent_of_schedule (r3.trans hY)]
      show sequencerStep j _ = _
      refine (sequencerStep_busy (s := (runExchange s).script (runExchange s).env.transport
        (List.replicate w (.serve j) ++ tl)) (r4.trans hs) j).trans ?_
      rw [r2]
      exact congrArg Host.Outcome.next r5
    simp only [Host.Core.run, hstep]
    rw [List.append_assoc] at i2
    refine i2.trans ?_
    rw [hY]
    rfl

end Sys2Proof.Machine
end

