-- ==== Sys2Proof/Tests/Slice0.lean ====
section
/-! SUPPORT. Tests: encodings written out from 30_encoding R71 and R79, the checks of WellFormed, one or two steps of
each request from the vectors of 95_test_vectors, and a witness for the hypotheses of every statement. -/

namespace Sys2Proof.Tests

open Sys2Proof Sys2Proof.Machine

/-! ### States -/

/-- After reset, with the parameters of the vectors: `P_PAYLOAD_MAX = 31`, two hosts, all lines FREE. -/
def st : State := State.launch (Params.defaults 31 2) (PerLine.const .free)

/-- The same with the lines claimed. -/
def held : State :=
  { st with claimed := true, owner := PerLine.const .self, pin := ⟨.out false, .out false, .input, .input, .input⟩ }

/-- Claimed, `CMD_LEN = 1`, `CMD_BYTES[0] = 0x03`, `PAYLOAD_LEN = 2`, and what the agents outside will do. -/
def ready (ticks : List TransportDraw) (ends : List Bool) (answers : List Byte) : State :=
  { held with
    cmdLen := 1, cmdBytes := #v[0x03, 0x00, 0x00, 0x00], payloadLen := 2
    env := ⟨[], ticks, ends, answerLevels .msbFirst answers, 0⟩ }

/-- Scenario E6: every tick comes, and the peripheral answers 0x77, 0xA5, 0x5A. -/
def e6 : State := ready (List.replicate 48 .tick) [false] [0x77, 0xA5, 0x5A]

/-- Claimed, with nothing to send and nothing to read. -/
def emptyHeld : State := { held with env := ⟨[], [], [false], [], 0⟩ }

/-- An exchange that waits inside its first command byte, for a tick that does not come. -/
def waiting : State :=
  { e6 with
    seq := .busy, snap := ⟨1, e6.cmdBytes, 2⟩, pin := { e6.pin with cs := .out false }
    engine := { e6.engine with phase := .cmd, out := [0x03, 0x00, 0x00] }
    env := { e6.env with transport := [.stall, .stall], schedule := [.serve 0, .serve 0] }
    obs := { e6.obs with bus := [.select], pins := [.cs (some false)] } }

/-- Scenario E6 with a tick that does not come at once, before the first half-bit step and inside the second byte. -/
def e6Waits : State :=
  { e6 with env := { e6.env with
      transport := .stall :: (List.replicate 21 .tick ++ .stall :: List.replicate 27 .tick)
      schedule := List.replicate 2 (.serve 0) } }

/-- The waiting exchange between the edges of the third bit of its byte. -/
def waitingTrail : State :=
  { waiting with
    pin := { waiting.pin with sclk := .out true }
    engine := { waiting.engine with half := .trail, bitIdx := 2, shiftOut := 0x03, sampled := true } }

/-- Host 0 waits, in a text operation, for an answer that has come after one of another host. -/
def texting (op : TextOp) (learning : Bool) (r : Response) : State :=
  { st with
    jobs := [⟨0, op, 1, learning⟩]
    obs := { st.obs with responses := [(0, ⟨.ok, []⟩), (1, ⟨.ok, [0x01]⟩), (0, r), (1, ⟨.ok, [0x00]⟩)] } }

/-- One byte 0x03, LSB first, mode 0, with the samples of V-SER. -/
def lsb : State :=
  { held with
    params := { held.params with bitOrder := .lsbFirst }, cmdLen := 1, cmdBytes := #v[0x03, 0x00, 0x00, 0x00]
    env := ⟨[], List.replicate 16 .tick, [false], [true, false, false, false, false, false, false, false], 0⟩ }

/-- At the first bit of 0xA5 in mode 3. -/
def mode3 : State :=
  { held with
    params := { held.params with cpol := true, cpha := true }, pin := { held.pin with sclk := .out true }
    engine := { held.engine with phase := .cmd, shiftOut := 0xA5 }
    env := ⟨[], [], [], [true], 0⟩ }

/-- The state after a request. -/
def after (i : Instr) (s : State) : State :=
  match exec i s with
  | .next t => t
  | _ => s

/-- The state after a step. -/
def stepped (s : State) : State :=
  match step s with
  | .next t => t
  | _ => s

/-- The last response frame given. -/
def answer (s : State) : List Byte := (s.obs.responses.getLast?.map fun r => r.2.frame).getD []

/-! ### Decoding: words from the opcode map -/

theorem test_decode_numcmdWr : decode [0x10, 0x04] = .ok (.numcmdWr [0x04]) := by decide +kernel
theorem test_decode_numcmdRd : decode [0x20] = .ok (.numcmdRd []) := by decide +kernel
theorem test_decode_cmdWr : decode [0x30, 0x02, 0x9F, 0x01] = .ok (.cmdWr [0x02, 0x9F, 0x01]) := by decide +kernel
theorem test_decode_cmdRd : decode [0x40] = .ok (.cmdRd []) := by decide +kernel
theorem test_decode_numrwWr : decode [0x50, 0x1F] = .ok (.numrwWr [0x1F]) := by decide +kernel
theorem test_decode_numrwRd : decode [0x60] = .ok (.numrwRd []) := by decide +kernel
theorem test_decode_dataWr : decode [0x70, 0x10, 0x20] = .ok (.dataWr [0x10, 0x20]) := by decide +kernel
theorem test_decode_dataRd : decode [0x80] = .ok (.dataRd []) := by decide +kernel
theorem test_decode_lockWr : decode [0x90, 0x31] = .ok (.lockWr [0x31]) := by decide +kernel
theorem test_decode_lockRd : decode [0xA0] = .ok (.lockRd []) := by decide +kernel
theorem test_decode_status : decode [0xB0] = .ok (.status []) := by decide +kernel
theorem test_decode_reserved_op : decode [0x00] = .error .reservedOp ∧ decode [0xC0] = .error .reservedOp := by decide +kernel
theorem test_decode_reserved_sub : decode [0x1F, 0x04] = .error .reservedSub ∧ decode [0x81] = .error .reservedSub := by
  decide +kernel
theorem test_decode_not_presentable : decode [] = .error .noOpcode
    ∧ decode (0x90 :: List.replicate 256 0x00) = .error .tooLong := by decide +kernel
theorem test_encode_cmdWr : encode (.cmdWr [0x01, 0x03]) = [0x30, 0x01, 0x03] := by decide +kernel

/-- The table words: the opcode byte in bits 7 to 0, a first argument in bits 15 to 8. -/
theorem test_table_words : decodeTableWord 8 0x20 = some (.numcmdRd []) ∧ decodeTableWord 16 0x0410 = some (.numcmdWr [0x04])
    ∧ decodeTableWord 24 0x030130 = some (.cmdWr [0x01, 0x03]) ∧ decodeTableWord 8 0x11 = none := by decide +kernel

/-! ### WellFormed: each check refuses an ill-formed term -/

theorem test_wellFormed_refuses : Instr.wellFormed (.lockWr (List.replicate 256 0x00)) = false := by decide +kernel
theorem test_wellFormed_longest : Instr.wellFormed (.lockWr (List.replicate 255 0x00)) = true := by decide +kernel
theorem test_framePresentable_refuses : framePresentable [] = false
    ∧ framePresentable (List.replicate 257 0x90) = false := by decide +kernel
theorem test_formatOk_f0_refuses : ∀ i ∈ [Instr.numcmdRd [0x00], .cmdRd [0x00], .numrwRd [0x00], .dataRd [0x00],
    .lockRd [0x00], .status [0x00]], i.formatOk 31 0 = false := by decide +kernel
theorem test_formatOk_f1_refuses : ∀ i ∈ [Instr.numcmdWr [], .numcmdWr [0x04, 0x00], .numcmdWr [0x05],
    .numcmdWr [0x85], .numrwWr [], .numrwWr [0x20]], i.formatOk 31 0 = false := by decide +kernel
theorem test_formatOk_fn_refuses : ∀ i ∈ [Instr.cmdWr [], .cmdWr [0x02, 0x9F], .cmdWr [0x02, 0x9F, 0x01, 0x00],
    .cmdWr [0x05, 0x01, 0x02, 0x03, 0x04, 0x05]], i.formatOk 31 0 = false := by decide +kernel
theorem test_formatOk_fp_refuses : ∀ i ∈ [Instr.dataWr [], .dataWr [0x10], .dataWr [0x10, 0x20, 0x30]],
    i.formatOk 31 2 = false := by decide +kernel

/-! ### Requests (95_test_vectors V-CFG, V-XFER, V-ARB, V-DEC) -/

theorem test_numcmdWr_four : (after (.numcmdWr [0x04]) st).cmdLen = 4 ∧ answer (after (.numcmdWr [0x04]) st) = [0x00] := by
  decide +kernel
theorem test_numcmdWr_keeps_no_low_bits : (after (.numcmdWr [0x84]) st).cmdLen = 0
    ∧ answer (after (.numcmdWr [0x84]) st) = [0x01] := by decide +kernel
theorem test_numcmdRd_after_reset : answer (after (.numcmdRd []) st) = [0x00, 0x00] := by decide +kernel
theorem test_cmdWr_keeps_higher_cells :
    (after (.cmdWr [0x01, 0xAA]) (after (.cmdWr [0x04, 0x01, 0x02, 0x03, 0x04]) st)).cmdBytes.toList
      = [0xAA, 0x02, 0x03, 0x04] := by decide +kernel
theorem test_cmdWr_five_is_refused : answer (after (.cmdWr [0x05, 0x01, 0x02, 0x03, 0x04, 0x05]) st) = [0x01] := by decide +kernel
theorem test_cmdRd_stale_bytes : answer (after (.cmdRd []) { st with cmdLen := 3, cmdBytes := #v[0xAA, 0x02, 0x03, 0x04] })
    = [0x00, 0x03, 0xAA, 0x02, 0x03] := by decide +kernel
theorem test_numrwWr_largest : (after (.numrwWr [0x1F]) st).payloadLen = 31 ∧ answer (after (.numrwWr [0x1F]) st) = [0x00] := by
  decide +kernel
theorem test_numrwWr_too_large : (after (.numrwWr [0x20]) st).payloadLen = 0
    ∧ answer (after (.numrwWr [0x20]) st) = [0x01] := by decide +kernel
theorem test_numrwRd : answer (after (.numrwRd []) e6) = [0x00, 0x02] := by decide +kernel
theorem test_dataRd_e6 : (after (.dataRd []) e6).obs.bus
      = [.select, .byte 0x03 0x77, .byte 0x00 0xA5, .byte 0x00 0x5A, .deselect]
    ∧ answer (after (.dataRd []) e6) = [0x00, 0xA5, 0x5A] := by decide +kernel
theorem test_dataRd_abort_inside_a_byte :
    (after (.dataRd []) (ready (List.replicate 27 .tick ++ [.abort]) [] [0x77, 0xFF])).obs.bus
      = [.select, .byte 0x03 0x77, .abort 5, .deselect]
    ∧ answer (after (.dataRd []) (ready (List.replicate 27 .tick ++ [.abort]) [] [0x77, 0xFF])) = [0x02] := by
  decide +kernel
theorem test_dataWr_vector_2 :
    (after (.dataWr [0x10, 0x20]) { e6 with cmdBytes := #v[0x02, 0x00, 0x00, 0x00] }).obs.bus
      = [.select, .byte 0x02 0x77, .byte 0x10 0xA5, .byte 0x20 0x5A, .deselect]
    ∧ (after (.dataWr [0x10, 0x20]) e6).obs.ticks = 48 := by decide +kernel
theorem test_dataWr_unclaimed : answer (after (.dataWr []) st) = [0x03] ∧ answer (after (.dataWr [0x10]) st) = [0x01] := by
  decide +kernel
theorem test_lockRd_claims : answer (after (.lockRd []) st) = [0x00, 0x01]
    ∧ (after (.lockRd []) st).pin = ⟨.out false, .out false, .input, .input, .input⟩ := by decide +kernel
theorem test_lockRd_all_or_none : answer (after (.lockRd []) { st with owner := st.owner.set .rsv .other }) = [0x00, 0x00]
    ∧ (after (.lockRd []) { st with owner := st.owner.set .rsv .other }).owner = ⟨.free, .free, .free, .free, .other⟩ := by
  decide +kernel
theorem test_lockWr_releases : answer (after (.lockWr [0x31]) held) = [0x00]
    ∧ (after (.lockWr [0x31]) held).owner = PerLine.const .free := by decide +kernel
theorem test_lockWr_keeps_other :
    (after (.lockWr []) { st with owner := st.owner.set .rsv .other }).owner.rsv = .other := by decide +kernel
theorem test_status : answer (after (.status []) held) = [0x00, 0x01] ∧ answer (after (.status []) st) = [0x00, 0x00] := by
  decide +kernel

/-- Two missing ticks inside E6: two more moves of the sequencer end it, as E6 ends. -/
theorem test_dataRd_waits : (after (.dataRd []) e6Waits).seq = .busy
    ∧ (stepped (after (.dataRd []) e6Waits)).seq = .busy
    ∧ answer (stepped (stepped (after (.dataRd []) e6Waits))) = [0x00, 0xA5, 0x5A]
    ∧ (stepped (stepped (after (.dataRd []) e6Waits))).obs.bus
      = [.select, .byte 0x03 0x77, .byte 0x00 0xA5, .byte 0x00 0x5A, .deselect] := by decide +kernel

/-- Byte 0x03, LSB first, mode 0: the pin trace of V-SER. -/
theorem test_pins_lsb_first : (after (.dataRd []) lsb).obs.bus = [.select, .byte 0x03 0x01, .deselect]
    ∧ (after (.dataRd []) lsb).obs.pins
      = [.cs (some false), .mosi true, .sclk true, .sample true, .sclk false, .sclk true, .sample false, .sclk false,
         .mosi false, .sclk true, .sample false, .sclk false, .sclk true, .sample false, .sclk false,
         .sclk true, .sample false, .sclk false, .sclk true, .sample false, .sclk false,
         .sclk true, .sample false, .sclk false, .sclk true, .sample false, .sclk false, .cs none] := by
  decide +kernel

/-- Vector 13 on the pins: the group that CS(Z) cuts after five whole bits reads as `Abort(5)`. -/
theorem test_pins_of_an_abort :
    (let t := after (.dataRd []) (ready (List.replicate 27 .tick ++ [.abort]) [] [0x77, 0xFF])
     busView t.params (.between false false) t.obs.pins) = [.select, .byte 0x03 0x77, .abort 5, .deselect] := by
  decide +kernel

/-- A claim shows the levels it drives. -/
theorem test_pins_of_a_claim : (after (.lockRd []) st).obs.pins = [.sclk false, .mosi false] := by decide +kernel

/-- Between two writes the lines are released and claimed again, so MOSI falls with no step of an exchange: the pin trace
still tells the bytes. -/
theorem test_pins_tell_the_bytes_after_a_new_claim :
    (let s := { st with
       payloadLen := 1
       env := ⟨[], List.replicate 32 .tick, [false, false], answerLevels .msbFirst [0x77, 0x77], 0⟩ }
     let t := after (.dataWr [0x00]) (after (.lockRd []) (after (.lockWr []) (after (.dataWr [0xFF]) (after (.lockRd []) s))))
     busReading t.params t.obs.pins = [.select, .byte 0xFF 0x77, .deselect, .select, .byte 0x00 0x77, .deselect]
       ∧ t.obs.bus = busReading t.params t.obs.pins) := by decide +kernel

/-- With `P_CPOL = 1` the default claim drives SCLK high. -/
theorem test_lockRd_cpol_1 : (after (.lockRd []) (State.launch (Params.defaults 31 2 true) (PerLine.const .free))).pin
    = ⟨.out true, .out false, .input, .input, .input⟩ := by decide +kernel

/-- Wire bit 0 of 0xA5 in mode 3: `SCLK(0) MOSI(1) SCLK(1) S`. -/
theorem test_pins_mode_3 :
    (halfBitAct (halfBitAct mode3)).obs.pins = [.sclk false, .mosi true, .sclk true, .sample true] := by decide +kernel

/-! ### The text front-end (95_test_vectors V-TXT) -/

/-- Write `cmd` `2 0x9f 010` sends `CMD_WR 2, 0x9F, 0x08`. -/
theorem test_text_cmd_write :
    (submitText 0 (.write .cmd [0x32, 0x20, 0x30, 0x78, 0x39, 0x66, 0x20, 0x30, 0x31, 0x30]) st).pending
      = [⟨0, [0x30, 0x02, 0x9F, 0x08]⟩] := by decide +kernel
/-- A single value may be followed by one newline, and by no other white space. -/
theorem test_text_single_value : singleValue .auto [0x34, 0x0A] = some 4 ∧ singleValue .auto [0x34, 0x20] = none
    ∧ singleValue .auto [0x20, 0x34] = none ∧ singleValue .auto [0x34, 0x0A, 0x0A] = none := by decide +kernel
theorem test_text_output : byteList [0x9F, 0x08] = [0x30, 0x78, 0x39, 0x66, 0x20, 0x30, 0x78, 0x30, 0x38, 0x0A]
    ∧ byteList [] = [0x0A] ∧ decimalLine [0xFF] = [0x32, 0x35, 0x35, 0x0A] := by decide +kernel
/-- 15: read `data` prints the bytes read. -/
theorem test_text_data_read :
    (stepped (stepped (stepped { e6 with env := { e6.env with schedule := [.text 0 (.read .data), .serve 0, .front 0] } }))).obs.text
      = [(0, .output [0x30, 0x78, 0x61, 0x35, 0x20, 0x30, 0x78, 0x35, 0x61, 0x0A])] := by decide +kernel

/-! ### The first step after reset, on each opcode -/

theorem test_first_step_after_reset :
    [0x10, 0x20, 0x30, 0x40, 0x50, 0x60, 0x70, 0x80, 0x90, 0xA0, 0xB0].map
        (fun w => answer (stepped (State.reset.withFetchWord 8 w)))
      = [[0x00], [0x00, 0x00], [0x00], [0x00, 0x00], [0x00], [0x00, 0x00], [0x03], [0x03], [0x00], [0x00, 0x01],
         [0x00, 0x00]] := by decide +kernel

/-! ### Witnesses: for each statement with hypotheses, states and operands that meet them, clause by clause -/

theorem test_witness_ReservedOpcodesAreAnsweredIllegalOp :
    (∀ op ∈ [(0x00 : Byte), 0xC0, 0xF0], subField op = 0 ∧ ((opField op).toNat = 0 ∨ 0xC ≤ (opField op).toNat))
    ∧ (∀ op ∈ [(0x11 : Byte), 0xBF], subField op ≠ 0)
    ∧ (∀ op ∈ [(0x10 : Byte), 0xB0], ¬ (subField op ≠ 0 ∨ (opField op).toNat = 0x0 ∨ 0xC ≤ (opField op).toNat))
    ∧ (List.replicate 255 (0x00 : Byte)).length ≤ 255 := by decide +kernel

theorem test_witness_StepServesTheDecodedRequest :
    (let s := { st with pending := [⟨1, [0x10, 0x04]⟩], env := ⟨[.serve 1], [], [], [], 0⟩ }
     s.nextEvent.1 = .serve 1 ∧ s.nextEvent.2.seq = .idle ∧ s.nextEvent.2.requestOfHost 1 = some ⟨1, [0x10, 0x04]⟩
       ∧ decode [0x10, 0x04] = .ok (.numcmdWr [0x04]))
    ∧ waiting.nextEvent = (.serve 0, { waiting with env := { waiting.env with schedule := [.serve 0] } })
    ∧ waiting.seq = .busy ∧ waiting.env.schedule = .serve 0 :: [.serve 0] ∧ st.env.schedule = [] := by decide +kernel

theorem test_witness_MalformedFramesAreAnsweredParseError :
    Instr.formatOk st.params.payloadMax st.payloadLen.toNat (.numcmdWr [0x05]) = false
    ∧ Instr.formatOk st.params.payloadMax st.payloadLen.toNat (.numcmdWr [0x04]) = true := by decide +kernel

theorem test_witness_configuration_writes :
    (0x04 : Byte).toNat ≤ 4 ∧ 4 < (0x05 : Byte).toNat ∧ ([0x04, 0x00] : List Byte).length ≠ 1
    ∧ (List.replicate 254 (0x00 : Byte)).length < 255
    ∧ ([0x01, 0x02, 0x03, 0x04] : List Byte).length = (0x04 : Byte).toNat ∧ ([0x9F] : List Byte).length ≠ (0x02 : Byte).toNat
    ∧ (0x1F : Byte).toNat ≤ st.params.payloadMax ∧ st.params.payloadMax < (0x20 : Byte).toNat
    ∧ ([0x00] : List Byte) ≠ [] := by decide +kernel

theorem test_witness_RaisingTheLengthBringsOldBytesBack :
    (0x01 : Byte).toNat ≤ (0x04 : Byte).toNat ∧ (0x04 : Byte).toNat ≤ 4 ∧ ([0xAA] : List Byte).length = (0x01 : Byte).toNat := by
  decide +kernel

/-- The frames' premise, that exec answers a next state, holds of every request in every state. -/
theorem test_witness_frames (i : Instr) (s : State) : ∃ t, exec i s = .next t := by cases i <;> exact ⟨_, rfl⟩

theorem test_witness_free_lines : st.claimed = false ∧ (∀ l, st.owner.get l = .free) ∧ ∀ l, st.owner.get l ≠ .self :=
  ⟨rfl, fun l => by cases l <;> rfl, fun l => by cases l <;> decide⟩

theorem test_witness_held_lines : held.claimed = true ∧ (∀ l, held.owner.get l = .self) ∧ ∃ l, held.owner.get l ≠ .free :=
  ⟨rfl, fun l => by cases l <;> rfl, .sclk, by decide⟩

theorem test_witness_OnlyLockRequestsMoveTheClaim :
    (∀ a, Instr.dataRd [] ≠ .lockRd a) ∧ (∀ a, Instr.dataRd [] ≠ .lockWr a) ∧ ∃ a, Instr.lockRd [] = .lockRd a :=
  ⟨fun _ => by simp, fun _ => by simp, [], rfl⟩

theorem test_witness_ExternalConsumerNeverTouchesAnOwnedLine :
    ([Line.cs, .rsv] ≠ [] ∧ ∀ l ∈ [Line.cs, .rsv], st.owner.get l = .free)
    ∧ ¬ ([Line.cs] ≠ [] ∧ ∀ l ∈ [Line.cs], held.owner.get l = .free)
    ∧ ([Line.rsv] ≠ [] ∧ ∀ l ∈ [Line.rsv], (st.owner.set .rsv .other).get l = .other)
    ∧ ¬ ([Line.rsv] ≠ [] ∧ ∀ l ∈ [Line.rsv], st.owner.get l = .other) := by decide +kernel

theorem test_witness_DataRequestsCheckFrameThenClaim :
    ([0x00] : List Byte) ≠ [] ∧ ([0x10] : List Byte).length ≠ e6.payloadLen.toNat ∧ st.claimed = false
    ∧ ([] : List Byte).length = st.payloadLen.toNat ∧ e6.claimed = true
    ∧ ([0x10, 0x20] : List Byte).length = e6.payloadLen.toNat := by decide +kernel

/-- E6 meets every premise of the statements of an exchange that nothing disturbs, and of its pin trace. -/
theorem test_witness_undisturbed : e6.claimed = true ∧ e6.cmdLen.toNat ≤ cmdCap ∧ XferBuf.wf e6.xferBuf
    ∧ ([0x77] : List Byte).length = e6.cmdLen.toNat ∧ e6.undisturbed ([0x77] ++ [0xA5, 0x5A])
    ∧ e6.pin.cs ≠ .out e6.params.csActive ∧ ([0x10, 0x20] : List Byte).length = e6.payloadLen.toNat := by
  unfold State.undisturbed State.ticksCome State.peripheralAnswers
  decide +kernel

/-- The same with two missing ticks. -/
theorem test_witness_undisturbedButWaits : e6Waits.undisturbedButWaits ([0x77] ++ [0xA5, 0x5A]) 2
    ∧ e6Waits.claimed = true ∧ e6Waits.cmdLen.toNat ≤ cmdCap ∧ XferBuf.wf e6Waits.xferBuf
    ∧ ([0x77] : List Byte).length = e6Waits.cmdLen.toNat ∧ ([0x10, 0x20] : List Byte).length = e6Waits.payloadLen.toNat
    ∧ 0 < 2 := by
  refine ⟨⟨by decide +kernel, ⟨e6Waits.env.transport, List.prefix_rfl, ?_, by decide +kernel⟩, by decide +kernel, ?_,
    0, List.prefix_rfl⟩, by decide +kernel⟩
  · unfold ticksAndWaits; decide +kernel
  · unfold State.peripheralAnswers; decide +kernel

/-- With no bytes to exchange, after an abort that left SCLK high. -/
theorem test_witness_AnEmptyTransactionDrivesTheClockBack :
    let s := { emptyHeld with pin := { emptyHeld.pin with sclk := .out true } }
    s.claimed = true ∧ s.cmdLen = 0 ∧ s.payloadLen = 0 ∧ s.env.endAborts.head? = some false
      ∧ s.pin.sclk ≠ .out s.params.cpol ∧ s.pin.cs ≠ .out s.params.csActive := by decide +kernel

theorem test_witness_AnEmptyTransactionStillBracketsChipSelect :
    emptyHeld.claimed = true ∧ emptyHeld.cmdLen = 0 ∧ emptyHeld.payloadLen = 0
    ∧ emptyHeld.env.endAborts.head? = some false ∧ emptyHeld.pin.sclk = .out emptyHeld.params.cpol
    ∧ emptyHeld.pin.cs ≠ .out emptyHeld.params.csActive := by decide +kernel

/-- An abort, or a missing tick, at the last half-bit step of E6; CS is not asserted before. -/
theorem test_witness_abort_and_stall : ∀ d ∈ [TransportDraw.abort, .stall],
    let s := ready (List.replicate 47 .tick ++ [d]) [] []
    s.claimed = true ∧ s.pin.cs ≠ .out s.params.csActive ∧ s.cmdLen.toNat ≤ cmdCap ∧ ([0x10, 0x20] : List Byte).length = s.payloadLen.toNat
      ∧ 47 < 16 * s.exchangeBytes ∧ s.env.transport = List.replicate 47 .tick ++ d :: [] := by decide +kernel

/-- Two waits, the second at the half-bit step before which the exchange is aborted. -/
theorem test_witness_abort_after_waits :
    let draws : List TransportDraw := .stall :: (List.replicate 47 .tick ++ [.stall])
    let s := { ready (draws ++ [.abort]) [] [] with
      env := { (ready (draws ++ [TransportDraw.abort]) [] []).env with schedule := List.replicate 2 (.serve 1) } }
    ticksAndWaits draws 47 2 ∧ s.env.transport = draws ++ TransportDraw.abort :: [] ∧ s.sequencerMoves 2 ∧ s.claimed = true
      ∧ s.cmdLen.toNat ≤ cmdCap ∧ 47 < 16 * s.exchangeBytes ∧ 0 < 2 := by
  refine ⟨?_, by decide +kernel, ⟨1, List.prefix_rfl⟩, by decide +kernel⟩
  unfold ticksAndWaits; decide +kernel

/-- No tick between the edges of the third bit of the second byte, with a peripheral that answers. -/
theorem test_witness_AMissingTickLeavesTheExchangeInService :
    let s := ready (List.replicate 21 .tick ++ [.stall]) [] [0x77, 0xA5, 0x5A]
    s.claimed = true ∧ s.cmdLen.toNat ≤ cmdCap ∧ ([0x10, 0x20] : List Byte).length = s.payloadLen.toNat
      ∧ 21 < 16 * s.exchangeBytes ∧ s.env.transport = List.replicate 21 .tick ++ .stall :: []
      ∧ ([0x77, 0xA5, 0x5A] : List Byte).length = s.exchangeBytes ∧ s.peripheralAnswers [0x77, 0xA5, 0x5A]
      ∧ 21 % 2 = 1 ∧ s.params.cpha = false := by
  unfold State.peripheralAnswers
  decide +kernel

theorem test_witness_AnAbortAtTheEndAnswersIoError :
    let s := ready (List.replicate 48 .tick) [true] [0x77, 0xA5, 0x5A]
    s.claimed = true ∧ s.cmdLen.toNat ≤ cmdCap ∧ ([0x10, 0x20] : List Byte).length = s.payloadLen.toNat
      ∧ ([0x77, 0xA5, 0x5A] : List Byte).length = s.exchangeBytes ∧ s.ticksCome (16 * s.exchangeBytes)
      ∧ s.env.endAborts.head? = some true ∧ s.peripheralAnswers [0x77, 0xA5, 0x5A] := by
  unfold State.ticksCome State.peripheralAnswers
  decide +kernel

/-- At the first half-bit step of a byte, and inside it. -/
theorem test_witness_AStuckExchangeBlocksEveryHost : (∀ s ∈ [waiting, waitingTrail], s.seq = .busy
      ∧ (s.engine.phase = .cmd ∧ s.engine.byteIdx < s.snap.len.toNat)
      ∧ s.env.schedule = List.replicate 2 (.serve 0) ∧ s.env.transport = List.replicate 2 .stall ++ [])
    ∧ ¬ (waitingTrail.engine.bitIdx = 0 ∧ waitingTrail.engine.half = .lead) := by decide +kernel

/-- A move of the sequencer while BUSY, that waits and that answers. -/
theorem test_witness_moves_while_busy : waiting.seq = .busy ∧ (stepped waiting).seq = .busy
    ∧ (let s := { waiting with env := { waiting.env with transport := List.replicate 48 .tick } }
       s.seq = .busy ∧ ∃ t, eventStep (.serve 0) s = .next t ∧ t.seq = .idle) :=
  ⟨rfl, by decide +kernel, rfl, _, rfl, by decide +kernel⟩

/-- The claim of the data frames: an exchange makes bus events, and the lines are owned. -/
theorem test_witness_DataRequestsKeepConfigurationAndClaim :
    (after (.dataRd []) emptyHeld).obs.bus ≠ emptyHeld.obs.bus ∧ emptyHeld.ownersAgree = true
    ∧ Instr.formatOk emptyHeld.params.payloadMax emptyHeld.payloadLen.toNat (.dataRd []) = true
    ∧ (after (.dataRd []) emptyHeld).seq = .idle := by decide +kernel

theorem test_witness_LoopbackReadReturnsTheBytesWritten :
    let s := { held with
      payloadLen := 1
      env := ⟨[], List.replicate 32 .tick, [false, false], answerLevels .msbFirst [0x77] ++ answerLevels .msbFirst ([] ++ [0x11]), 0⟩ }
    s.claimed = true ∧ s.cmdLen.toNat ≤ cmdCap ∧ XferBuf.wf s.xferBuf ∧ ([0x11] : List Byte).length = s.payloadLen.toNat
      ∧ ([] : List Byte).length = s.cmdLen.toNat ∧ ([0x77] : List Byte).length = s.exchangeBytes
      ∧ s.ticksCome (16 * s.exchangeBytes + 16 * s.exchangeBytes) ∧ [false, false] <+: s.env.endAborts
      ∧ s.env.miso = answerLevels s.params.bitOrder [0x77] ++ answerLevels s.params.bitOrder ([] ++ [0x11]) ++ [] := by
  unfold State.ticksCome
  decide +kernel

/-- At the first bit, and at the eighth. -/
theorem test_witness_OneBitIsShiftedOnTwoClockEdges :
    ∀ s ∈ [mode3, { mode3 with engine := { mode3.engine with bitIdx := 7 } }], s.engine.half = .lead
      ∧ s.engine.bitIdx ≤ 7 ∧ s.pin.sclk = .out s.params.cpol ∧ s.env.miso = true :: [] := by decide +kernel

theorem test_witness_reset_clauses : st.seq = .idle ∧ waiting.seq = .busy ∧ (∀ l, held.owner.get l = .self)
    ∧ (∀ l, st.owner.get l ≠ .self) ∧ (∀ l, (PerLine.const Owner.free).get l ≠ .self) := by
  refine ⟨rfl, rfl, fun l => ?_, fun l => ?_, fun l => ?_⟩ <;> cases l <;> decide

/-- The machine of the vectors after reset meets the invariant, and a reset event is a step that keeps it. -/
theorem test_witness_invariant : st.params.legal = true ∧ st.Inv
    ∧ step { st with env := { st.env with schedule := [.reset] } } = .next st ∧ st.ownersAgree = true
    ∧ scanTrace .outside st.obs.bus = some st.tracePlace := by
  refine ⟨by decide +kernel, ⟨⟨by decide +kernel, by decide +kernel, by decide +kernel, by decide +kernel, by decide +kernel,
    by decide +kernel, fun _ => rfl, rfl⟩, ⟨by decide +kernel, by decide +kernel, by decide +kernel⟩,
    fun _ => by decide +kernel, fun h => by cases h⟩, rfl, by decide +kernel, by decide +kernel⟩

/-- An exchange in service meets the invariant too. -/
theorem test_witness_invariant_busy : waiting.Inv ∧ scanTrace .outside waiting.obs.bus = some waiting.tracePlace
    ∧ ∃ t, step waiting = .next t := by
  refine ⟨⟨⟨by decide +kernel, by decide +kernel, by decide +kernel, by decide +kernel, by decide +kernel,
    by decide +kernel, fun h => (by cases h), rfl⟩, ⟨by decide +kernel, by decide +kernel, by decide +kernel⟩,
    fun h => (by cases h), fun _ => ?_⟩, by decide +kernel, _, rfl⟩
  constructor <;> decide +kernel

/-- After reset, with a step that is possible, and inside an exchange, the pin trace tells the bus trace. -/
theorem test_witness_PinsTell : st.PinsTell ∧ waiting.PinsTell ∧ st.engine.phase ≠ .deselect ∧ .abort 0 ∉ waiting.obs.bus := by
  refine ⟨⟨fun _ => ⟨List.Sublist.refl _, rfl⟩, fun h => (by cases h), fun _ h => (by cases h), fun _ h => (by cases h),
    fun _ => rfl, fun h => ?_, fun h => absurd rfl h⟩,
    ⟨fun _ => ⟨List.Sublist.refl _, by decide +kernel⟩, fun h => (by cases h), by decide +kernel, by decide +kernel,
      fun h => ?_, fun _ => ⟨by decide +kernel, by decide +kernel, by decide +kernel, by decide +kernel, by decide +kernel⟩,
      fun _ _ _ => by decide +kernel⟩, by decide, by decide +kernel⟩
  · rcases h with h | h <;> cases h
  · rcases h with h | h <;> cases h

theorem test_witness_AHostHasAtMostOneOutstandingRequest :
    ({ st with pending := [⟨1, [0xA0]⟩] } : State).outstanding 1 = true ∧ st.outstanding 1 = false
    ∧ st.textBusy 1 = false ∧ 1 < st.params.nHosts ∧ 1 ≤ (List.replicate 256 (0x90 : Byte)).length
    ∧ (List.replicate 256 (0x90 : Byte)).length ≤ 256 := by decide +kernel

theorem test_witness_AnyWaitingRequestMayBeAcceptedNext :
    let s := { st with pending := [⟨0, [0xA0]⟩, ⟨1, [0xB0]⟩], env := { st.env with schedule := [.serve 1, .front 0] } }
    s.seq = .idle ∧ ⟨0, [0xA0]⟩ ∈ s.pending ∧ (s.pending.map Request.host).Nodup
      ∧ (∀ q ∈ s.pending, framePresentable q.frame = true) ∧ s.env.schedule.length = 2
      ∧ ∀ e ∈ s.env.schedule, e ≠ .serve 0 ∧ e ≠ .reset ∧ e ≠ .teardown := by decide +kernel

theorem test_witness_AnIdleBlockWaits :
    st.seq = .idle ∧ st.pending = [] ∧ { st with env := { st.env with schedule := [.serve 0] } }.nextEvent = (.serve 0, st) := by
  decide +kernel

/-- White space before a number, and a newline before another. -/
theorem test_witness_single_values_hold_no_white_space : (0x20 : Byte) ∈ ([0x20, 0x34] : List Byte)
    ∧ ([0x20, 0x34] : List Byte).getLast? ≠ some 0x0A ∧ (0x0A : Byte) ∈ ([0x34, 0x0A] : List Byte) := by decide +kernel

theorem test_witness_ATextParseFailureSendsNothing : st.hostFree 0 = true
    ∧ beginText st.params (.write .numcmd [0x20, 0x34]) = .done (.failed .parseError)
    ∧ singleValue st.params.parseMode.numcmd [0x20, 0x34] = none ∧ singleValue st.params.parseMode.numrw [] = none
    ∧ tokens [0x20] = [] ∧ tokens [0x6A] = [[0x6A]] ∧ byteToken st.params.parseMode.cmd [0x6A] = none
    ∧ byteToken st.params.parseMode.cmd [0x35] = some 0x05 ∧ 4 < (0x05 : Byte).toNat
    ∧ byteTokens st.params.parseMode.cmd (0x02 : Byte).toNat [[0x30, 0x78, 0x39, 0x66]] = none := by decide +kernel

theorem test_witness_ACmdWriteSendsCmdWr : st.hostFree 0 = true
    ∧ tokens [0x31, 0x20, 0x30, 0x78, 0x30, 0x33, 0x20, 0x6A] = [0x31] :: [[0x30, 0x78, 0x30, 0x33], [0x6A]]
    ∧ byteToken st.params.parseMode.cmd [0x31] = some 0x01 ∧ (0x01 : Byte).toNat ≤ 4
    ∧ byteTokens st.params.parseMode.cmd (0x01 : Byte).toNat [[0x30, 0x78, 0x30, 0x33], [0x6A]] = some [0x03] := by
  decide +kernel

/-- An answer that ends the operation; none yet; no operation. -/
theorem test_witness_TextFailuresFollowTheStatus :
    (let s := texting (.read .numcmd) false ⟨.ok, [0x04]⟩
     s.jobs.find? (fun j => j.host == 0) = some ⟨0, .read .numcmd, 1, false⟩
       ∧ s.obs.responses = [(0, ⟨.ok, []⟩)] ++ [(1, ⟨.ok, [0x01]⟩)] ++ (0, ⟨.ok, [0x04]⟩) :: [(1, ⟨.ok, [0x00]⟩)]
       ∧ ([(0, ⟨.ok, []⟩)] : List (Nat × Response)).length = 1
       ∧ (∀ q ∈ ([(1, ⟨.ok, [0x01]⟩)] : List (Nat × Response)), q.1 ≠ 0)
       ∧ answerText s.params (.read .numcmd) false ⟨.ok, [0x04]⟩ = .done (.output [0x34, 0x0A]))
    ∧ (let s := { texting (.read .numcmd) false ⟨.ok, [0x04]⟩ with jobs := [⟨0, .read .numcmd, 3, false⟩] }
       s.jobs.find? (fun j => j.host == 0) = some ⟨0, .read .numcmd, 3, false⟩
         ∧ ∀ q ∈ s.obs.responses.drop 3, q.1 ≠ 0)
    ∧ ∀ j ∈ st.jobs, j.host ≠ 0 := by decide +kernel

theorem test_witness_ADataWriteSendsItsFirstTokens :
    (let op := TextOp.write .data [0x37, 0x20, 0x6A]
     let s := texting op true ⟨.ok, [0x01]⟩
     s.jobs.find? (fun j => j.host == 0) = some ⟨0, op, 1, true⟩
       ∧ s.obs.responses = [(0, ⟨.ok, []⟩)] ++ [(1, ⟨.ok, [0x01]⟩)] ++ (0, ⟨.ok, [0x01]⟩) :: [(1, ⟨.ok, [0x00]⟩)]
       ∧ s.outstanding 0 = false)
    ∧ byteTokens st.params.parseMode.data (0x01 : Byte).toNat (tokens [0x37, 0x20, 0x6A]) = some [0x07]
    ∧ byteTokens st.params.parseMode.data (0x02 : Byte).toNat (tokens [0x37, 0x20, 0x6A]) = none := by decide +kernel

theorem test_witness_TextOperationsSendTheirRequests : singleValue st.params.parseMode.numcmd [0x34, 0x0A] = some 4
    ∧ singleValue st.params.parseMode.numrw [0x30] = some 0 ∧ ([0x34] : List Byte).getLast? ≠ some 0x0A
    ∧ st.hostFree 0 = true ∧ beginText st.params (.write .lock []) = .send (.lockWr []) false := by decide +kernel

/-- The first and the last wire bit. -/
theorem test_witness_WireBitsPutTheByteTogether : (0 : Nat) < 8 ∧ (7 : Nat) < 8 := by decide +kernel

/-- Two states that agree on the command buffer and the parameters, one of them claimed. -/
theorem test_witness_ConfigurationRequestsUseTheCommandBufferAlone : held.params = st.params
    ∧ held.cmdBytes = st.cmdBytes ∧ held.cmdLen = st.cmdLen ∧ held.payloadLen = st.payloadLen ∧ held.claimed ≠ st.claimed := by
  decide +kernel

/-- The defaults of both values of `P_CPOL`. -/
theorem test_witness_AClaimSelectsNoPeripheralAndLeavesMisoAnInput : ∀ cpol ∈ [false, true],
    let s := State.launch (Params.defaults 31 2 cpol) (PerLine.const .free)
    s.params.legal = true ∧ s.claimed = false ∧ s.params.lineInit = lineInitDefault s.params.cpol
      ∧ s.params.cpol = cpol ∧ s.pin = PerLine.const .input := by decide +kernel

end Sys2Proof.Tests
end

section
/-! PROOF. Every step only adds to the observation and leaves the parameters alone (00_scope R8, R14). -/

namespace Sys2Proof.Machine

/-- From `s` to `t` the parameters stay, each trace only grows at its end, and the tick count
does not fall. -/
structure OnlyAdds (s t : State) : Prop where
  params    : t.params = s.params
  responses : s.obs.responses <+: t.obs.responses
  bus       : s.obs.bus <+: t.obs.bus
  pins      : s.obs.pins <+: t.obs.pins
  text      : s.obs.text <+: t.obs.text
  ticks     : s.obs.ticks ≤ t.obs.ticks

namespace OnlyAdds

/-- An operation that leaves the parameters and the observation alone. -/
theorem of_obs_eq {s t : State} (hp : t.params = s.params) (ho : t.obs = s.obs) : OnlyAdds s t := by
  constructor <;> simp [hp, ho]

theorem refl (s : State) : OnlyAdds s s := of_obs_eq rfl rfl

theorem trans {s t u : State} (h : OnlyAdds s t) (k : OnlyAdds t u) : OnlyAdds s u where
  params    := k.params.trans h.params
  responses := h.responses.trans k.responses
  bus       := h.bus.trans k.bus
  pins      := h.pins.trans k.pins
  text      := h.text.trans k.text
  ticks     := h.ticks.trans k.ticks

/-- What is done next to the rest of the state changes nothing. -/
theorem then_obs_eq {s t u : State} (h : OnlyAdds s t) (hp : u.params = t.params) (ho : u.obs = t.obs) :
    OnlyAdds s u :=
  h.trans (of_obs_eq hp ho)

/-- What was done before to the rest of the state changes nothing. -/
theorem after_obs_eq {s t u : State} (k : OnlyAdds t u) (hp : t.params = s.params) (ho : t.obs = s.obs) :
    OnlyAdds s u :=
  (of_obs_eq hp ho).trans k

end OnlyAdds

/-! ### The traces, the pins and the answers -/

theorem onlyAdds_trace (e : BusEvent) (s : State) : OnlyAdds s (s.trace e) := by constructor <;> simp

theorem onlyAdds_tracePin (e : PinEvent) (s : State) : OnlyAdds s (s.tracePin e) := by constructor <;> simp

theorem onlyAdds_countTick (s : State) : OnlyAdds s s.countTick := by constructor <;> simp

theorem onlyAdds_respond (st : Status) (r : List Byte) (s : State) : OnlyAdds s (respond st r s) := by
  constructor <;> simp

theorem onlyAdds_raise (st : Status) (s : State) : OnlyAdds s (raise st s) := onlyAdds_respond st [] s

/-- A line that already has its level adds nothing, any other one pin event (43_serializer R145). -/
theorem onlyAdds_setLine {c : Prop} [Decidable c] {e : PinEvent} {s t : State} (hp : t.params = s.params)
    (ho : t.obs = s.obs) : OnlyAdds s (if c then s else t.tracePin e) := by
  split
  · exact .refl s
  · exact (onlyAdds_tracePin e t).after_obs_eq hp ho

theorem onlyAdds_driveSclk (v : Bool) (s : State) : OnlyAdds s (s.driveSclk v) := onlyAdds_setLine rfl rfl

theorem onlyAdds_driveMosi (v : Bool) (s : State) : OnlyAdds s (s.driveMosi v) := onlyAdds_setLine rfl rfl

theorem onlyAdds_driveCs (v : Bool) (s : State) : OnlyAdds s (s.driveCs v) := onlyAdds_setLine rfl rfl

theorem onlyAdds_floatCs (s : State) : OnlyAdds s s.floatCs := onlyAdds_setLine rfl rfl

/-! ### The engine -/

theorem onlyAdds_sampleMiso (s : State) : OnlyAdds s (sampleMiso s) :=
  (onlyAdds_tracePin (.sample s.drawMiso.1) _).after_obs_eq (drawMiso_params s) (drawMiso_obs s)

theorem onlyAdds_leadStep (s : State) : OnlyAdds s (leadStep s) := by
  unfold leadStep
  dsimp only
  split
  · exact ((onlyAdds_driveSclk _ _).trans (onlyAdds_driveMosi _ _)).then_obs_eq rfl rfl
  · exact (((onlyAdds_driveMosi _ _).trans (onlyAdds_driveSclk _ _)).trans (onlyAdds_sampleMiso _)).then_obs_eq rfl rfl

theorem onlyAdds_trailStep (s : State) : OnlyAdds s (trailStep s) := by
  unfold trailStep
  dsimp only
  split
  · exact ((onlyAdds_driveSclk _ _).trans (onlyAdds_sampleMiso _)).then_obs_eq rfl rfl
  · exact (onlyAdds_driveSclk _ _).then_obs_eq rfl rfl

theorem onlyAdds_byteDone (s : State) : OnlyAdds s (byteDone s) := by
  by_cases h : s.engine.bitIdx = 8
  · have traced := onlyAdds_trace (.byte s.engine.shiftOut s.engine.shiftIn) s
    unfold byteDone
    rw [if_pos h]
    dsimp only
    split <;> exact traced.then_obs_eq rfl rfl
  · rw [byteDone_not h]; exact .refl s

theorem onlyAdds_halfBitAct (s : State) : OnlyAdds s (halfBitAct s) := by
  unfold halfBitAct
  split
  · exact onlyAdds_leadStep s
  · exact (onlyAdds_trailStep s).trans (onlyAdds_byteDone _)

theorem onlyAdds_abortAt (b : Nat) (s : State) : OnlyAdds s (abortAt b s) :=
  (onlyAdds_trace (.abort b) s).then_obs_eq rfl rfl

theorem onlyAdds_halfBit (s : State) : OnlyAdds s (halfBit s).state := by
  have drawn : OnlyAdds s (loadByte s).drawTransport.2 := .of_obs_eq (by simp) (by simp)
  unfold halfBit
  dsimp only
  split
  · exact drawn
  · exact (drawn.trans (onlyAdds_countTick _)).trans (onlyAdds_abortAt _ _)
  · exact (drawn.trans (onlyAdds_countTick _)).trans (onlyAdds_halfBitAct _)

theorem onlyAdds_selectStep (s : State) : OnlyAdds s (selectStep s) :=
  (((onlyAdds_driveSclk _ _).trans (onlyAdds_driveCs _ _)).trans (onlyAdds_trace .select _)).then_obs_eq rfl rfl

theorem onlyAdds_endStep (s : State) : OnlyAdds s (endStep s) := by
  have drawn : OnlyAdds s s.drawEndAbort.2 := .of_obs_eq (by simp) (by simp)
  unfold endStep
  dsimp only
  split
  · exact drawn.trans (onlyAdds_abortAt 0 _)
  · exact drawn.then_obs_eq rfl rfl

theorem onlyAdds_deselectStep (s : State) : OnlyAdds s (deselectStep s) :=
  ((onlyAdds_floatCs s).trans (onlyAdds_trace .deselect _)).then_obs_eq rfl rfl

theorem onlyAdds_engineStep (s : State) : OnlyAdds s (engineStep s).state := by
  unfold engineStep
  split
  case h_1 => exact .refl s
  case h_2 => exact onlyAdds_selectStep s
  case h_3 =>
    split
    · exact onlyAdds_halfBit s
    · exact .of_obs_eq rfl rfl
  case h_4 =>
    split
    · exact onlyAdds_halfBit s
    · exact onlyAdds_endStep s
  case h_5 => exact onlyAdds_deselectStep s

theorem onlyAdds_finishExchange (s : State) : OnlyAdds s (finishExchange s) := by
  obtain ⟨st, r, e, -⟩ := finishExchange_eq s
  rw [e]
  exact (onlyAdds_respond st r s.clearErr).after_obs_eq rfl rfl

theorem onlyAdds_runExchange (s : State) : OnlyAdds s (runExchange s) := by
  rcases runEngine_keeps (OnlyAdds s) (fun t h _ => h.trans (onlyAdds_engineStep t)) (exchangeFuel s) s (.refl s)
    with h | ⟨u, h, -, e⟩
  · exact h
  · unfold runExchange
    rw [e]
    exact (h.trans (onlyAdds_deselectStep u)).trans (onlyAdds_finishExchange _)

/-! ### The requests -/

theorem onlyAdds_claim (s : State) : OnlyAdds s (claim s).2 := by
  rcases claim_cases s with ⟨-, -, e⟩ | ⟨-, e⟩
  · rw [e]; constructor <;> simp
  · rw [e]; exact .refl s

/-- A request that is answered at once, when what it does before its answer leaves the parameters and the observation
alone. -/
theorem onlyAdds_answer {st : Status} {r : List Byte} {s u : State} (hp : u.params = s.params) (ho : u.obs = s.obs) :
    OnlyAdds s (respond st r u) :=
  (onlyAdds_respond st r u).after_obs_eq hp ho

theorem onlyAdds_dataRequest {args : List Byte} {s t : State} {i : Instr} (hi : i ∈ [Instr.dataRd args, .dataWr args])
    (h : exec i s = .next t) : OnlyAdds s t := by
  rcases dataRequest_cases hi h with ⟨st, rfl⟩ | ⟨-, -, d, p, -, -, rfl⟩
  · exact onlyAdds_raise st s
  · exact (onlyAdds_runExchange (beginExchange d p s)).after_obs_eq rfl rfl

theorem onlyAdds_exec {i : Instr} {s t : State} (h : exec i s = .next t) : OnlyAdds s t := by
  cases i with
  | dataWr args => exact onlyAdds_dataRequest (args := args) (by simp) h
  | dataRd args => exact onlyAdds_dataRequest (args := args) (by simp) h
  | lockWr args => cases h; exact onlyAdds_answer rfl rfl
  | lockRd args =>
    cases h
    split
    · exact (onlyAdds_claim s).trans (onlyAdds_respond ..)
    · exact onlyAdds_raise ..
  | numcmdWr args | numcmdRd args | cmdWr args | cmdRd args | numrwWr args | numrwRd args | status args =>
    cases h
    split <;> exact onlyAdds_answer rfl rfl

/-! ### The agents -/

theorem onlyAdds_serve {r : Request} {s t : State} (h : serve r s = .next t) : OnlyAdds s t := by
  unfold serve at h
  split at h
  · exact onlyAdds_exec h
  · cases h; exact onlyAdds_raise ..
  · cases h; exact onlyAdds_raise ..
  · cases h
  · cases h

theorem onlyAdds_sequencerStep {k : Nat} {s t : State} (h : sequencerStep k s = .next t) : OnlyAdds s t := by
  rcases sequencerStep_cases k s with ⟨-, e⟩ | ⟨-, -, e⟩ | ⟨-, r, -, -, e⟩ <;> rw [e] at h
  · cases h; exact onlyAdds_runExchange s
  · cases h; exact .refl s
  · exact (onlyAdds_serve h).after_obs_eq rfl rfl

theorem onlyAdds_enqueue (k : Nat) (f : List Byte) (s : State) : OnlyAdds s (enqueue k f s) := by
  unfold enqueue
  split <;> exact .of_obs_eq rfl rfl

theorem onlyAdds_submitFrame (k : Nat) (f : List Byte) (s : State) : OnlyAdds s (submitFrame k f s) := by
  unfold submitFrame
  split
  · exact onlyAdds_enqueue k f s
  · exact .refl s

theorem onlyAdds_frontAct (k : Nat) (op : TextOp) (a : FrontAction) (s : State) : OnlyAdds s (frontAct k op a s) := by
  cases a with
  | send i learning => exact (onlyAdds_enqueue k (encode i) _).after_obs_eq rfl rfl
  | done r => constructor <;> simp [frontAct]

theorem onlyAdds_submitText (k : Nat) (op : TextOp) (s : State) : OnlyAdds s (submitText k op s) := by
  unfold submitText
  split
  · exact onlyAdds_frontAct ..
  · exact .refl s

theorem onlyAdds_frontStep (k : Nat) (s : State) : OnlyAdds s (frontStep k s) := by
  unfold frontStep frontStepJob
  split
  · split
    · exact onlyAdds_frontAct ..
    · exact .refl s
  · exact .refl s

theorem onlyAdds_externalTake (lines : List Line) (s : State) : OnlyAdds s (externalTake lines s) := by
  rcases externalTake_cases lines s with ⟨-, e⟩ | ⟨-, e⟩ <;> rw [e] <;> exact .of_obs_eq rfl rfl

theorem onlyAdds_externalGive (lines : List Line) (s : State) : OnlyAdds s (externalGive lines s) := by
  rcases externalGive_cases lines s with ⟨-, e⟩ | ⟨-, e⟩ <;> rw [e] <;> exact .of_obs_eq rfl rfl

theorem onlyAdds_eventStep {e : Event} {s t : State} (h : eventStep e s = .next t) : OnlyAdds s t := by
  cases e with
  | submit k frame => cases h; exact onlyAdds_submitFrame k frame s
  | text k op => cases h; exact onlyAdds_submitText k op s
  | front k => cases h; exact onlyAdds_frontStep k s
  | serve k => exact onlyAdds_sequencerStep h
  | take lines => cases h; exact onlyAdds_externalTake lines s
  | give lines => cases h; exact onlyAdds_externalGive lines s
  | reset =>
    simp only [eventStep] at h
    split at h
    · cases h; exact .of_obs_eq rfl rfl
    · cases h
  | teardown => cases h

theorem onlyAdds_step {s t : State} (h : step s = .next t) : OnlyAdds s t :=
  (onlyAdds_eventStep h).after_obs_eq (nextEvent_params s) (nextEvent_obs s)

/-- Settles O48: every move of an agent only adds, and taking the move off the schedule leaves the observation alone. -/
theorem everyStepOnlyAddsToTheObservation : Obligations.EveryStepOnlyAddsToTheObservation := by
  intro s t h
  obtain ⟨params, responses, bus, pins, text, ticks⟩ := onlyAdds_step h
  exact ⟨params, responses, bus, pins, text, ticks⟩

end Sys2Proof.Machine
end

section
/-! PROOF. The machine after reset has the values of the spec (10_state R38), and `CLAIMED` and the owner table agree there
and after every step (10_state R30). -/

namespace Sys2Proof.Machine

/-! ### What the hosts and their front-ends can change -/

/-- From `s` to `t` at most `PENDING`, the text operations and the observation change. -/
def HostsOnly (s t : State) : Prop := t = { s with pending := t.pending, jobs := t.jobs, obs := t.obs }

theorem hostsOnly_enqueue (k : Nat) (f : List Byte) (s : State) : HostsOnly s (enqueue k f s) := by
  unfold enqueue
  split <;> rfl

theorem hostsOnly_submitFrame (k : Nat) (f : List Byte) (s : State) : HostsOnly s (submitFrame k f s) := by
  unfold submitFrame
  split
  · exact hostsOnly_enqueue k f s
  · rfl

theorem hostsOnly_frontAct (k : Nat) (op : TextOp) (a : FrontAction) (s : State) : HostsOnly s (frontAct k op a s) := by
  cases a with
  | send i learning => exact hostsOnly_enqueue k (encode i) _
  | done r => rfl

theorem hostsOnly_submitText (k : Nat) (op : TextOp) (s : State) : HostsOnly s (submitText k op s) := by
  unfold submitText
  split
  · exact hostsOnly_frontAct ..
  · rfl

theorem hostsOnly_frontStep (k : Nat) (s : State) : HostsOnly s (frontStep k s) := by
  unfold frontStep frontStepJob
  split
  · split
    · exact hostsOnly_frontAct ..
    · rfl
  · rfl

/-! ### The claim and the owners, move by move -/

/-- The agreement depends on the claim and on which lines are SELF, and on nothing else. -/
theorem ownersAgree_congr {s t : State} (hc : t.claimed = s.claimed)
    (ho : ∀ l, t.owner.get l = .self ↔ s.owner.get l = .self) : t.ownersAgree = s.ownersAgree := by
  rw [Bool.eq_iff_iff, ownersAgree_iff, ownersAgree_iff]
  simp only [hc, ho, ne_eq]

theorem ownersAgree_iff_claimed (s : State) : s.ownersAgree = true ↔
    ((s.claimed = true ↔ ∀ l, s.owner.get l = .self) ∧ (s.claimed = false ↔ ∀ l, s.owner.get l ≠ .self)) := by
  have exclusive : (∀ l, s.owner.get l = .self) → ¬ ∀ l, s.owner.get l ≠ .self := fun h k => k .sclk (h .sclk)
  rw [ownersAgree_iff]
  cases s.claimed
  · simpa using fun h k => exclusive k h
  · simpa using exclusive

theorem ownersAgree_frame {s t : State} (f : EngineFrame s t) : t.ownersAgree = s.ownersAgree :=
  ownersAgree_congr f.claimed fun l => by rw [f.owner]

theorem ownersAgree_hostsOnly {s t : State} (h : HostsOnly s t) : t.ownersAgree = s.ownersAgree := by rw [h]; rfl

theorem ownersAgree_claim {s : State} (h : s.ownersAgree = true) : (claim s).2.ownersAgree = true := by
  rcases claim_cases s with ⟨-, -, e⟩ | ⟨-, e⟩ <;> rw [e]
  · simp [ownersAgree_iff]
  · exact h

theorem ownersAgree_release (s : State) : (release s).ownersAgree = true :=
  (ownersAgree_iff _).2 (.inr ⟨rfl, release_none_self s⟩)

theorem ownersAgree_runExchange (s : State) : (runExchange s).ownersAgree = s.ownersAgree := by
  unfold runExchange
  rcases runEngine_spec (exchangeFuel s) s with f | ⟨u, f, -, e⟩
  · exact ownersAgree_frame f
  · obtain ⟨st, r, e', -⟩ := finishExchange_eq (deselectStep u)
    rw [e, e']
    exact ownersAgree_frame (t := (deselectStep u).clearErr) ((f.trans (frame_deselectStep u)).trans (frame_clearErr _))

theorem ownersAgree_dataRequest {args : List Byte} {s t : State} {i : Instr}
    (hi : i ∈ [Instr.dataRd args, .dataWr args]) (h : exec i s = .next t) : t.ownersAgree = s.ownersAgree := by
  rcases dataRequest_cases hi h with ⟨st, rfl⟩ | ⟨-, -, d, p, -, -, rfl⟩
  · rfl
  · exact ownersAgree_runExchange (beginExchange d p s)

theorem ownersAgree_exec {i : Instr} {s t : State} (ha : s.ownersAgree = true) (h : exec i s = .next t) :
    t.ownersAgree = true := by
  cases i with
  | dataWr args => rw [ownersAgree_dataRequest (args := args) (by simp) h, ha]
  | dataRd args => rw [ownersAgree_dataRequest (args := args) (by simp) h, ha]
  | lockWr args => cases h; exact ownersAgree_release s
  | lockRd args =>
    cases h
    split
    · exact ownersAgree_claim ha
    · exact ha
  | numcmdWr args | numcmdRd args | cmdWr args | cmdRd args | numrwWr args | numrwRd args | status args =>
    cases h
    split <;> exact ha

theorem ownersAgree_serve {r : Request} {s t : State} (ha : s.ownersAgree = true) (h : serve r s = .next t) :
    t.ownersAgree = true := by
  unfold serve at h
  split at h
  · exact ownersAgree_exec ha h
  · cases h; exact ha
  · cases h; exact ha
  · cases h
  · cases h

theorem ownersAgree_sequencerStep {k : Nat} {s t : State} (ha : s.ownersAgree = true)
    (h : sequencerStep k s = .next t) : t.ownersAgree = true := by
  rcases sequencerStep_cases k s with ⟨-, e⟩ | ⟨-, -, e⟩ | ⟨-, r, -, -, e⟩ <;> rw [e] at h
  · cases h; rw [ownersAgree_runExchange, ha]
  · cases h; exact ha
  · exact ownersAgree_serve (s := accept r s) ha h

theorem ownersAgree_externalTake (lines : List Line) (s : State) :
    (externalTake lines s).ownersAgree = s.ownersAgree := by
  refine ownersAgree_congr ?_ (externalTake_self lines s)
  rcases externalTake_cases lines s with ⟨-, e⟩ | ⟨-, e⟩ <;> rw [e]

theorem ownersAgree_externalGive (lines : List Line) (s : State) :
    (externalGive lines s).ownersAgree = s.ownersAgree := by
  refine ownersAgree_congr ?_ (externalGive_self lines s)
  rcases externalGive_cases lines s with ⟨-, e⟩ | ⟨-, e⟩ <;> rw [e]

/-- Everything a reset event can do: it resets the block, when the block is IDLE (70_reset_and_hazards R230, R231). -/
theorem eventStep_reset_next {s t : State} (h : eventStep .reset s = .next t) : s.seq = .idle ∧ t = resetBlock s := by
  simp only [eventStep] at h
  split at h
  · next hi => cases h; exact ⟨hi, rfl⟩
  · cases h

theorem ownersAgree_eventStep {e : Event} {s t : State} (ha : s.ownersAgree = true) (h : eventStep e s = .next t) :
    t.ownersAgree = true := by
  cases e with
  | submit k frame => cases h; rw [ownersAgree_hostsOnly (hostsOnly_submitFrame ..), ha]
  | text k op => cases h; rw [ownersAgree_hostsOnly (hostsOnly_submitText ..), ha]
  | front k => cases h; rw [ownersAgree_hostsOnly (hostsOnly_frontStep ..), ha]
  | serve k => exact ownersAgree_sequencerStep ha h
  | take lines => cases h; rw [ownersAgree_externalTake, ha]
  | give lines => cases h; rw [ownersAgree_externalGive, ha]
  | reset =>
    obtain ⟨-, rfl⟩ := eventStep_reset_next h
    exact ownersAgree_release s
  | teardown => cases h

/-! ### The launch -/

/-- The launch frees the lines of SELF and leaves every other line to its owner (70_reset_and_hazards R232). -/
theorem launch_owner (p : Params) (pool : PerLine Owner) (l : Line) :
    (State.launch p pool).owner.get l = releasedOwner (pool.get l) := PerLine.get_map _ pool l

theorem launch_none_self (p : Params) (pool : PerLine Owner) (l : Line) :
    (State.launch p pool).owner.get l ≠ .self := by
  rw [launch_owner, releasedOwner]
  split
  · simp
  · assumption

theorem ownersAgree_launch (p : Params) (pool : PerLine Owner) : (State.launch p pool).ownersAgree = true :=
  (ownersAgree_iff _).2 (.inr ⟨rfl, launch_none_self p pool⟩)

/-- Settles O46: a claim takes all five lines and a release leaves none, and no other move takes a line from SELF or
gives it one. -/
theorem everyStepKeepsClaimAndOwnersAgreeing : Obligations.EveryStepKeepsClaimAndOwnersAgreeing := by
  refine ⟨ownersAgree_iff_claimed, ownersAgree_launch, fun s t ha h => ownersAgree_eventStep ?_ h⟩
  rw [ownersAgree_congr (nextEvent_claimed s) fun l => by rw [nextEvent_owner], ha]

/-- Settles O42: the launch writes the values of the spec, and frees the lines of SELF. -/
theorem launchHasTheResetValues : Obligations.LaunchHasTheResetValues := by
  intro p pool
  refine ⟨rfl, rfl, rfl, rfl, rfl, rfl, rfl, PerLine.get_const Pin.input, launch_none_self p pool, fun l hl => ?_⟩
  rw [launch_owner, releasedOwner, if_neg hl]

end Sys2Proof.Machine
end

section
/-! PROOF. What the sequencer's turn does, what a submission does, and the stale command bytes. -/

namespace Sys2Proof.Machine

/-- Settles O5: the equations of `step`, one for each form of the next move. -/
theorem stepServesTheDecodedRequest : Obligations.StepServesTheDecodedRequest := by
  refine ⟨fun s t k r i hn hi hr hd => ?_, fun s t k hn hb => ?_, fun s e rest h => ?_, fun s h => ?_⟩
  · have accepted : sequencerStep k t = serve r (accept r t) := by simp [sequencerStep, hi, hr]
    have decoded : serve r (accept r t) = exec i (accept r t) := by simp [serve, hd]
    rw [step, hn]
    exact accepted.trans decoded
  · rw [step, hn]
    exact sequencerStep_busy hb k
  · rw [step, nextEvent_of_schedule h]
  · rw [step, nextEvent_of_nil h]

theorem framePresentable_iff (f : List Byte) : framePresentable f = true ↔ 1 ≤ f.length ∧ f.length ≤ 256 := by
  simp [framePresentable]

/-- Settles O50: a submission asks whether the host waits, and then whether the port can deliver the frame. -/
theorem aHostHasAtMostOneOutstandingRequest : Obligations.AHostHasAtMostOneOutstandingRequest := by
  intro s k f
  refine ⟨fun ho => ?_, fun ho ht hk h1 h256 => ?_⟩
  · have busy : s.hostFree k = false := by simp [State.hostFree, ho]
    simp [eventStep, submitFrame, busy]
  · have free : s.hostFree k = true := (hostFree_iff s k).2 ⟨hk, ho, ht⟩
    have sent : framePresentable f = true := (framePresentable_iff f).2 ⟨h1, h256⟩
    simp [eventStep, submitFrame, enqueue, free, sent, ho]

/-! ### The command buffer -/

/-- `CMD_LEN` holds a legal length unchanged (41_config R100). -/
theorem extractLsb_length_toNat {v : Byte} (h : v.toNat ≤ cmdCap) : (v.extractLsb' 0 3).toNat = v.toNat := by
  simp only [cmdCap] at h
  simp only [BitVec.extractLsb'_toNat, Nat.shiftRight_zero]
  omega

theorem zext8_length {v : Byte} (h : v.toNat ≤ cmdCap) : zext8 (v.extractLsb' 0 3) = v := by
  apply BitVec.eq_of_toNat_eq
  have := v.isLt
  rw [zext8, BitVec.toNat_setWidth, extractLsb_length_toNat h, Nat.mod_eq_of_lt this]

theorem exec_cmdWr {n : Byte} {bs : List Byte} (s : State) (hn : n.toNat ≤ cmdCap) (hb : bs.length = n.toNat) :
    exec (.cmdWr (n :: bs)) s = .next (respond .ok [] ((s.setCmdBytes bs).setCmdLen n)) := by
  simp [exec, execCmdWr, operandsFN, hn, hb]

theorem exec_numcmdWr {v : Byte} (s : State) (hv : v.toNat ≤ cmdCap) :
    exec (.numcmdWr [v]) s = .next (respond .ok [] (s.setCmdLen v)) := by
  simp [exec, execNumcmdWr, operandF1, hv]

theorem exec_cmdRd (s : State) : exec (.cmdRd []) s = .next (respond .ok (zext8 s.cmdLen :: s.command) s) := rfl

/-- The cells a longer length brings back: the bytes last written, then the old ones (10_state R23). -/
theorem putBytes_take_longer {bs : List Byte} {m : Nat} (v : Vector Byte 4) (hb : bs.length ≤ m) (hm : m ≤ 4) :
    (putBytes 0 bs v).toList.take m = bs ++ (v.toList.drop bs.length).take (m - bs.length) := by
  rw [putBytes_toList bs 0 v (by omega)]
  simp [List.take_append, List.take_of_length_le hb]

/-- Settles O13: `NUMCMD_WR` moves the length alone, so the cells beyond the bytes of `CMD_WR` are the old ones. -/
theorem raisingTheLengthBringsOldBytesBack : Obligations.RaisingTheLengthBringsOldBytesBack := by
  intro s n v bs hnv hv hb
  refine ⟨_, _, _, exec_cmdWr s (Nat.le_trans hnv hv) hb, exec_numcmdWr _ hv, exec_cmdRd _, ?_⟩
  simp [State.command, zext8_length hv, extractLsb_length_toNat hv, putBytes_take_longer s.cmdBytes (hb.trans_le hnv) hv, hb]

end Sys2Proof.Machine
end

section
/-! PROOF. The machine after reset meets the invariant, and every step keeps it (10_state R24, R25, R30 to R35). -/

namespace Sys2Proof.Machine

/-! ### Between requests -/

/-- The registers and hosts are in order and the engine is at rest, whatever `SEQ` is: how the block stands between
requests, and from the acceptance of a request to its answer or to the begin of its exchange (10_state R31). -/
structure State.AtRest (s : State) : Prop where
  regs     : s.RegsOk
  hosts    : s.HostsOk
  phase    : s.engine.phase = .idle
  noError  : s.engine.err = false
  inactive : s.pin.cs ≠ .out s.params.csActive

theorem State.Inv.atRest {s : State} (h : s.Inv) (hi : s.seq = .idle) : s.AtRest := by
  obtain ⟨phase, noError, inactive⟩ := h.idle hi
  exact ⟨h.regs, h.hosts, phase, noError, inactive⟩

theorem State.AtRest.inv {s : State} (h : s.AtRest) (hi : s.seq = .idle) : s.Inv where
  regs  := h.regs
  hosts := h.hosts
  idle  := fun _ => ⟨h.phase, h.noError, h.inactive⟩
  busy  := fun hb => by rw [hi] at hb; cases hb

/-- An answer leaves the block between requests. -/
theorem inv_respond {s : State} (h : s.AtRest) (st : Status) (r : List Byte) : (respond st r s).Inv :=
  State.AtRest.inv { h with regs := { h.regs with }, hosts := { h.hosts with } } rfl

/-- Requests that leave, and text operations that end, leave the rest of the hosts in order. -/
theorem State.HostsOk.shrink {s t : State} (h : s.HostsOk) (hp : t.params = s.params)
    (hq : t.pending.Sublist s.pending) (hj : ∀ j ∈ t.jobs, j ∈ s.jobs) : t.HostsOk where
  onePerHost := h.onePerHost.sublist (hq.map Request.host)
  frames     := fun r hr => hp ▸ h.frames r (hq.subset hr)
  jobs       := fun j hm => hp ▸ h.jobs j (hj j hm)

theorem atRest_accept {s : State} (h : s.AtRest) (r : Request) : (accept r s).AtRest :=
  { h with regs := { h.regs with }, hosts := h.hosts.shrink rfl List.filter_sublist fun _ hj => hj }

theorem atRest_setCmdLen {s : State} (h : s.AtRest) {v : Byte} (hv : v.toNat ≤ cmdCap) : (s.setCmdLen v).AtRest :=
  { h with
    regs := { h.regs with cmdLen := (extractLsb_length_toNat hv).trans_le hv }
    hosts := { h.hosts with } }

theorem atRest_setCmdBytes {s : State} (h : s.AtRest) (bs : List Byte) : (s.setCmdBytes bs).AtRest :=
  { h with regs := { h.regs with }, hosts := { h.hosts with } }

theorem atRest_setPayloadLen {s : State} (h : s.AtRest) {v : Byte} (hv : v.toNat ≤ s.params.payloadMax) :
    (s.setPayloadLen v).AtRest :=
  { h with regs := { h.regs with payloadLen := hv }, hosts := { h.hosts with } }

/-! ### The claim, the release and the reset -/

theorem legal_miso {p : Params} (h : p.legal = true) : p.lineInit.miso = .input := by
  simp only [Params.legal, Bool.and_eq_true, decide_eq_true_eq] at h
  exact h.1.2

/-- A claim does not select the peripheral (44_line_arbiter R162). -/
theorem legal_cs {p : Params} (h : p.legal = true) : initPin p.lineInit.cs ≠ .out p.csActive := by
  simp only [Params.legal, Bool.and_eq_true, Params.csInitInactive] at h
  obtain ⟨-, h⟩ := h
  cases hc : p.lineInit.cs <;> simp_all [initPin]

theorem atRest_claim {s : State} (h : s.AtRest) : (claim s).2.AtRest := by
  have owners := ownersAgree_claim h.regs.owners
  rcases claim_cases s with ⟨-, -, e⟩ | ⟨-, e⟩ <;> rw [e] at owners ⊢
  · exact { h with
      regs := { h.regs with
        owners := owners
        undriven := fun hc => by cases hc
        miso := by simp [PerLine.map, legal_miso h.regs.params, initPin] }
      hosts := { h.hosts with }
      inactive := legal_cs h.regs.params }
  · exact h

/-- A release leaves no line driven: one of SELF it stops driving, any other was not driven (44_line_arbiter R161, R163). -/
theorem release_undriven {s : State} (h : s.RegsOk) : (release s).pin = PerLine.const .input := by
  refine PerLine.ext_get fun l => ?_
  rw [release_pin, PerLine.get_const, releasedPin]
  rcases (ownersAgree_iff s).1 h.owners with ⟨-, hs⟩ | ⟨hc, -⟩
  · rw [if_pos (hs l)]
  · rw [h.undriven hc, PerLine.get_const, ite_self]

theorem atRest_release {s : State} (h : s.AtRest) : (release s).AtRest :=
  { h with
    regs := { h.regs with
      owners := ownersAgree_release s
      undriven := fun _ => release_undriven h.regs
      miso := by rw [release_undriven h.regs]; rfl }
    hosts := { h.hosts with }
    inactive := by rw [release_undriven h.regs]; exact Pin.noConfusion }

theorem inv_resetBlock {s : State} (h : s.AtRest) : (resetBlock s).Inv := by
  have r := atRest_release h
  refine State.AtRest.inv ⟨?_, ?_, rfl, r.noError, r.inactive⟩ rfl
  · exact { r.regs with cmdLen := Nat.zero_le _, payloadLen := Nat.zero_le _ }
  · exact ⟨List.nodup_nil, by simp [resetBlock], by simp [resetBlock]⟩

/-! ### An exchange in service -/

/-- The engine stands within its phase, with CS asserted exactly from SELECT to DESELECT, and no abort noted before
DESELECT (10_state R34, R35; 42_transaction R121, R129). -/
structure State.InPhase (s : State) : Prop where
  started  : s.engine.phase ≠ .idle
  bits     : s.engine.bitIdx ≤ 7
  cmdIdx   : s.engine.phase = .cmd → s.engine.byteIdx ≤ s.snap.len.toNat
  plIdx    : s.engine.phase = .payload → s.engine.byteIdx ≤ s.snap.plen.toNat
  select   : s.engine.phase = .select → s.pin.cs ≠ .out s.params.csActive
  selected : s.engine.phase = .cmd ∨ s.engine.phase = .payload → s.pin.cs = .out s.params.csActive
  noError  : s.engine.phase ≠ .deselect → s.engine.err = false

/-- At DESELECT only the bit count is left to say. -/
theorem inPhase_deselect {s : State} (hp : s.engine.phase = .deselect) (hb : s.engine.bitIdx ≤ 7) : s.InPhase := by
  constructor <;> simp [hp, hb]

/-- A half-bit step inside a byte stays in its phase, with at most one byte more done, or goes to DESELECT. -/
theorem inPhase_halfBit {s : State} (h : s.InPhase) (hin : s.inByte) : (halfBit s).state.InPhase := by
  have f := frame_halfBit s
  have hd : s.engine.phase ≠ .deselect := by rcases hin with ⟨hp, -⟩ | ⟨hp, -⟩ <;> simp [hp]
  obtain ⟨hcs, hbits, ⟨hphase, herr, hidx⟩ | ⟨hphase, -⟩⟩ := halfBit_parts s h.bits (h.noError hd)
  · have next : (halfBit s).state.engine.byteIdx ≤ s.engine.byteIdx + 1 := by
      rcases hidx with ⟨e, -⟩ | ⟨e, -⟩ <;> omega
    refine ⟨?_, hbits, ?_, ?_, ?_, ?_, fun _ => herr⟩ <;> rw [hphase]
    · exact h.started
    · intro hp
      rw [f.snap]
      rcases hin with ⟨-, hlt⟩ | ⟨hp', -⟩
      · omega
      · rw [hp] at hp'; cases hp'
    · intro hp
      rw [f.snap]
      rcases hin with ⟨hp', -⟩ | ⟨-, hlt⟩
      · rw [hp] at hp'; cases hp'
      · omega
    · rw [hcs, f.params]; exact h.select
    · rw [hcs, f.params]; exact h.selected
  · exact inPhase_deselect hphase hbits

theorem inPhase_selectStep {s : State} (h : s.InPhase) (hp : s.engine.phase = .select) : (selectStep s).InPhase := by
  have hb : s.engine.bitIdx ≤ 7 := h.bits
  have he : s.engine.err = false := h.noError (by simp [hp])
  constructor <;> simp [selectStep, hb, he]

theorem inPhase_enterPayload {s : State} (h : s.InPhase) (hp : s.engine.phase = .cmd) : (enterPayload s).InPhase := by
  have hb : s.engine.bitIdx ≤ 7 := h.bits
  have he : s.engine.err = false := h.noError (by simp [hp])
  have hcs : s.pin.cs = .out s.params.csActive := h.selected (.inl hp)
  constructor <;> simp [enterPayload, hb, he, hcs]

theorem inPhase_endStep {s : State} (h : s.InPhase) : (endStep s).InPhase := by
  refine inPhase_deselect ?_ ?_ <;> unfold endStep <;> dsimp only <;> split
  · rfl
  · rfl
  · simpa [abortAt] using h.bits
  · simpa using h.bits

theorem inPhase_engineStep {s : State} (h : s.InPhase) (hd : s.engine.phase ≠ .deselect) :
    (engineStep s).state.InPhase := by
  unfold engineStep
  split
  case h_1 => exact h
  case h_2 hp => exact inPhase_selectStep h hp
  case h_3 hp =>
    split
    · next hlt => exact inPhase_halfBit h (.inl ⟨hp, hlt⟩)
    · exact inPhase_enterPayload h hp
  case h_4 hp =>
    split
    · next hlt => exact inPhase_halfBit h (.inr ⟨hp, hlt⟩)
    · exact inPhase_endStep h
  case h_5 hp => exact absurd hp hd

theorem State.ExchangeOk.inPhase {s : State} (h : s.ExchangeOk) : s.InPhase :=
  { h with
    cmdIdx := by rw [h.snap]; exact h.cmdIdx
    plIdx := by rw [h.snap]; exact h.plIdx }

/-- The engine keeps the exchange in order where it stands within its phase: the rest is outside what it changes. -/
theorem State.ExchangeOk.of_frame {s t : State} (h : s.ExchangeOk) (f : EngineFrame s t) (p : t.InPhase) :
    t.ExchangeOk := by
  have snap : t.snap = ⟨t.cmdLen, t.cmdBytes, t.payloadLen⟩ := by
    rw [f.snap, f.cmdLen, f.cmdBytes, f.payloadLen, h.snap]
  exact { p with
    claimed := by rw [f.claimed, h.claimed]
    client := by rw [f.client, f.params]; exact h.client
    waiting := by rw [f.client, f.pending]; exact h.waiting
    snap := snap
    command := by
      rw [f.out, f.cmdLen, h.command]
      simp only [State.command, f.cmdBytes, f.cmdLen]
    outLen := by rw [f.out, f.cmdLen, f.payloadLen, h.outLen]
    cmdIdx := by have := p.cmdIdx; rwa [snap] at this
    plIdx := by have := p.plIdx; rwa [snap] at this }

/-- One engine step writes XFER_BUF in range and keeps its canonical form (10_state R27; 20_memory R51). -/
theorem engineStep_xferBuf_ok {s : State} (h : s.RegsOk) (hx : s.ExchangeOk) :
    XferBuf.wf (engineStep s).state.xferBuf ∧ ∀ c ∈ (engineStep s).state.xferBuf, c.1 < s.params.payloadMax := by
  rcases engineStep_xferBuf s with e | ⟨v, -, hlt, -, e⟩ <;> rw [e]
  · exact ⟨h.xferBuf, h.xferRange⟩
  · rw [hx.snap] at hlt
    have inRange : s.engine.byteIdx < s.params.payloadMax := Nat.lt_of_lt_of_le hlt h.payloadLen
    refine ⟨XferBuf.wf_write _ _ v h.xferBuf, fun c hc => ?_⟩
    rcases XferBuf.mem_write hc with e | hm
    · rw [e]; exact inRange
    · exact h.xferRange c hm

/-- On claimed lines the engine keeps the registers in order where it keeps XFER_BUF so. -/
theorem State.RegsOk.of_frame {s t : State} (h : s.RegsOk) (f : EngineFrame s t) (hc : s.claimed = true)
    (wf : XferBuf.wf t.xferBuf) (range : ∀ c ∈ t.xferBuf, c.1 < s.params.payloadMax) : t.RegsOk where
  params     := by rw [f.params]; exact h.params
  cmdLen     := by rw [f.cmdLen]; exact h.cmdLen
  payloadLen := by rw [f.payloadLen, f.params]; exact h.payloadLen
  xferBuf    := wf
  xferRange  := by rw [f.params]; exact range
  owners     := by rw [ownersAgree_frame f]; exact h.owners
  undriven   := fun hf => by rw [f.claimed, hc] at hf; cases hf
  miso       := by rw [f.miso]; exact h.miso

/-- An exchange is in service and everything is in order. -/
structure State.InService (s : State) : Prop where
  regs     : s.RegsOk
  hosts    : s.HostsOk
  busy     : s.seq = .busy
  exchange : s.ExchangeOk

theorem State.InService.inv {s : State} (h : s.InService) : s.Inv where
  regs  := h.regs
  hosts := h.hosts
  idle  := fun hi => by rw [h.busy] at hi; cases hi
  busy  := fun _ => h.exchange

theorem State.HostsOk.of_frame {s t : State} (h : s.HostsOk) (f : EngineFrame s t) : t.HostsOk :=
  h.shrink f.params (by rw [f.pending]) (by simp [f.jobs])

theorem inService_engineStep (s : State) (h : s.InService) (hd : s.engine.phase ≠ .deselect) :
    (engineStep s).state.InService := by
  have f := frame_engineStep s
  obtain ⟨wf, range⟩ := engineStep_xferBuf_ok h.regs h.exchange
  exact ⟨h.regs.of_frame f h.exchange.claimed wf range, h.hosts.of_frame f, f.seq.trans h.busy,
    h.exchange.of_frame f (inPhase_engineStep h.exchange.inPhase hd)⟩

/-- DESELECT floats CS, and the answer clears `ERR`: nothing is left of the exchange (42_transaction R127; 60_exceptions
R211). -/
theorem atRest_deselectStep {s : State} (h : s.InService) : (deselectStep s).clearErr.AtRest := by
  have f := (frame_deselectStep s).trans (frame_clearErr _)
  have buf : (deselectStep s).clearErr.xferBuf = s.xferBuf := by simp [deselectStep]
  refine ⟨h.regs.of_frame f h.exchange.claimed ?_ ?_, h.hosts.of_frame f, rfl, rfl, ?_⟩
  · rw [buf]; exact h.regs.xferBuf
  · rw [buf]; exact h.regs.xferRange
  · simp [deselectStep]

theorem inv_runExchange {s : State} (h : s.InService) : (runExchange s).Inv := by
  unfold runExchange
  rcases runEngine_keeps State.InService inService_engineStep (exchangeFuel s) s h with hs | ⟨u, hu, -, e⟩
  · exact hs.inv
  · obtain ⟨st, r, e', -⟩ := finishExchange_eq (deselectStep u)
    rw [e, e']
    exact inv_respond (atRest_deselectStep hu) st r

/-! ### The requests -/

/-- A data request that passes its checks takes the snapshot and stands at SELECT (10_state R33; 42_transaction R120). -/
theorem inService_beginExchange {s : State} (h : s.AtRest) (hc : s.claimed = true) (hk : s.client < s.params.nHosts)
    (hw : ∀ r ∈ s.pending, r.host ≠ s.client) (d : Dir) {p : List Byte} (hp : p.length = s.payloadLen.toNat) :
    (beginExchange d p s).InService where
  regs     := { h.regs with }
  hosts    := { h.hosts with }
  busy     := rfl
  exchange := by
    have len := command_length s h.regs.cmdLen
    have out : (s.command ++ p).take s.cmdLen.toNat = s.command := by rw [← len, List.take_left]
    have outLen : (s.command ++ p).length = s.cmdLen.toNat + s.payloadLen.toNat := by rw [List.length_append, len, hp]
    refine ⟨hc, hk, hw, Phase.noConfusion, rfl, out, outLen, Nat.zero_le _, fun _ => Nat.zero_le _, fun _ => Nat.zero_le _,
      fun _ => h.inactive, fun e => ?_, fun _ => rfl⟩
    rcases e with e | e <;> cases e

theorem operandF1_le {bound : Nat} {args : List Byte} {v : Byte} (h : operandF1 bound args = some v) : v.toNat ≤ bound := by
  unfold operandF1 at h
  split at h
  · split at h
    · next hv => cases h; exact hv
    · cases h
  · cases h

theorem operandsFN_le {args bs : List Byte} {n : Byte} (h : operandsFN args = some (n, bs)) : n.toNat ≤ cmdCap := by
  unfold operandsFN at h
  split at h
  · cases h
  · split at h
    · next hn => cases h; exact hn.1
    · cases h

section
variable {s : State} (h : s.AtRest) (hk : s.client < s.params.nHosts) (hw : ∀ r ∈ s.pending, r.host ≠ s.client)
include h hk hw

theorem inv_dataRequest {args : List Byte} {t : State} {i : Instr} (hi : i ∈ [Instr.dataRd args, .dataWr args])
    (he : exec i s = .next t) : t.Inv := by
  rcases dataRequest_cases hi he with ⟨st, rfl⟩ | ⟨hc, -, d, p, hp, -, rfl⟩
  · exact inv_respond h st []
  · exact inv_runExchange (inService_beginExchange h hc hk hw d hp)

theorem inv_exec {i : Instr} {t : State} (he : exec i s = .next t) : t.Inv := by
  cases i with
  | dataWr args => exact inv_dataRequest h hk hw (args := args) (by simp) he
  | dataRd args => exact inv_dataRequest h hk hw (args := args) (by simp) he
  | lockWr args => cases he; exact inv_respond (atRest_release h) ..
  | lockRd args =>
    cases he
    split
    · exact inv_respond (atRest_claim h) ..
    · exact inv_respond h ..
  | numcmdWr args =>
    cases he
    split
    · exact inv_respond h ..
    · next v hv => exact inv_respond (atRest_setCmdLen h (operandF1_le hv)) ..
  | numrwWr args =>
    cases he
    split
    · exact inv_respond h ..
    · next v hv => exact inv_respond (atRest_setPayloadLen h (operandF1_le hv)) ..
  | cmdWr args =>
    cases he
    split
    · exact inv_respond h ..
    · next n bs hn => exact inv_respond (atRest_setCmdLen (atRest_setCmdBytes h bs) (operandsFN_le hn)) ..
  | numcmdRd args | cmdRd args | numrwRd args | status args =>
    cases he
    split <;> exact inv_respond h ..

theorem inv_serve {r : Request} {t : State} (he : serve r s = .next t) : t.Inv := by
  unfold serve at he
  split at he
  · exact inv_exec h hk hw he
  · cases he; exact inv_respond h ..
  · cases he; exact inv_respond h ..
  · cases he
  · cases he

end

theorem inv_sequencerStep {k : Nat} {s t : State} (h : s.Inv) (he : sequencerStep k s = .next t) : t.Inv := by
  rcases sequencerStep_cases k s with ⟨hb, e⟩ | ⟨-, -, e⟩ | ⟨hi, r, hr, -, e⟩ <;> rw [e] at he
  · cases he; exact inv_runExchange ⟨h.regs, h.hosts, hb, h.busy hb⟩
  · cases he; exact h
  · refine inv_serve (atRest_accept (h.atRest hi) r) (h.hosts.frames r hr).1 (fun q hq => ?_) he
    simpa using (List.mem_filter.1 hq).2

/-! ### The agents outside -/

/-- The waiting requests are in order, and none is of the host in service. -/
structure State.Queued (s : State) : Prop where
  hosts   : s.HostsOk
  waiting : s.seq = .busy → ∀ r ∈ s.pending, r.host ≠ s.client

theorem State.Inv.queued {s : State} (h : s.Inv) : s.Queued := ⟨h.hosts, fun hb => (h.busy hb).waiting⟩

/-- A host that waits for nothing may add one request of its own (10_state R32). -/
theorem queued_enqueue {k : Nat} {f : List Byte} {s : State} (h : s.Queued) (hk : k < s.params.nHosts)
    (hf : framePresentable f = true) : (enqueue k f s).Queued := by
  unfold enqueue
  split
  · exact h
  · next ho =>
    simp only [State.outstanding, Bool.or_eq_true, List.any_eq_true, beq_iff_eq, Bool.and_eq_true, not_or,
      not_exists, not_and] at ho
    obtain ⟨notWaiting, notServed⟩ := ho
    refine ⟨⟨?_, fun r hr => ?_, h.hosts.jobs⟩, fun hb r hr => ?_⟩
    · simp only [List.map_append, List.map_cons, List.map_nil]
      refine h.hosts.onePerHost.append (List.nodup_singleton k) ?_
      simpa using notWaiting
    · rcases List.mem_append.1 hr with hr | hr
      · exact h.hosts.frames r hr
      · rw [List.mem_singleton.1 hr]; exact ⟨hk, hf⟩
    · rcases List.mem_append.1 hr with hr | hr
      · exact h.waiting hb r hr
      · rw [List.mem_singleton.1 hr]; exact fun e => notServed hb e.symm

theorem queued_submitFrame {k : Nat} {f : List Byte} {s : State} (h : s.Queued) : (submitFrame k f s).Queued := by
  unfold submitFrame
  split
  · next hs =>
    obtain ⟨free, presentable⟩ := Bool.and_eq_true_iff.1 hs
    exact queued_enqueue h ((hostFree_iff s k).1 free).1 presentable
  · exact h

/-- A front-end sends only frames that the port can deliver. -/
theorem queued_frontAct {k : Nat} {op : TextOp} {a : FrontAction} {s : State} (h : s.Queued) (hk : k < s.params.nHosts)
    (ha : ∀ i l, a = .send i l → i.args.length ≤ 255) : (frontAct k op a s).Queued := by
  cases a with
  | send i l =>
    have presentable : framePresentable (encode i) = true :=
      (framePresentable_iff _).2 ⟨Nat.succ_le_succ (Nat.zero_le _), Nat.succ_le_succ (ha i l rfl)⟩
    refine queued_enqueue ⟨⟨h.hosts.onePerHost, h.hosts.frames, fun j hj => ?_⟩, h.waiting⟩ hk presentable
    rcases List.mem_append.1 hj with hj | hj
    · exact h.hosts.jobs j (List.mem_filter.1 hj).1
    · rw [List.mem_singleton.1 hj]; exact hk
  | done r => exact ⟨h.hosts.shrink rfl (.refl _) fun j hj => (List.mem_filter.1 hj).1, h.waiting⟩

theorem queued_submitText {k : Nat} {op : TextOp} {s : State} (h : s.Queued) : (submitText k op s).Queued := by
  unfold submitText
  split
  · next free => exact queued_frontAct h ((hostFree_iff s k).1 free).1 fun i l e => beginText_send e
  · exact h

theorem queued_frontStep {k : Nat} {s : State} (h : s.Queued) : (frontStep k s).Queued := by
  unfold frontStep
  split
  · next j hj =>
    unfold frontStepJob
    split
    · exact queued_frontAct h (h.hosts.jobs j (List.mem_of_find?_eq_some hj)) fun i l e => answerText_send e
    · exact h
  · exact h

/-- What the hosts change leaves the invariant to the queue. -/
theorem inv_hostsOnly {s t : State} (h : s.Inv) (ht : HostsOnly s t) (q : t.Queued) : t.Inv := by
  rw [ht] at q ⊢
  exact { h with
    regs := { h.regs with }
    hosts := q.hosts
    busy := fun hb => { h.busy hb with waiting := q.waiting hb } }

/-- A table of owners with the same lines of SELF is as good for the invariant (44_line_arbiter R165). -/
theorem inv_setOwner {s : State} {o : PerLine Owner} (h : s.Inv) (ha : ({ s with owner := o } : State).ownersAgree = true) :
    ({ s with owner := o } : State).Inv :=
  { h with
    regs := { h.regs with owners := ha }
    hosts := { h.hosts with }
    busy := fun hb => { h.busy hb with } }

theorem inv_externalTake {s : State} (h : s.Inv) (lines : List Line) : (externalTake lines s).Inv := by
  have owners := ownersAgree_externalTake lines s
  rcases externalTake_cases lines s with ⟨-, e⟩ | ⟨-, e⟩ <;> rw [e] at owners ⊢
  · exact inv_setOwner h (owners.trans h.regs.owners)
  · exact h

theorem inv_externalGive {s : State} (h : s.Inv) (lines : List Line) : (externalGive lines s).Inv := by
  have owners := ownersAgree_externalGive lines s
  rcases externalGive_cases lines s with ⟨-, e⟩ | ⟨-, e⟩ <;> rw [e] at owners ⊢
  · exact inv_setOwner h (owners.trans h.regs.owners)
  · exact h

/-! ### The step -/

theorem inv_eventStep {e : Event} {s t : State} (h : s.Inv) (he : eventStep e s = .next t) : t.Inv := by
  cases e with
  | submit k frame => cases he; exact inv_hostsOnly h (hostsOnly_submitFrame ..) (queued_submitFrame h.queued)
  | text k op => cases he; exact inv_hostsOnly h (hostsOnly_submitText ..) (queued_submitText h.queued)
  | front k => cases he; exact inv_hostsOnly h (hostsOnly_frontStep ..) (queued_frontStep h.queued)
  | serve k => exact inv_sequencerStep h he
  | take lines => cases he; exact inv_externalTake h lines
  | give lines => cases he; exact inv_externalGive h lines
  | reset =>
    obtain ⟨hi, rfl⟩ := eventStep_reset_next he
    exact inv_resetBlock (h.atRest hi)
  | teardown => cases he

/-- The invariant says nothing of what the agents outside will do. -/
theorem inv_setEnv {s : State} (h : s.Inv) (env : Env) : ({ s with env := env } : State).Inv :=
  { h with
    regs := { h.regs with }
    hosts := { h.hosts with }
    busy := fun hb => { h.busy hb with } }

theorem inv_nextEvent {s : State} (h : s.Inv) : s.nextEvent.2.Inv := by
  unfold State.nextEvent
  split <;> exact inv_setEnv h _

/-- Settles O45: a request starts from a block at rest and ends in one or in an exchange in order, every engine step
keeps that order, and the other agents add to the queue or move owners other than SELF. -/
theorem everyStepKeepsTheInvariant : Obligations.EveryStepKeepsTheInvariant :=
  fun _ _ h he => inv_eventStep (inv_nextEvent h) he

/-! ### The launch -/

theorem inv_launch {p : Params} (hp : p.legal = true) (pool : PerLine Owner) : (State.launch p pool).Inv := by
  have regs : (State.launch p pool).RegsOk :=
    ⟨hp, Nat.zero_le _, Nat.zero_le _, XferBuf.wf_nil, by simp [State.launch], ownersAgree_launch p pool, fun _ => rfl, rfl⟩
  have hosts : (State.launch p pool).HostsOk := ⟨List.nodup_nil, by simp [State.launch], by simp [State.launch]⟩
  exact State.AtRest.inv ⟨regs, hosts, rfl, rfl, Pin.noConfusion⟩ rfl

/-- The parameters of `State.reset` are legal whatever the free constants are (00_scope R8; log entry 2). -/
theorem params_legal : Config.params.legal = true := by
  simp [Config.params, Params.defaults, Params.legal, Params.csInitInactive, lineInitDefault]

/-- Settles O44: nothing waits, nothing is driven and no line is SELF, so every clause holds. -/
theorem launchMeetsTheInvariant : Obligations.LaunchMeetsTheInvariant :=
  ⟨fun _ pool hp => ⟨inv_launch hp pool, rfl⟩, inv_launch params_legal _⟩

end Sys2Proof.Machine
end

section
/-! PROOF. The bus trace is whole transactions and the part of the one in service (20_memory R55, R56). -/

namespace Sys2Proof.Machine

/-! ### The moves of the agents other than the sequencer -/

/-- What a move of a host or of the external consumer leaves alone: the sequencer, the engine, what the agents will do,
the bus trace, and the waiting requests, to which it adds only such as the port can deliver (10_state R32;
30_encoding R70). -/
structure BesideSequencer (s t : State) : Prop where
  seq    : t.seq = s.seq
  engine : t.engine = s.engine
  env    : t.env = s.env
  bus    : t.obs.bus = s.obs.bus
  kept   : ∀ r ∈ s.pending, r ∈ t.pending
  added  : ∀ r ∈ t.pending, r ∈ s.pending ∨ framePresentable r.frame = true

theorem beside_refl (s : State) : BesideSequencer s s := ⟨rfl, rfl, rfl, rfl, fun _ h => h, fun _ h => .inl h⟩

theorem beside_enqueue {k : Nat} {f : List Byte} {s : State} (hf : framePresentable f = true) :
    BesideSequencer s (enqueue k f s) := by
  unfold enqueue
  split
  · exact beside_refl s
  · refine ⟨rfl, rfl, rfl, rfl, fun r hr => List.mem_append_left _ hr, fun r hr => ?_⟩
    rcases List.mem_append.1 hr with hr | hr
    · exact .inl hr
    · rw [List.mem_singleton.1 hr]; exact .inr hf

theorem beside_submitFrame (k : Nat) (f : List Byte) (s : State) : BesideSequencer s (submitFrame k f s) := by
  unfold submitFrame
  split
  · next h => exact beside_enqueue (Bool.and_eq_true_iff.1 h).2
  · exact beside_refl s

theorem beside_frontAct {k : Nat} {op : TextOp} {a : FrontAction} {s : State}
    (ha : ∀ i l, a = .send i l → i.args.length ≤ 255) : BesideSequencer s (frontAct k op a s) := by
  cases a with
  | send i l =>
    have presentable : framePresentable (encode i) = true :=
      (framePresentable_iff _).2 ⟨Nat.succ_le_succ (Nat.zero_le _), Nat.succ_le_succ (ha i l rfl)⟩
    obtain ⟨seq, engine, env, bus, kept, added⟩ := beside_enqueue (k := k)
      (s := { s with jobs := (s.jobs.filter fun j => j.host != k) ++ [⟨k, op, s.obs.responses.length, l⟩] }) presentable
    exact ⟨seq, engine, env, bus, kept, added⟩
  | done r => exact ⟨rfl, rfl, rfl, rfl, fun _ h => h, fun _ h => .inl h⟩

theorem beside_submitText (k : Nat) (op : TextOp) (s : State) : BesideSequencer s (submitText k op s) := by
  unfold submitText
  split
  · exact beside_frontAct fun i l e => beginText_send e
  · exact beside_refl s

theorem beside_frontStep (k : Nat) (s : State) : BesideSequencer s (frontStep k s) := by
  unfold frontStep frontStepJob
  split
  · split
    · exact beside_frontAct fun i l e => answerText_send e
    · exact beside_refl s
  · exact beside_refl s

theorem beside_externalTake (lines : List Line) (s : State) : BesideSequencer s (externalTake lines s) := by
  rcases externalTake_cases lines s with ⟨-, e⟩ | ⟨-, e⟩ <;> rw [e]
  · exact ⟨rfl, rfl, rfl, rfl, fun _ h => h, fun _ h => .inl h⟩
  · exact beside_refl s

theorem beside_externalGive (lines : List Line) (s : State) : BesideSequencer s (externalGive lines s) := by
  rcases externalGive_cases lines s with ⟨-, e⟩ | ⟨-, e⟩ <;> rw [e]
  · exact ⟨rfl, rfl, rfl, rfl, fun _ h => h, fun _ h => .inl h⟩
  · exact beside_refl s

/-- Every move is one beside the sequencer, one of the sequencer, a reset in IDLE, or has no next state. -/
theorem eventStep_cases {e : Event} {s t : State} (h : eventStep e s = .next t) :
    BesideSequencer s t ∨ (∃ k, e = .serve k ∧ sequencerStep k s = .next t) ∨
      (e = .reset ∧ s.seq = .idle ∧ t = resetBlock s) := by
  cases e with
  | submit k frame => cases h; exact .inl (beside_submitFrame k frame s)
  | text k op => cases h; exact .inl (beside_submitText k op s)
  | front k => cases h; exact .inl (beside_frontStep k s)
  | serve k => exact .inr (.inl ⟨k, rfl, h⟩)
  | take lines => cases h; exact .inl (beside_externalTake lines s)
  | give lines => cases h; exact .inl (beside_externalGive lines s)
  | reset => exact .inr (.inr ⟨rfl, eventStep_reset_next h⟩)
  | teardown => cases h

/-! ### Traces that have the shape -/

/-- A trace is read in pieces, each from the place where the one before ended. -/
theorem scanTrace_append (q : TraceState) (es fs : List BusEvent) :
    scanTrace q (es ++ fs) = (scanTrace q es).bind fun q' => scanTrace q' fs := by
  induction es generalizing q with
  | nil => rfl
  | cons e es ih =>
    simp only [List.cons_append, scanTrace]
    cases traceNext q e with
    | none => rfl
    | some q' => exact ih q'

/-- The bus trace has the shape of 20_memory R56, with the part that the engine's phase says. -/
def State.Shaped (s : State) : Prop := scanTrace .outside s.obs.bus = some s.tracePlace

/-- What leaves the trace and its place alone keeps the shape. -/
theorem State.Shaped.same {s t : State} (h : s.Shaped) (hb : t.obs.bus = s.obs.bus) (hp : t.tracePlace = s.tracePlace) :
    t.Shaped := by
  unfold State.Shaped
  rw [hb, hp]
  exact h

/-- An event that may come next at the place of the trace keeps the shape. -/
theorem State.Shaped.add {s t : State} {e : BusEvent} (h : s.Shaped) (hb : t.obs.bus = s.obs.bus ++ [e])
    (hn : traceNext s.tracePlace e = some t.tracePlace) : t.Shaped := by
  unfold State.Shaped at h ⊢
  rw [hb, scanTrace_append, h, Option.bind_some, scanTrace, hn]
  rfl

/-! ### The place of the trace -/

/-- Between requests no transaction is open. -/
theorem tracePlace_seqIdle {s : State} (h : s.seq = .idle) : s.tracePlace = .outside := by
  simp [State.tracePlace, h]

/-- Nor is one while the engine is idle or has not asserted CS. -/
theorem tracePlace_unselected {s : State} (h : s.engine.phase = .idle ∨ s.engine.phase = .select) :
    s.tracePlace = .outside := by
  rcases h with h | h <;> cases hs : s.seq <;> simp [State.tracePlace, h, hs]

theorem tracePlace_selected {s : State} (hs : s.seq = .busy) (h : s.engine.phase = .cmd ∨ s.engine.phase = .payload) :
    s.tracePlace = .inside := by
  rcases h with h | h <;> simp [State.tracePlace, h, hs]

theorem tracePlace_deselect {s : State} (hs : s.seq = .busy) (h : s.engine.phase = .deselect) :
    s.tracePlace = if s.engine.err then .aborted else .inside := by
  simp [State.tracePlace, h, hs]

/-- A transaction in service ends with Deselect, aborted or not. -/
theorem traceNext_deselect (err : Bool) :
    traceNext (if err then .aborted else .inside) .deselect = some .outside := by
  cases err <;> rfl

/-! ### The engine -/

/-- A transaction is in service, the engine stands within its phase, and the bus trace has the shape. -/
structure State.InTransaction (s : State) : Prop where
  busy    : s.seq = .busy
  inPhase : s.InPhase
  shaped  : s.Shaped

section
variable {s : State} (h : s.InTransaction)
include h

theorem shaped_selectStep (hp : s.engine.phase = .select) : (selectStep s).Shaped := by
  have busy : (selectStep s).seq = .busy := (frame_selectStep s).seq.trans h.busy
  have phase : (selectStep s).engine.phase = .cmd := rfl
  refine h.shaped.add (e := .select) (by simp [selectStep]) ?_
  rw [tracePlace_unselected (.inr hp), tracePlace_selected busy (.inl phase)]
  rfl

theorem shaped_enterPayload (hp : s.engine.phase = .cmd) : (enterPayload s).Shaped :=
  h.shaped.same rfl <|
    (tracePlace_selected (s := enterPayload s) h.busy (.inr rfl)).trans (tracePlace_selected h.busy (.inl hp)).symm

/-- An abort with at most seven whole bits leaves only Deselect to come. -/
theorem shaped_abort {t : State} {b : Nat} (hs : t.seq = .busy) (hp : s.engine.phase = .cmd ∨ s.engine.phase = .payload)
    (hd : t.engine.phase = .deselect) (he : t.engine.err = true) (hb : b ≤ 7)
    (hbus : t.obs.bus = s.obs.bus ++ [.abort b]) : t.Shaped := by
  refine h.shaped.add hbus ?_
  rw [tracePlace_selected h.busy hp, tracePlace_deselect hs hd, he]
  exact if_pos hb

theorem shaped_halfBit (hin : s.inByte) : (halfBit s).state.Shaped := by
  have hp : s.engine.phase = .cmd ∨ s.engine.phase = .payload := hin.imp And.left And.left
  have hd : s.engine.phase ≠ .deselect := by rcases hp with hp | hp <;> simp [hp]
  have busy : (halfBit s).state.seq = .busy := (frame_halfBit s).seq.trans h.busy
  obtain ⟨-, -, ⟨hphase, -, hbus⟩ | ⟨hphase, herr, b, hb, hbus⟩⟩ :=
    halfBit_parts s h.inPhase.bits (h.inPhase.noError hd)
  · have before := tracePlace_selected h.busy hp
    have after := tracePlace_selected busy (by rw [hphase]; exact hp)
    rcases hbus with ⟨-, hbus⟩ | ⟨-, o, i, hbus⟩
    · exact h.shaped.same hbus (after.trans before.symm)
    · exact h.shaped.add hbus (by rw [before, after]; rfl)
  · exact shaped_abort h busy hp hphase herr hb hbus

theorem shaped_endStep (hp : s.engine.phase = .payload) : (endStep s).Shaped := by
  have busy : (endStep s).seq = .busy := (frame_endStep s).seq.trans h.busy
  have noError : s.engine.err = false := h.inPhase.noError (by simp [hp])
  unfold endStep at busy ⊢
  dsimp only at busy ⊢
  split at busy
  · next ha =>
    rw [if_pos ha]
    exact shaped_abort h busy (.inr hp) rfl rfl (Nat.zero_le 7) (by simp [abortAt])
  · next ha =>
    rw [if_neg ha]
    refine h.shaped.same (by simp) ?_
    rw [tracePlace_selected h.busy (.inr hp), tracePlace_deselect busy rfl]
    simp [noError]

end

theorem inTransaction_engineStep (s : State) (h : s.InTransaction) (hd : s.engine.phase ≠ .deselect) :
    (engineStep s).state.InTransaction := by
  refine ⟨(frame_engineStep s).seq.trans h.busy, inPhase_engineStep h.inPhase hd, ?_⟩
  unfold engineStep
  split
  case h_1 => exact h.shaped
  case h_2 hp => exact shaped_selectStep h hp
  case h_3 hp =>
    split
    · next hlt => exact shaped_halfBit h (.inl ⟨hp, hlt⟩)
    · exact shaped_enterPayload h hp
  case h_4 hp =>
    split
    · next hlt => exact shaped_halfBit h (.inr ⟨hp, hlt⟩)
    · exact shaped_endStep h hp
  case h_5 hp => exact absurd hp hd

/-- An answer given where no transaction is open keeps the shape, when what was done before it leaves the bus trace
alone. -/
theorem shaped_answer {s u : State} (h : s.Shaped) (ho : s.tracePlace = .outside) (hb : u.obs.bus = s.obs.bus)
    (st : Status) (r : List Byte) : (respond st r u).Shaped :=
  h.same hb ((tracePlace_seqIdle rfl).trans ho.symm)

/-- DESELECT closes the transaction. -/
theorem shaped_deselectStep {s : State} (h : s.InTransaction) (hp : s.engine.phase = .deselect) :
    (deselectStep s).Shaped := by
  refine h.shaped.add (e := .deselect) (by simp [deselectStep]) ?_
  rw [tracePlace_deselect h.busy hp, traceNext_deselect, tracePlace_unselected (.inl rfl)]

theorem shaped_runExchange {s : State} (h : s.InTransaction) : (runExchange s).Shaped := by
  unfold runExchange
  rcases runEngine_keeps State.InTransaction inTransaction_engineStep (exchangeFuel s) s h with hs | ⟨u, hu, hp, e⟩
  · exact hs.shaped
  · obtain ⟨st, r, e', -⟩ := finishExchange_eq (deselectStep u)
    rw [e, e']
    exact shaped_answer (shaped_deselectStep hu hp) (tracePlace_unselected (.inl rfl)) rfl st r

/-! ### The requests -/

@[simp] theorem claim_obs_bus (s : State) : (claim s).2.obs.bus = s.obs.bus := by
  rcases claim_cases s with ⟨-, -, e⟩ | ⟨-, e⟩ <;> rw [e]

section
variable {s : State} (h : s.AtRest) (hs : s.Shaped) (hk : s.client < s.params.nHosts)
  (hw : ∀ r ∈ s.pending, r.host ≠ s.client)
include h hs hk hw

theorem shaped_dataRequest {args : List Byte} {t : State} {i : Instr} (hi : i ∈ [Instr.dataRd args, .dataWr args])
    (he : exec i s = .next t) : t.Shaped := by
  have outside : s.tracePlace = .outside := tracePlace_unselected (.inl h.phase)
  rcases dataRequest_cases hi he with ⟨st, rfl⟩ | ⟨hc, -, d, p, hp, -, rfl⟩
  · exact shaped_answer hs outside rfl st []
  · have begun := inService_beginExchange h hc hk hw d hp
    exact shaped_runExchange ⟨begun.busy, begun.exchange.inPhase,
      hs.same rfl ((tracePlace_unselected (.inr rfl)).trans outside.symm)⟩

theorem shaped_exec {i : Instr} {t : State} (he : exec i s = .next t) : t.Shaped := by
  have outside : s.tracePlace = .outside := tracePlace_unselected (.inl h.phase)
  cases i with
  | dataWr args => exact shaped_dataRequest h hs hk hw (args := args) (by simp) he
  | dataRd args => exact shaped_dataRequest h hs hk hw (args := args) (by simp) he
  | lockWr args => cases he; exact shaped_answer hs outside rfl ..
  | lockRd args =>
    cases he
    split
    · exact shaped_answer hs outside (claim_obs_bus s) ..
    · exact shaped_answer hs outside rfl ..
  | numcmdWr args | numcmdRd args | cmdWr args | cmdRd args | numrwWr args | numrwRd args | status args =>
    cases he
    split <;> exact shaped_answer hs outside rfl ..

theorem shaped_serve {r : Request} {t : State} (he : serve r s = .next t) : t.Shaped := by
  have outside : s.tracePlace = .outside := tracePlace_unselected (.inl h.phase)
  unfold serve at he
  split at he
  · exact shaped_exec h hs hk hw he
  · cases he; exact shaped_answer hs outside rfl ..
  · cases he; exact shaped_answer hs outside rfl ..
  · cases he
  · cases he

end

/-! ### The step -/

theorem shaped_sequencerStep {k : Nat} {s t : State} (h : s.Inv) (hs : s.Shaped) (he : sequencerStep k s = .next t) :
    t.Shaped := by
  rcases sequencerStep_cases k s with ⟨hb, e⟩ | ⟨-, -, e⟩ | ⟨hi, r, hr, -, e⟩ <;> rw [e] at he
  · cases he; exact shaped_runExchange ⟨hb, (h.busy hb).inPhase, hs⟩
  · cases he; exact hs
  · have rest := atRest_accept (h.atRest hi) r
    have accepted : (accept r s).Shaped :=
      hs.same rfl ((tracePlace_unselected (.inl rest.phase)).trans (tracePlace_seqIdle hi).symm)
    refine shaped_serve rest accepted (h.hosts.frames r hr).1 (fun q hq => ?_) he
    simpa using (List.mem_filter.1 hq).2

theorem shaped_eventStep {e : Event} {s t : State} (h : s.Inv) (hs : s.Shaped) (he : eventStep e s = .next t) :
    t.Shaped := by
  rcases eventStep_cases he with b | ⟨k, -, he⟩ | ⟨-, hi, rfl⟩
  · exact hs.same b.bus (by simp only [State.tracePlace, b.seq, b.engine])
  · exact shaped_sequencerStep h hs he
  · exact hs.same rfl ((tracePlace_seqIdle rfl).trans (tracePlace_seqIdle hi).symm)

/-- Settles O47: every engine step adds at most the one event that may come next at its phase, a request begins and
answers where no transaction is open, and no other move adds to the bus trace. -/
theorem everyStepKeepsTheShapeOfTheBusTrace : Obligations.EveryStepKeepsTheShapeOfTheBusTrace := by
  intro s t h hs he
  have shaped : s.Shaped := hs
  exact shaped_eventStep (inv_nextEvent h)
    (shaped.same (by rw [nextEvent_obs]) (by simp only [State.tracePlace, nextEvent_seq, nextEvent_engine])) he

end Sys2Proof.Machine
end

section
/-! PROOF. Which waiting request is served, and which may be passed over (20_memory R54; 60_exceptions R222). -/

namespace Sys2Proof.Machine

/-! ### Which request is served -/

/-- A host for which there is no request to accept has none waiting. -/
theorem requestOfHost_none {s : State} {k : Nat} (h : s.requestOfHost k = none) : ∀ r ∈ s.pending, r.host ≠ k := by
  simpa [State.requestOfHost] using h

/-- While IDLE a move of the sequencer serves a waiting request of the host named, or there is none. -/
theorem eventStep_serve_idle (k : Nat) {s : State} (hi : s.seq = .idle) :
    (∃ r ∈ s.pending, r.host = k ∧ eventStep (.serve k) s = serve r (accept r s)) ∨
      ((∀ r ∈ s.pending, r.host ≠ k) ∧ eventStep (.serve k) s = .next s) := by
  rcases sequencerStep_cases k s with ⟨hb, -⟩ | ⟨-, hn, e⟩ | ⟨-, r, hr, hk, e⟩
  · rw [hi] at hb; cases hb
  · exact .inr ⟨requestOfHost_none hn, e⟩
  · exact .inl ⟨r, hr, hk, e⟩

/-- With one request for each host, the one served is the one waiting. -/
theorem eventStep_serve_waiting {s : State} {r : Request} (hi : s.seq = .idle) (hr : r ∈ s.pending)
    (hn : (s.pending.map Request.host).Nodup) : eventStep (.serve r.host) s = serve r (accept r s) := by
  rcases eventStep_serve_idle r.host hi with ⟨q, hq, hk, e⟩ | ⟨none, -⟩
  · rwa [List.inj_on_of_nodup_map hn hq hr hk] at e
  · exact absurd rfl (none r hr)

/-! ### What a move does to the waiting requests -/

/-- From `s` to `t` the waiting requests and the schedule stay. -/
def SameQueue (s t : State) : Prop := t.pending = s.pending ∧ t.env.schedule = s.env.schedule

theorem sameQueue_runExchange (s : State) : SameQueue s (runExchange s) := by
  unfold runExchange
  rcases runEngine_spec (exchangeFuel s) s with f | ⟨u, f, -, e⟩
  · exact ⟨f.pending, f.schedule⟩
  · obtain ⟨st, r, e', -⟩ := finishExchange_eq (deselectStep u)
    have g := f.trans (frame_deselectStep u)
    rw [e, e']
    exact ⟨g.pending, g.schedule⟩

theorem sameQueue_claim (s : State) : SameQueue s (claim s).2 := by
  rcases claim_cases s with ⟨-, -, e⟩ | ⟨-, e⟩ <;> rw [e] <;> exact ⟨rfl, rfl⟩

theorem sameQueue_dataRequest {args : List Byte} {s t : State} {i : Instr} (hi : i ∈ [Instr.dataRd args, .dataWr args])
    (h : exec i s = .next t) : SameQueue s t := by
  rcases dataRequest_cases hi h with ⟨st, rfl⟩ | ⟨-, -, d, p, -, -, rfl⟩
  · exact ⟨rfl, rfl⟩
  · exact sameQueue_runExchange (beginExchange d p s)

theorem sameQueue_exec {i : Instr} {s t : State} (h : exec i s = .next t) : SameQueue s t := by
  cases i with
  | dataWr args => exact sameQueue_dataRequest (args := args) (by simp) h
  | dataRd args => exact sameQueue_dataRequest (args := args) (by simp) h
  | lockWr args => cases h; exact ⟨rfl, rfl⟩
  | lockRd args =>
    cases h
    split
    · exact sameQueue_claim s
    · exact ⟨rfl, rfl⟩
  | numcmdWr args | numcmdRd args | cmdWr args | cmdRd args | numrwWr args | numrwRd args | status args =>
    cases h
    split <;> exact ⟨rfl, rfl⟩

theorem sameQueue_serve {r : Request} {s t : State} (h : serve r s = .next t) : SameQueue s t := by
  unfold serve at h
  split at h
  · exact sameQueue_exec h
  · cases h; exact ⟨rfl, rfl⟩
  · cases h; exact ⟨rfl, rfl⟩
  · cases h
  · cases h

/-- What a move `e` that is no reset does to the queue: a waiting request stays unless `e` is the acceptance of its host,
one that comes in can be presented, and the schedule stays. -/
structure QueueMove (e : Event) (s t : State) : Prop where
  schedule : t.env.schedule = s.env.schedule
  kept     : ∀ r ∈ s.pending, e ≠ .serve r.host → r ∈ t.pending
  added    : ∀ r ∈ t.pending, r ∈ s.pending ∨ framePresentable r.frame = true

theorem SameQueue.queueMove {s t : State} (h : SameQueue s t) (e : Event) : QueueMove e s t := by
  obtain ⟨pending, schedule⟩ := h
  exact ⟨schedule, fun r hr _ => pending ▸ hr, fun r hr => .inl (pending ▸ hr)⟩

theorem queueMove_sequencerStep {k : Nat} {s t : State} (h : sequencerStep k s = .next t) :
    QueueMove (.serve k) s t := by
  rcases sequencerStep_cases k s with ⟨-, e⟩ | ⟨-, -, e⟩ | ⟨-, r, -, rfl, e⟩ <;> rw [e] at h
  · cases h; exact (sameQueue_runExchange s).queueMove _
  · cases h; exact SameQueue.queueMove ⟨rfl, rfl⟩ _
  · obtain ⟨pending, schedule⟩ := sameQueue_serve h
    refine ⟨schedule, fun q hq hne => ?_, fun q hq => ?_⟩
    · have other : q.host ≠ r.host := fun hh => hne (by rw [hh])
      rw [pending]
      exact List.mem_filter.2 ⟨hq, by simpa using other⟩
    · rw [pending] at hq
      exact .inl (List.mem_filter.1 hq).1

theorem queueMove_eventStep {e : Event} {s t : State} (hr : e ≠ .reset) (h : eventStep e s = .next t) :
    QueueMove e s t := by
  rcases eventStep_cases h with b | ⟨k, rfl, h⟩ | ⟨rfl, -⟩
  · exact ⟨by rw [b.env], fun r hr _ => b.kept r hr, b.added⟩
  · exact queueMove_sequencerStep h
  · exact absurd rfl hr

/-! ### Moves that go on -/

/-- Every request is answered or begins its exchange: none stops the machine. -/
theorem exec_next (i : Instr) (s : State) : ∃ t, exec i s = .next t := by
  cases i <;> exact ⟨_, rfl⟩

/-- A frame the port can deliver has an opcode byte and is not too long (30_encoding R70). -/
theorem decode_presentable {f : List Byte} (h : framePresentable f = true) :
    decode f ≠ .error .noOpcode ∧ decode f ≠ .error .tooLong := by
  obtain ⟨least, most⟩ := (framePresentable_iff f).1 h
  cases f with
  | nil => cases least
  | cons op args =>
    have short : ¬ args.length > 255 := by simp at most; omega
    simp only [decode, if_neg short]
    split
    · exact ⟨by simp, by simp⟩
    · unfold requestOf
      split <;> exact ⟨by simp, by simp⟩

theorem serve_next {r : Request} (h : framePresentable r.frame = true) (s : State) : ∃ t, serve r s = .next t := by
  obtain ⟨opcode, short⟩ := decode_presentable h
  unfold serve
  split
  · exact exec_next ..
  · exact ⟨_, rfl⟩
  · exact ⟨_, rfl⟩
  · next e => exact absurd e opcode
  · next e => exact absurd e short

/-- With frames that can be presented, only a reset and teardown can stop the machine. -/
theorem eventStep_next {e : Event} {s : State} (hf : ∀ q ∈ s.pending, framePresentable q.frame = true)
    (hr : e ≠ .reset) (ht : e ≠ .teardown) : ∃ t, eventStep e s = .next t := by
  cases e with
  | serve k =>
    rcases sequencerStep_cases k s with ⟨-, e⟩ | ⟨-, -, e⟩ | ⟨-, r, hr, -, e⟩
    · exact ⟨_, e⟩
    · exact ⟨_, e⟩
    · obtain ⟨t, ht⟩ := serve_next (hf r hr) (accept r s)
      exact ⟨t, e.trans ht⟩
  | reset => exact absurd rfl hr
  | teardown => exact absurd rfl ht
  | submit | text | front | take | give => exact ⟨_, rfl⟩

/-- A run of scheduled moves of which none is the acceptance of its host leaves a waiting request waiting. -/
theorem run_passes_over {n : Nat} {s : State} {r : Request} (hr : r ∈ s.pending)
    (hf : ∀ q ∈ s.pending, framePresentable q.frame = true) (hn : s.env.schedule.length = n)
    (hm : ∀ e ∈ s.env.schedule, e ≠ .serve r.host ∧ e ≠ .reset ∧ e ≠ .teardown) :
    ∃ t, Host.Core.run Sys2Proof.core n s = .next t ∧ r ∈ t.pending := by
  induction n generalizing s with
  | zero => exact ⟨s, rfl, hr⟩
  | succ n ih =>
    obtain ⟨e, rest, hsch⟩ := List.exists_cons_of_length_eq_add_one hn
    rw [hsch] at hn hm
    obtain ⟨⟨hne, hreset, hdown⟩, hrest⟩ := List.forall_mem_cons.1 hm
    obtain ⟨u, hu⟩ := eventStep_next (s := { s with env := { s.env with schedule := rest } }) hf hreset hdown
    have q := queueMove_eventStep hreset hu
    have hstep : Sys2Proof.core.step s = .next u := by
      show step s = _
      rw [step, nextEvent_of_schedule hsch]
      exact hu
    have hschedule : u.env.schedule = rest := q.schedule
    simp only [Host.Core.run, hstep]
    refine ih (q.kept r hr hne) (fun p hp => ?_) ?_ ?_
    · exact (q.added p hp).elim (hf p) id
    · rw [hschedule]; exact Nat.succ.inj hn
    · rw [hschedule]; exact hrest

/-- Settles O51: the sequencer looks for the host named and for nothing else, and no other move takes a request from the
queue or brings one that stops the machine. -/
theorem anyWaitingRequestMayBeAcceptedNext : Obligations.AnyWaitingRequestMayBeAcceptedNext :=
  ⟨fun k _ hi => eventStep_serve_idle k hi, fun _ _ hi hr hn => eventStep_serve_waiting hi hr hn,
    fun _ _ _ r hr hne hreset h => (queueMove_eventStep hreset h).kept r hr hne,
    fun _ _ _ hr hf hn hm => run_passes_over hr hf hn hm⟩

end Sys2Proof.Machine
end

section
/-! PROOF. The decoder inverts the encoder, the reserved opcode bytes, and the response frame (30_encoding R70 to R79). -/

namespace Sys2Proof

/-! ### Decoding -/

/-- Step 1 of R76 on a frame the port can deliver: `SUB` first, then the opcode map. -/
theorem decode_of_length {op : Byte} {args : List Byte} (h : args.length ≤ 255) :
    decode (op :: args) =
      if subField op ≠ 0 then .error .reservedSub else requestOf (opField op).toNat args := by
  rw [decode, if_neg (Nat.not_lt.2 h)]

/-- With `SUB` zero the opcode byte is 16 times `OP`, which determines the request of the map. -/
theorem decode_ok {op : Byte} {args : List Byte} {i : Instr} (h : decode (op :: args) = .ok i) :
    args.length ≤ 255 ∧ i.opcode = op ∧ i.args = args := by
  have short : args.length ≤ 255 := by
    by_contra long
    rw [decode, if_pos (Nat.not_le.1 long)] at h
    cases h
  rw [decode_of_length short] at h
  split at h
  · cases h
  · next sub =>
    obtain ⟨opcode, hargs⟩ := requestOf_ok h
    refine ⟨short, BitVec.eq_of_toNat_eq ?_, hargs⟩
    rw [opcode_of_fields op, not_not.1 sub, opcode]
    rfl

theorem decode_encode {i : Instr} (h : i.wellFormed = true) : decode (encode i) = .ok i := by
  obtain ⟨sub, op⟩ := Laws.Opcode.every i
  rw [encode, decode_of_length (of_decide_eq_true h), if_neg (not_not.2 sub), op]

/-- Settles O1: the fields of the opcode byte make it up, and each opcode byte has one row of the map. -/
theorem decodeAnswersExactlyTheEncodings : Obligations.DecodeAnswersExactlyTheEncodings := by
  intro f i
  constructor
  · intro h
    cases f with
    | nil => cases h
    | cons op args =>
      obtain ⟨short, rfl, rfl⟩ := decode_ok h
      exact ⟨decide_eq_true short, rfl⟩
  · rintro ⟨wf, rfl⟩
    exact decode_encode wf

/-- Settles O2: each frame is the encoding of its request. -/
theorem framesOfTheOpcodeMapDecode : Obligations.FramesOfTheOpcodeMapDecode := by
  refine ⟨?_, ?_, ?_, ?_, ?_, ?_, ?_, ?_, ?_, ?_, ?_⟩ <;>
    exact (decodeAnswersExactlyTheEncodings _ _).2 ⟨rfl, rfl⟩

/-! ### Reserved opcode bytes -/

theorem Instr.opcode_range (i : Instr) : 0x10 ≤ i.opcode.toNat ∧ i.opcode.toNat ≤ 0xB0 := by
  cases i <;> simp [Instr.opcode]

/-- The opcode map has exactly the rows 0x1 to 0xB (30_encoding R71, R75). -/
theorem requestOf_cases (op : Nat) (args : List Byte) :
    ((op = 0 ∨ 12 ≤ op) ∧ requestOf op args = .error .reservedOp) ∨
      (¬ (op = 0 ∨ 12 ≤ op) ∧ ∃ i, requestOf op args = .ok i) := by
  cases h : requestOf op args with
  | error e =>
    obtain ⟨rfl, reserved⟩ := requestOf_error h
    exact .inl ⟨reserved, rfl⟩
  | ok i =>
    obtain ⟨opcode, -⟩ := requestOf_ok h
    have range := i.opcode_range
    exact .inr ⟨by omega, i, rfl⟩

/-- A frame the port can deliver has a reserved opcode byte, or is one of the eleven requests (30_encoding R75). -/
theorem decode_cases (op : Byte) {args : List Byte} (h : args.length ≤ 255) :
    ((subField op ≠ 0 ∨ (opField op).toNat = 0 ∨ 12 ≤ (opField op).toNat) ∧
        ∃ e ∈ [DecodeError.reservedSub, .reservedOp], decode (op :: args) = .error e) ∨
      (¬ (subField op ≠ 0 ∨ (opField op).toNat = 0 ∨ 12 ≤ (opField op).toNat) ∧
        ∃ i, decode (op :: args) = .ok i) := by
  rw [decode_of_length h]
  by_cases sub : subField op ≠ 0
  · exact .inl ⟨.inl sub, .reservedSub, by simp, if_pos sub⟩
  · rw [if_neg sub]
    rcases requestOf_cases (opField op).toNat args with ⟨reserved, e⟩ | ⟨legal, i, e⟩
    · exact .inl ⟨.inr reserved, .reservedOp, by simp, e⟩
    · exact .inr ⟨not_or.2 ⟨sub, legal⟩, i, e⟩

namespace Machine

theorem serve_of_ok {r : Request} {i : Instr} (h : decode r.frame = .ok i) (s : State) : serve r s = exec i s := by
  rw [serve, h]

theorem serve_of_reserved {r : Request} {e : DecodeError} (he : e ∈ [DecodeError.reservedSub, .reservedOp])
    (h : decode r.frame = .error e) (s : State) : serve r s = .next (raise .illegalOp s) := by
  simp only [List.mem_cons, List.not_mem_nil, or_false] at he
  rcases he with rfl | rfl <;> rw [serve, h]

/-- Settles O3: the decoder's two errors on a frame the port can deliver are the reserved opcode bytes. -/
theorem reservedOpcodesAreAnsweredIllegalOp : Obligations.ReservedOpcodesAreAnsweredIllegalOp := by
  intro op args k s hlen
  rcases decode_cases op hlen with ⟨reserved, e, he, hd⟩ | ⟨legal, i, hd⟩
  · exact ⟨fun _ => serve_of_reserved he hd s, fun legal => absurd reserved legal⟩
  · obtain ⟨-, opcode, hargs⟩ := decode_ok hd
    exact ⟨fun reserved => absurd reserved legal, fun _ => ⟨i, hd, opcode, hargs, serve_of_ok hd s⟩⟩

/-- Settles O4: the five status codes. -/
theorem responseFrameIsStatusByteThenResult : Obligations.ResponseFrameIsStatusByteThenResult :=
  fun _ => ⟨rfl, rfl, rfl, rfl, rfl⟩

end Machine

end Sys2Proof
end

section
/-! PROOF. Every request is answered once or is still in service, and PARSE_ERROR is the answer to the malformed frames
alone (30_encoding R70, R73, R78; 42_transaction R123, R124, R127). -/

namespace Sys2Proof.Machine

/-- From `s` to `t` the request in service was answered once, with a status and a result as `good` says, or it is still
in service (10_state R31). -/
def AnsweredOrInService (good : Status → List Byte → Prop) (s t : State) : Prop :=
  (t.seq = .busy ∧ t.obs.responses = s.obs.responses) ∨
    (t.seq = .idle ∧ ∃ st r, t.obs.responses = s.obs.responses ++ [(s.client, ⟨st, r⟩)] ∧ good st r)

theorem AnsweredOrInService.mono {good good' : Status → List Byte → Prop} {s t : State}
    (h : AnsweredOrInService good s t) (hg : ∀ st r, good st r → good' st r) : AnsweredOrInService good' s t :=
  h.imp_right fun ⟨idle, st, r, given, g⟩ => ⟨idle, st, r, given, hg st r g⟩

/-- A request that is answered at once, when what it does before its answer gives no response. -/
theorem answered_respond {good : Status → List Byte → Prop} {s u : State} {st : Status} {r : List Byte}
    (hc : u.client = s.client) (ho : u.obs.responses = s.obs.responses) (hg : good st r) :
    AnsweredOrInService good s (respond st r u) :=
  .inr ⟨rfl, st, r, by simp [hc, ho], hg⟩

/-! ### The answer to an exchange -/

/-- How many result bytes the exchange in service is answered with when its status is OK. -/
def State.resultLength (s : State) : Nat :=
  match s.engine.dir with
  | .read => s.snap.plen.toNat
  | .write => 0

/-- What the exchange in service can be answered with (42_transaction R123, R124, R127). -/
def State.ExchangeAnswer (s : State) (st : Status) (r : List Byte) : Prop :=
  (st = .ok ∧ r.length = s.resultLength) ∨ (st = .ioError ∧ r = [])

theorem EngineFrame.resultLength {s t : State} (f : EngineFrame s t) : t.resultLength = s.resultLength := by
  simp only [State.resultLength, f.dir, f.snap]

theorem finishExchange_answer (s : State) :
    ∃ st r, finishExchange s = respond st r s.clearErr ∧ s.ExchangeAnswer st r := by
  unfold finishExchange
  split
  · exact ⟨.ioError, [], rfl, .inr ⟨rfl, rfl⟩⟩
  · split
    · next hd => exact ⟨.ok, [], rfl, .inl ⟨rfl, by simp [State.resultLength, hd]⟩⟩
    · next hd => exact ⟨.ok, _, rfl, .inl ⟨rfl, by simp [State.resultLength, hd]⟩⟩

/-- A run of the exchange in service stays within the engine's frame, but for the answer it may end with. -/
theorem runExchange_answer (s : State) :
    EngineFrame s (runExchange s) ∨
      ∃ u st r, EngineFrame s u ∧ runExchange s = respond st r u ∧ s.ExchangeAnswer st r := by
  rcases runEngine_spec (exchangeFuel s) s with f | ⟨u, f, -, e⟩
  · exact .inl f
  · obtain ⟨st, r, e', answer⟩ := finishExchange_answer (deselectStep u)
    have g := f.trans (frame_deselectStep u)
    rw [State.ExchangeAnswer, g.resultLength] at answer
    exact .inr ⟨_, st, r, g.trans (frame_clearErr _), e.trans e', answer⟩

theorem runExchange_client (s : State) : (runExchange s).client = s.client := by
  rcases runExchange_answer s with f | ⟨u, st, r, f, e, -⟩
  · exact f.client
  · rw [e]; exact f.client

theorem answered_runExchange {s : State} (hb : s.seq = .busy) :
    AnsweredOrInService s.ExchangeAnswer s (runExchange s) := by
  rcases runExchange_answer s with f | ⟨u, st, r, f, e, answer⟩
  · exact .inl ⟨f.seq.trans hb, f.responses⟩
  · rw [e]; exact answered_respond f.client f.responses answer

/-! ### The format check -/

/-- What a well formed frame can be answered with (30_encoding R73, R78). -/
def WellFormedAnswer (st : Status) (r : List Byte) : Prop := st ≠ .parseError ∧ (st ≠ .ok → r = [])

theorem State.ExchangeAnswer.wellFormed {s : State} {st : Status} {r : List Byte} (h : s.ExchangeAnswer st r) :
    WellFormedAnswer st r := by
  rcases h with ⟨rfl, -⟩ | ⟨rfl, rfl⟩ <;> simp [WellFormedAnswer]

theorem wellFormedAnswer_ok (r : List Byte) : WellFormedAnswer .ok r := by simp [WellFormedAnswer]

theorem answered_ok {s u : State} {r : List Byte} (hc : u.client = s.client) (ho : u.obs.responses = s.obs.responses) :
    AnsweredOrInService WellFormedAnswer s (respond .ok r u) :=
  answered_respond hc ho (wellFormedAnswer_ok r)

/-- What follows the claim test of a data request with a well formed frame (42_transaction R120). -/
theorem answered_dataRequest (d : Dir) (p : List Byte) (s : State) :
    AnsweredOrInService WellFormedAnswer s
      (if s.claimed then runExchange (beginExchange d p s) else raise .resourceUnavailable s) := by
  split
  · exact (answered_runExchange (s := beginExchange d p s) rfl).mono fun _ _ h => h.wellFormed
  · exact answered_respond rfl rfl (by simp [WellFormedAnswer])

/-- A claim gives no response of its own. -/
theorem answered_claim (r : List Byte) (s : State) :
    AnsweredOrInService WellFormedAnswer s (respond .ok r (claim s).2) := by
  rcases claim_cases s with ⟨-, -, e⟩ | ⟨-, e⟩ <;> rw [e] <;> exact answered_ok rfl rfl

/-- The outcome `o` of a request with format check `ok` in `s`: PARSE_ERROR alone, or an answer of a well formed
frame, now or later. -/
def Checked (ok : Bool) (s : State) (o : Host.Outcome State Fault Refusal) : Prop :=
  (ok = false ∧ o = .next (raise .parseError s)) ∨
    (ok = true ∧ ∃ t, o = .next t ∧ AnsweredOrInService WellFormedAnswer s t)

/-- A request of format F0 that does `t` when it has no argument. -/
theorem checked_f0 {args : List Byte} {s t : State} (h : AnsweredOrInService WellFormedAnswer s t) :
    Checked args.isEmpty s (.next (if operandsF0 args then t else raise .parseError s)) := by
  unfold Checked operandsF0
  cases args.isEmpty
  · exact .inl ⟨rfl, rfl⟩
  · exact .inr ⟨rfl, t, rfl, h⟩

theorem decide_eq_isSome {α : Type} {p : Prop} [Decidable p] (a : α) :
    decide p = (if p then some a else none).isSome := by
  rw [Bool.eq_iff_iff, Option.isSome_ite, decide_eq_true_iff]

/-- A one-argument request is well formed when its operand can be read (30_encoding R73, R74). -/
theorem formatOk_f1 (payloadMax payloadLen : Nat) (args : List Byte) :
    (Instr.numcmdWr args).formatOk payloadMax payloadLen = (operandF1 cmdCap args).isSome ∧
      (Instr.numrwWr args).formatOk payloadMax payloadLen = (operandF1 payloadMax args).isSome := by
  match args with
  | [] => exact ⟨rfl, rfl⟩
  | [v] => exact ⟨decide_eq_isSome v, decide_eq_isSome v⟩
  | _ :: _ :: _ => exact ⟨rfl, rfl⟩

theorem formatOk_cmdWr (payloadMax payloadLen : Nat) (args : List Byte) :
    (Instr.cmdWr args).formatOk payloadMax payloadLen = (operandsFN args).isSome := by
  cases args with
  | nil => rfl
  | cons n bs => exact (Bool.decide_and ..).symm.trans (decide_eq_isSome (n, bs))

theorem formatOk_dataWr (payloadMax payloadLen : Nat) (args : List Byte) :
    (Instr.dataWr args).formatOk payloadMax payloadLen = (operandsFP payloadLen args).isSome :=
  decide_eq_isSome args

/-- Everything a request can come to: it is malformed and only answers PARSE_ERROR, or it is well formed and is
answered otherwise, at once or later. -/
theorem exec_checked (i : Instr) (s : State) :
    Checked (i.formatOk s.params.payloadMax s.payloadLen.toNat) s (exec i s) := by
  cases i with
  | numcmdRd args | cmdRd args | numrwRd args | status args => exact checked_f0 (answered_ok rfl rfl)
  | lockRd args => exact checked_f0 (answered_claim ..)
  | dataRd args => exact checked_f0 (answered_dataRequest ..)
  | lockWr args => exact .inr ⟨rfl, _, rfl, answered_ok rfl rfl⟩
  | numcmdWr args | numrwWr args | cmdWr args =>
    simp only [formatOk_f1, formatOk_cmdWr, exec, execNumcmdWr, execNumrwWr, execCmdWr]
    split
    · next e => exact .inl ⟨by rw [e]; rfl, rfl⟩
    · next e => exact .inr ⟨by rw [e]; rfl, _, rfl, answered_ok rfl rfl⟩
  | dataWr args =>
    simp only [formatOk_dataWr, exec, execDataWr]
    split
    · next e => exact .inl ⟨by rw [e]; rfl, rfl⟩
    · next ds e => exact .inr ⟨by rw [e]; rfl, _, rfl, answered_dataRequest .write ds s⟩

/-- Settles O6: the format check, the claim test and the run of the exchange each end in one answer, or in none yet. -/
theorem everyRequestIsAnsweredOnceOrStillInService : Obligations.EveryRequestIsAnsweredOnceOrStillInService := by
  refine ⟨fun i s => ?_, fun k s hb => ?_⟩
  · rcases exec_checked i s with ⟨-, e⟩ | ⟨-, t, e, answered⟩
    · exact ⟨_, e, answered_respond rfl rfl fun _ => rfl⟩
    · exact ⟨t, e, answered.mono fun st r good => good.2⟩
  · exact ⟨_, sequencerStep_busy hb k, (sameQueue_runExchange s).1, runExchange_client s, answered_runExchange hb⟩

/-- Settles O7: the format check of R73 is what the arms of `exec` test, and they raise PARSE_ERROR nowhere else. -/
theorem malformedFramesAreAnsweredParseError : Obligations.MalformedFramesAreAnsweredParseError := by
  intro i s
  rcases exec_checked i s with ⟨malformed, e⟩ | ⟨wellFormed, t, e, answered⟩
  · exact ⟨fun _ => e, fun h => absurd (h.symm.trans malformed) Bool.noConfusion⟩
  · refine ⟨fun h => absurd (wellFormed.symm.trans h) Bool.noConfusion, fun _ => ⟨t, e, fun r parseError => ?_⟩⟩
    rcases answered with ⟨-, kept⟩ | ⟨-, st, r', given, good, -⟩
    · rw [kept] at parseError
      simp at parseError
    · rw [given] at parseError
      simp only [List.append_cancel_left_eq, List.cons.injEq, Prod.mk.injEq, Response.mk.injEq] at parseError
      exact good parseError.1.2.1

end Sys2Proof.Machine
end

section
/-! PROOF. The request each text operation sends first, and the single value of a text (30_encoding R80; 45_text_frontend
R184 to R195). -/

namespace Sys2Proof.Machine

/-! ### White space is in no number -/

theorem isSpace_of_mem {c : Byte} (h : c ∈ [(0x20 : Byte), 0x09, 0x0A, 0x0B, 0x0C, 0x0D]) : isSpace c = true := by
  simpa [isSpace, or_assoc] using h

/-- A white-space character is no digit, and neither the `0` nor the `x` that marks a radix (45_text_frontend R181, R184). -/
theorem not_number_char_of_isSpace {c : Byte} (h : isSpace c = true) :
    digitValue c = none ∧ c ≠ 0x30 ∧ c ≠ 0x78 ∧ c ≠ 0x58 := by
  simp only [isSpace, Bool.or_eq_true, beq_iff_eq] at h
  rcases h with ((((rfl | rfl) | rfl) | rfl) | rfl) | rfl <;> decide

section
variable {c : Byte} (hc : isSpace c = true)
include hc

theorem digitsFrom_of_space (radix : Nat) {cs : List Byte} (hm : c ∈ cs) (acc : Nat) :
    digitsFrom radix cs acc = none := by
  induction cs generalizing acc with
  | nil => cases hm
  | cons d ds ih =>
    unfold digitsFrom
    rcases List.mem_cons.1 hm with rfl | hm
    · rw [(not_number_char_of_isSpace hc).1]
    · split
      · rfl
      · split
        · exact ih hm _
        · rfl

theorem digits_of_space (radix : Nat) {cs : List Byte} (hm : c ∈ cs) : digits radix cs = none := by
  unfold digits
  split
  · rfl
  · exact digitsFrom_of_space hc radix hm 0

/-- What stands behind the mark of a radix holds the white space, and is read as digits. -/
theorem numberAuto_of_space {t : List Byte} (hm : c ∈ t) : numberAuto t = none := by
  obtain ⟨-, notZero, notX, notUpperX⟩ := not_number_char_of_isSpace hc
  cases t with
  | nil => cases hm
  | cons d ds =>
    simp only [numberAuto]
    split
    · next zero =>
      have hds : c ∈ ds := (List.mem_cons.1 hm).resolve_left (by rwa [eq_of_beq zero])
      split
      · next x hs =>
        split
        · next marked =>
          have other : c ≠ x := by
            rintro rfl
            simp only [Bool.or_eq_true, beq_iff_eq, notX, notUpperX, or_self] at marked
          exact digits_of_space hc 16 ((List.mem_cons.1 hds).resolve_left other)
        · exact digits_of_space hc 8 hds
      · cases hds
    · exact digits_of_space hc 10 hm

theorem byteToken_of_space (m : ParseMode) {t : List Byte} (hm : c ∈ t) : byteToken m t = none := by
  have noNumber : number m t = none := by
    cases m with
    | auto => exact numberAuto_of_space hc hm
    | dec => exact digits_of_space hc 10 hm
  rw [byteToken, noNumber]

end

/-! ### The single value (45_text_frontend R195) -/

theorem singleValue_newline (m : ParseMode) (str : List Byte) : singleValue m (str ++ [0x0A]) = byteToken m str := by
  simp [singleValue, dropNewline]

theorem singleValue_no_newline (m : ParseMode) {str : List Byte} (h : str.getLast? ≠ some 0x0A) :
    singleValue m str = byteToken m str := by
  rw [singleValue, dropNewline, if_neg h]

/-! ### The move that sends -/

/-- A free host that begins an operation queues its request and waits for the answer (10_state R32; 45_text_frontend
R180). -/
theorem submitText_send {s : State} {k : Nat} {op : TextOp} {i : Instr} {learning : Bool} (free : s.hostFree k = true)
    (h : beginText s.params op = .send i learning) :
    submitText k op s = { s with
      pending := s.pending ++ [⟨k, encode i⟩]
      jobs := s.jobs ++ [⟨k, op, s.obs.responses.length, learning⟩] } := by
  obtain ⟨-, notWaiting, notInText⟩ := (hostFree_iff s k).1 free
  rw [submitText, if_pos free, h]
  simp only [frontAct, jobs_filter_of_not_busy notInText]
  exact if_neg (ne_true_of_eq_false notWaiting)

theorem decimalLine_byte (b : Byte) : decimalLine [b] = decimal b ++ [0x0A] := by simp [decimalLine]

/-- Settles O60: the rows of `beginText` and `textSuccess`, the single value, and the move that sends. -/
theorem textOperationsSendTheirRequests : Obligations.TextOperationsSendTheirRequests := by
  refine ⟨fun p str b n bs v => ?_, fun m str => ?_, fun s k op i learning free h => ?_⟩
  · refine ⟨rfl, rfl, rfl, rfl, rfl, rfl, rfl, fun h => ?_, fun h => ?_, fun e he => ?_, rfl, rfl, rfl, rfl⟩
    · simp only [beginText, h]
    · simp only [beginText, h]
    · simp only [List.mem_cons, List.not_mem_nil, or_false] at he
      rcases he with rfl | rfl <;> simp only [answerText, textSuccess, decimalLine_byte]
  · exact ⟨singleValue_newline m str, singleValue_no_newline m,
      fun c hc hm => byteToken_of_space (isSpace_of_mem hc) m hm⟩
  · exact congrArg Host.Outcome.next (submitText_send free h)

end Sys2Proof.Machine
end

section
/-! PROOF. The six configuration requests: their equations on well formed and on malformed frames, and that the command
buffer is all they use (41_config R100 to R107). -/

namespace Sys2Proof.Machine

/-! ### Well formed and malformed frames -/

theorem operandF1_isSome_iff {bound : Nat} {args : List Byte} :
    (operandF1 bound args).isSome = true ↔ ∃ v, args = [v] ∧ v.toNat ≤ bound := by
  match args with
  | [] => simp [operandF1]
  | [v] => simp [operandF1]
  | _ :: _ :: _ => simp [operandF1]

theorem operandsFN_isSome_iff {args : List Byte} :
    (operandsFN args).isSome = true ↔ ∃ n bs, args = n :: bs ∧ n.toNat ≤ cmdCap ∧ bs.length = n.toNat := by
  cases args <;> simp [operandsFN]

theorem formatOk_numcmdWr_iff {payloadMax payloadLen : Nat} {args : List Byte} :
    (Instr.numcmdWr args).formatOk payloadMax payloadLen = true ↔ ∃ v, args = [v] ∧ v.toNat ≤ cmdCap := by
  rw [(formatOk_f1 payloadMax payloadLen args).1, operandF1_isSome_iff]

theorem formatOk_numrwWr_iff {payloadMax payloadLen : Nat} {args : List Byte} :
    (Instr.numrwWr args).formatOk payloadMax payloadLen = true ↔ ∃ v, args = [v] ∧ v.toNat ≤ payloadMax := by
  rw [(formatOk_f1 payloadMax payloadLen args).2, operandF1_isSome_iff]

theorem formatOk_cmdWr_iff {payloadMax payloadLen : Nat} {args : List Byte} :
    (Instr.cmdWr args).formatOk payloadMax payloadLen = true ↔
      ∃ n bs, args = n :: bs ∧ n.toNat ≤ cmdCap ∧ bs.length = n.toNat := by
  rw [formatOk_cmdWr, operandsFN_isSome_iff]

/-- A malformed frame only answers PARSE_ERROR (30_encoding R73). -/
theorem exec_malformed {i : Instr} {s : State} (h : ¬ i.formatOk s.params.payloadMax s.payloadLen.toNat = true) :
    exec i s = .next (respond .parseError [] s) :=
  (malformedFramesAreAnsweredParseError i s).1 (Bool.eq_false_iff.2 h)

theorem exec_numrwWr {v : Byte} (s : State) (hv : v.toNat ≤ s.params.payloadMax) :
    exec (.numrwWr [v]) s = .next (respond .ok [] (s.setPayloadLen v)) := by
  simp [exec, execNumrwWr, operandF1, hv]

theorem exec_numcmdRd (s : State) : exec (.numcmdRd []) s = .next (respond .ok [zext8 s.cmdLen] s) := rfl

theorem exec_numrwRd (s : State) : exec (.numrwRd []) s = .next (respond .ok [s.payloadLen] s) := rfl

/-- A length request with no argument or several is malformed (41_config R100, R104). -/
theorem exec_length_args {args : List Byte} (s : State) (h : args.length ≠ 1) :
    ∀ i ∈ [Instr.numcmdWr args, .numrwWr args], exec i s = .next (respond .parseError [] s) := by
  have notOne : ∀ (p : Byte → Prop), ¬ ∃ v, args = [v] ∧ p v := fun p ⟨v, e, _⟩ => h (congrArg List.length e)
  simp only [List.forall_mem_cons]
  exact ⟨exec_malformed (formatOk_numcmdWr_iff.not.2 (notOne _)), exec_malformed (formatOk_numrwWr_iff.not.2 (notOne _)),
    List.forall_mem_nil _⟩

/-- A read with an argument is malformed (41_config R101, R103, R105). -/
theorem exec_read_args {args : List Byte} (s : State) (h : args ≠ []) :
    ∀ i ∈ [Instr.numcmdRd args, .cmdRd args, .numrwRd args], exec i s = .next (respond .parseError [] s) := by
  have notEmpty : ¬ args.isEmpty = true := mt List.isEmpty_iff.1 h
  simp only [List.forall_mem_cons]
  exact ⟨exec_malformed notEmpty, exec_malformed notEmpty, exec_malformed notEmpty, List.forall_mem_nil _⟩

/-! ### What each request does -/

/-- Settles O8: `CMD_LEN` is wide enough for every length the check lets through. -/
theorem numcmdWrStoresALegalLength : Obligations.NumcmdWrStoresALegalLength := fun s v args =>
  ⟨decode_encode (i := .numcmdWr [v]) rfl,
    fun hv => ⟨exec_numcmdWr s hv, extractLsb_length_toNat hv⟩,
    fun hv => exec_malformed fun ok => Nat.not_le.2 hv (of_decide_eq_true ok),
    fun h => exec_length_args s h _ (by simp)⟩

/-- Settles O10: the check is against `P_PAYLOAD_MAX`. -/
theorem numrwWrStoresALegalLength : Obligations.NumrwWrStoresALegalLength := fun s v args =>
  ⟨decode_encode (i := .numrwWr [v]) rfl,
    fun hv => exec_numrwWr s hv,
    fun hv => exec_malformed fun ok => Nat.not_le.2 hv (of_decide_eq_true ok),
    fun h => exec_length_args s h _ (by simp)⟩

/-- Settles O9: the cells are those of `putBytes` from index 0, which keeps the old ones behind the bytes. -/
theorem cmdWrStoresLengthAndBytes : Obligations.CmdWrStoresLengthAndBytes := by
  intro s n bs
  have wellFormed {m l : Nat} (ok : (Instr.cmdWr (n :: bs)).formatOk m l = true) :
      n.toNat ≤ cmdCap ∧ bs.length = n.toNat := by
    obtain ⟨_, _, ⟨⟩, hn, hb⟩ := formatOk_cmdWr_iff.1 ok
    exact ⟨hn, hb⟩
  refine ⟨fun short => decode_encode (i := .cmdWr (n :: bs)) (decide_eq_true short), fun hn hb => ?_,
    fun hn => exec_malformed fun ok => Nat.not_le.2 hn (wellFormed ok).1,
    fun hb => exec_malformed fun ok => hb (wellFormed ok).2, rfl⟩
  have fits : 0 + bs.length ≤ 4 := by omega
  exact ⟨putBytes 0 bs s.cmdBytes, exec_cmdWr s hn hb, extractLsb_length_toNat hn,
    by simpa [hb] using putBytes_toList bs 0 s.cmdBytes fits⟩

/-- Settles O11: the three reads, with the bounds of the invariant. -/
theorem configurationReadsReturnTheRegisters : Obligations.ConfigurationReadsReturnTheRegisters := by
  intro s args
  refine ⟨decode_encode (i := .numcmdRd []) rfl, decode_encode (i := .cmdRd []) rfl, decode_encode (i := .numrwRd []) rfl,
    exec_numcmdRd s, exec_cmdRd s, exec_numrwRd s, fun inv => ⟨?_, inv.regs.payloadLen⟩, fun h => ?_⟩
  · rw [BitVec.toNat_setWidth]
    exact (Nat.mod_le ..).trans inv.regs.cmdLen
  · exact ⟨exec_read_args s h _ (by simp), exec_read_args s h _ (by simp), exec_read_args s h _ (by simp)⟩

/-- Settles O12: `CMD_RD` takes the first `n` cells, which are the bytes `CMD_WR` put there. -/
theorem cmdRdReturnsWhatCmdWrWrote : Obligations.CmdRdReturnsWhatCmdWrWrote := by
  refine ⟨fun s n bs hn hb => ⟨_, _, exec_cmdWr s hn hb, exec_cmdRd _, ?_⟩, fun s args =>
    ⟨decode_encode (i := .cmdRd []) rfl, exec_cmdRd s, fun h => exec_read_args s h _ (by simp)⟩⟩
  have read : (putBytes 0 bs s.cmdBytes).toList.take n.toNat = bs := hb ▸ putBytes_take bs s.cmdBytes (hb.trans_le hn)
  simp [State.command, zext8_length hn, extractLsb_length_toNat hn, read]

/-- Settles O15: a well formed frame has the operands whose values the registers get. -/
theorem configurationWritesAreAllOrNothing : Obligations.ConfigurationWritesAreAllOrNothing := by
  intro args s i hi
  by_cases ok : i.formatOk s.params.payloadMax s.payloadLen.toNat = true
  case neg => exact ⟨_, exec_malformed ok, .inr ⟨Bool.eq_false_iff.2 ok, rfl⟩⟩
  case pos =>
    simp only [List.mem_cons, List.not_mem_nil, or_false] at hi
    rcases hi with rfl | rfl | rfl
    · obtain ⟨v, rfl, hv⟩ := formatOk_numcmdWr_iff.1 ok
      exact ⟨_, exec_numcmdWr s hv, .inl ⟨ok, rfl, fun _ => extractLsb_length_toNat hv, nofun, nofun⟩⟩
    · obtain ⟨n, bs, rfl, hn, hb⟩ := formatOk_cmdWr_iff.1 ok
      have len : (n.extractLsb' 0 3).toNat = n.toNat := extractLsb_length_toNat hn
      have cells : (putBytes 0 bs s.cmdBytes).toList.take (n.extractLsb' 0 3).toNat = bs := by
        rw [len, ← hb, putBytes_take bs s.cmdBytes (hb.trans_le hn)]
      exact ⟨_, exec_cmdWr s hn hb, .inl ⟨ok, rfl, nofun, fun _ => ⟨len, cells⟩, nofun⟩⟩
    · obtain ⟨v, rfl, hv⟩ := formatOk_numrwWr_iff.1 ok
      exact ⟨_, exec_numrwWr s hv, .inl ⟨ok, rfl, nofun, nofun, fun _ => rfl⟩⟩

/-! ### What the requests read and write -/

/-- The two states have the same parameters and the same command buffer (10_state R23 to R25). -/
structure SameBuffer (s s' : State) : Prop where
  params     : s'.params = s.params
  cmdBytes   : s'.cmdBytes = s.cmdBytes
  cmdLen     : s'.cmdLen = s.cmdLen
  payloadLen : s'.payloadLen = s.payloadLen

/-- `s` with the command buffer of `u`, after the response `r` to the host in service. -/
def State.answeredWith (s u : State) (r : Response) : State :=
  { s with
    cmdBytes := u.cmdBytes, cmdLen := u.cmdLen, payloadLen := u.payloadLen, seq := .idle
    obs := { s.obs with responses := s.obs.responses ++ [(s.client, r)] } }

theorem SameBuffer.respond_eq {s s' : State} (h : SameBuffer s s') (st : Status) (r : List Byte) :
    respond st r s' = s'.answeredWith s ⟨st, r⟩ := by
  simp only [State.answeredWith, ← h.cmdBytes, ← h.cmdLen, ← h.payloadLen]
  rfl

/-- In every state with the command buffer of `s`, the request leaves the command buffer of `u`, gives the response `r` and
does nothing else (41_config R106). -/
def UsesBufferAlone (i : Instr) (s u : State) (r : Response) : Prop :=
  ∀ s', SameBuffer s s' → exec i s' = .next (s'.answeredWith u r)

theorem usesBufferAlone_malformed {i : Instr} {s : State}
    (h : ¬ i.formatOk s.params.payloadMax s.payloadLen.toNat = true) :
    UsesBufferAlone i s s ⟨.parseError, []⟩ := by
  intro s' same
  rw [exec_malformed (by rwa [same.params, same.payloadLen]), same.respond_eq]

theorem usesBufferAlone_numcmdWr {v : Byte} (s : State) (hv : v.toNat ≤ cmdCap) :
    UsesBufferAlone (.numcmdWr [v]) s (s.setCmdLen v) ⟨.ok, []⟩ := by
  intro s' same
  rw [exec_numcmdWr s' hv]
  simp only [State.answeredWith, setCmdLen_cmdBytes, setCmdLen_payloadLen, ← same.cmdBytes, ← same.payloadLen]
  rfl

theorem usesBufferAlone_cmdWr {n : Byte} {bs : List Byte} (s : State) (hn : n.toNat ≤ cmdCap) (hb : bs.length = n.toNat) :
    UsesBufferAlone (.cmdWr (n :: bs)) s ((s.setCmdBytes bs).setCmdLen n) ⟨.ok, []⟩ := by
  intro s' same
  rw [exec_cmdWr s' hn hb]
  simp only [State.answeredWith, setCmdLen_cmdBytes, setCmdBytes_cmdBytes, setCmdLen_payloadLen, setCmdBytes_payloadLen,
    ← same.cmdBytes, ← same.payloadLen]
  rfl

theorem usesBufferAlone_numrwWr {v : Byte} (s : State) (hv : v.toNat ≤ s.params.payloadMax) :
    UsesBufferAlone (.numrwWr [v]) s (s.setPayloadLen v) ⟨.ok, []⟩ := by
  intro s' same
  rw [exec_numrwWr s' (by rwa [same.params])]
  simp only [State.answeredWith, setPayloadLen_cmdBytes, setPayloadLen_cmdLen, ← same.cmdBytes, ← same.cmdLen]
  rfl

theorem usesBufferAlone_read (s : State) :
    ∀ i ∈ [Instr.numcmdRd [], .cmdRd [], .numrwRd []], ∃ r, UsesBufferAlone i s s r := by
  simp only [List.forall_mem_cons]
  refine ⟨⟨⟨.ok, [zext8 s.cmdLen]⟩, fun s' same => ?_⟩, ⟨⟨.ok, zext8 s.cmdLen :: s.command⟩, fun s' same => ?_⟩,
    ⟨⟨.ok, [s.payloadLen]⟩, fun s' same => ?_⟩, List.forall_mem_nil _⟩
  · rw [exec_numcmdRd, same.respond_eq, same.cmdLen]
  · rw [exec_cmdRd, same.respond_eq, State.command, same.cmdLen, same.cmdBytes, State.command]
  · rw [exec_numrwRd, same.respond_eq, same.payloadLen]

/-- The command buffer `u` that a configuration request leaves is that of `s` but for the registers the request names
(41_config R100 to R105). -/
structure WritesOwnRegisters (args : List Byte) (i : Instr) (s u : State) : Prop where
  cmdLen     : i ∉ [Instr.numcmdWr args, .cmdWr args] → u.cmdLen = s.cmdLen
  cmdBytes   : i ≠ .cmdWr args → u.cmdBytes = s.cmdBytes
  payloadLen : i ≠ .numrwWr args → u.payloadLen = s.payloadLen

theorem writesOwnRegisters_refl (args : List Byte) (i : Instr) (s : State) : WritesOwnRegisters args i s s :=
  ⟨fun _ => rfl, fun _ => rfl, fun _ => rfl⟩

section
variable {args : List Byte} {i : Instr}
  (hi : i ∈ [Instr.numcmdWr args, .numcmdRd args, .cmdWr args, .cmdRd args, .numrwWr args, .numrwRd args])
include hi

/-- What a configuration request does, its response included, is settled by the parameters and the command buffer. -/
theorem configuration_usesBufferAlone (s : State) :
    ∃ u r, UsesBufferAlone i s u r ∧ WritesOwnRegisters args i s u := by
  by_cases ok : i.formatOk s.params.payloadMax s.payloadLen.toNat = true
  case neg => exact ⟨s, _, usesBufferAlone_malformed ok, writesOwnRegisters_refl args i s⟩
  case pos =>
    simp only [List.mem_cons, List.not_mem_nil, or_false] at hi
    have read (hr : i ∈ [Instr.numcmdRd [], .cmdRd [], .numrwRd []]) :
        ∃ u r, UsesBufferAlone i s u r ∧ WritesOwnRegisters args i s u := by
      obtain ⟨r, h⟩ := usesBufferAlone_read s i hr
      exact ⟨s, r, h, writesOwnRegisters_refl args i s⟩
    rcases hi with rfl | rfl | rfl | rfl | rfl | rfl
    · obtain ⟨v, rfl, hv⟩ := formatOk_numcmdWr_iff.1 ok
      exact ⟨_, _, usesBufferAlone_numcmdWr s hv, by simp, fun _ => rfl, fun _ => rfl⟩
    · cases List.isEmpty_iff.1 ok
      exact read (by simp)
    · obtain ⟨n, bs, rfl, hn, hb⟩ := formatOk_cmdWr_iff.1 ok
      exact ⟨_, _, usesBufferAlone_cmdWr s hn hb, by simp, by simp, fun _ => rfl⟩
    · cases List.isEmpty_iff.1 ok
      exact read (by simp)
    · obtain ⟨v, rfl, hv⟩ := formatOk_numrwWr_iff.1 ok
      exact ⟨_, _, usesBufferAlone_numrwWr s hv, fun _ => rfl, fun _ => rfl, by simp⟩
    · cases List.isEmpty_iff.1 ok
      exact read (by simp)

/-- A next state of a configuration request is the old one but for the registers it names and the answer. -/
theorem configuration_next {s t : State} (h : exec i s = .next t) :
    ∃ u r, t = s.answeredWith u r ∧ WritesOwnRegisters args i s u := by
  obtain ⟨u, r, alone, own⟩ := configuration_usesBufferAlone hi s
  cases h.symm.trans (alone s ⟨rfl, rfl, rfl, rfl⟩)
  exact ⟨u, r, rfl, own⟩

end

/-- Settles O14: both states have the command buffer that settles the registers left and the response. -/
theorem configurationRequestsUseTheCommandBufferAlone : Obligations.ConfigurationRequestsUseTheCommandBufferAlone := by
  intro args s s' params cmdBytes cmdLen payloadLen i hi
  obtain ⟨u, r, alone, -⟩ := configuration_usesBufferAlone hi s
  exact ⟨_, _, r, alone s ⟨rfl, rfl, rfl, rfl⟩, alone s' ⟨params, cmdBytes, cmdLen, payloadLen⟩, rfl, rfl, rfl, rfl, rfl⟩

/-- Settles O16: `answeredWith` leaves the fields outside the command buffer, and each request names its registers. -/
theorem configurationRequestsFrame : Obligations.ConfigurationRequestsFrame := by
  intro args s t
  refine ⟨fun i hi h => ?_, fun i hi h => ?_, fun i hi h => ?_, fun i hi h => ?_⟩
  · obtain ⟨u, r, rfl, -⟩ := configuration_next hi h
    exact ⟨rfl, rfl, rfl, rfl, rfl, rfl, rfl, rfl, rfl, rfl, rfl, rfl, rfl, rfl, fun _ => rfl⟩
  · obtain ⟨u, r, rfl, own⟩ := configuration_next (args := args) (by revert i; simp) h
    exact own.cmdLen (by revert i; simp)
  · obtain ⟨u, r, rfl, own⟩ := configuration_next (args := args) (by revert i; simp) h
    exact own.cmdBytes (by revert i; simp)
  · obtain ⟨u, r, rfl, own⟩ := configuration_next (args := args) (by revert i; simp) h
    exact own.payloadLen (by revert i; simp)

end Sys2Proof.Machine
end

section
/-! PROOF. The checks of a data request, its frame, and the release of CS on every exit of its exchange (42_transaction
R120 to R122, R127, R128). -/

namespace Sys2Proof.Machine

/-! ### The checks -/

theorem exec_dataRd {s : State} (hc : s.claimed = true) : exec (.dataRd []) s =
    .next (runExchange (beginExchange .read (List.replicate s.payloadLen.toNat s.params.readFill) s)) := by
  simp [exec, execDataRd, operandsF0, hc]

theorem exec_dataWr {s : State} {args : List Byte} (hc : s.claimed = true) (hl : args.length = s.payloadLen.toNat) :
    exec (.dataWr args) s = .next (runExchange (beginExchange .write args s)) := by
  simp [exec, execDataWr, operandsFP, hc, hl]

/-- On claimed lines a well formed data request runs its exchange. -/
theorem exec_dataRequest {args : List Byte} {s : State} {i : Instr} (hi : i ∈ [Instr.dataRd args, .dataWr args])
    (hc : s.claimed = true) (hf : i.formatOk s.params.payloadMax s.payloadLen.toNat = true) :
    ∃ d p, p.length = s.payloadLen.toNat ∧ exec i s = .next (runExchange (beginExchange d p s)) := by
  simp only [List.mem_cons, List.not_mem_nil, or_false] at hi
  rcases hi with rfl | rfl
  · cases List.isEmpty_iff.1 hf
    exact ⟨_, _, List.length_replicate, exec_dataRd hc⟩
  · have hl : args.length = s.payloadLen.toNat := by simpa [Instr.formatOk] using hf
    exact ⟨_, _, hl, exec_dataWr hc hl⟩

/-- The two data requests of a payload, as the statements on aborts and missing ticks name them, run their exchanges,
whatever the transport and the agents do. -/
theorem exec_eitherRequest {s : State} {args : List Byte} (hc : s.claimed = true)
    (hl : args.length = s.payloadLen.toNat) :
    ∀ x ∈ [(Instr.dataRd [], List.replicate s.payloadLen.toNat s.params.readFill), (Instr.dataWr args, args)],
    x.2.length = s.payloadLen.toNat ∧
      ∃ d, ∀ R Y, exec x.1 (s.script R Y) = .next (runExchange (beginExchange d x.2 (s.script R Y))) := by
  simp only [List.forall_mem_cons]
  exact ⟨⟨List.length_replicate, .read, fun R Y => exec_dataRd hc⟩, ⟨hl, .write, fun R Y => exec_dataWr hc hl⟩,
    List.forall_mem_nil _⟩

/-- Settles O26: each failed check raises its status, and the state in which the exchange runs is `beginExchange`. -/
theorem dataRequestsCheckFrameThenClaim : Obligations.DataRequestsCheckFrameThenClaim := by
  intro s args
  have malformed {i : Instr} : i.formatOk s.params.payloadMax s.payloadLen.toNat = false →
      exec i s = .next (respond .parseError [] s) := (malformedFramesAreAnsweredParseError i s).1
  refine ⟨fun h => malformed ?_, fun h => malformed ?_, fun hc => ?_, fun hc hl => ?_, fun hc => ?_, fun hc hl => ?_⟩
  · simpa [Instr.formatOk] using h
  · simpa [Instr.formatOk] using h
  · simp [exec, execDataRd, operandsF0, hc, raise]
  · simp [exec, execDataWr, operandsFP, hc, hl, raise]
  · exact ⟨_, rfl, rfl, rfl, rfl, rfl, exec_dataRd hc⟩
  · exact ⟨_, rfl, rfl, rfl, rfl, rfl, exec_dataWr hc hl⟩

/-! ### The frame -/

/-- What no data request and no exchange changes: `EngineFrame` without the fields that taking a request in service and
answering it change. -/
structure RequestFrame (s t : State) : Prop where
  params     : t.params = s.params
  cmdBytes   : t.cmdBytes = s.cmdBytes
  cmdLen     : t.cmdLen = s.cmdLen
  payloadLen : t.payloadLen = s.payloadLen
  claimed    : t.claimed = s.claimed
  owner      : t.owner = s.owner
  client     : t.client = s.client
  pending    : t.pending = s.pending
  jobs       : t.jobs = s.jobs
  miso       : t.pin.miso = s.pin.miso
  rsv        : t.pin.rsv = s.pin.rsv
  schedule   : t.env.schedule = s.env.schedule
  text       : t.obs.text = s.obs.text

theorem EngineFrame.requestFrame {s t : State} (f : EngineFrame s t) : RequestFrame s t :=
  ⟨f.params, f.cmdBytes, f.cmdLen, f.payloadLen, f.claimed, f.owner, f.client, f.pending, f.jobs, f.miso, f.rsv,
    f.schedule, f.text⟩

theorem requestFrame_respond {s t : State} (f : RequestFrame s t) (st : Status) (r : List Byte) :
    RequestFrame s (respond st r t) := { f with }

theorem requestFrame_runExchange (s : State) : RequestFrame s (runExchange s) := by
  rcases runExchange_answer s with f | ⟨u, st, r, f, e, -⟩
  · exact f.requestFrame
  · rw [e]; exact requestFrame_respond f.requestFrame st r

theorem requestFrame_beginExchange (d : Dir) (p : List Byte) (s : State) :
    RequestFrame s (runExchange (beginExchange d p s)) := { requestFrame_runExchange (beginExchange d p s) with }

theorem requestFrame_dataRequest {args : List Byte} {s t : State} {i : Instr}
    (hi : i ∈ [Instr.dataRd args, .dataWr args]) (h : exec i s = .next t) : RequestFrame s t := by
  rcases dataRequest_cases hi h with ⟨st, rfl⟩ | ⟨-, -, d, p, -, -, rfl⟩
  · exact requestFrame_respond (EngineFrame.refl s).requestFrame st []
  · exact requestFrame_beginExchange d p s

/-- Settles O34: the frame, and only a request that found the lines claimed runs an exchange. -/
theorem dataRequestsKeepConfigurationAndClaim : Obligations.DataRequestsKeepConfigurationAndClaim := by
  intro args s t i hi h
  have f := requestFrame_dataRequest hi h
  refine ⟨f.cmdBytes, f.cmdLen, f.payloadLen, f.claimed, fun moved => ?_⟩
  rcases dataRequest_cases hi h with ⟨st, rfl⟩ | ⟨hc, -⟩
  · exact absurd rfl moved
  · refine ⟨hc, fun agree => ?_⟩
    have own : ∀ l, s.owner.get l = .self := ((ownersAgree_iff_claimed s).1 agree).1.1 hc
    exact ⟨own, by rw [f.owner]; exact own⟩

/-! ### XFER_BUF -/

/-- Where the exchange of `s` may not write: anywhere for a write, from `PAYLOAD_LEN` on for a read (10_state R27). -/
structure BufferKept (s t : State) : Prop where
  frame : EngineFrame s t
  wf    : XferBuf.wf t.xferBuf
  read  : ∀ j, s.engine.dir = .write ∨ s.snap.plen.toNat ≤ j → t.bufRead j = s.bufRead j

theorem bufferKept_engineStep {s t : State} (h : BufferKept s t) : BufferKept s (engineStep t).state := by
  have f := h.frame.trans (frame_engineStep t)
  rcases engineStep_xferBuf t with e | ⟨v, -, hlt, hr, e⟩
  · exact ⟨f, by rw [e]; exact h.wf, fun j hj => by rw [State.bufRead, e]; exact h.read j hj⟩
  · rw [h.frame.snap] at hlt
    rw [h.frame.dir] at hr
    refine ⟨f, by rw [e]; exact XferBuf.wf_write _ _ v h.wf, fun j hj => ?_⟩
    have other : j ≠ t.engine.byteIdx := by
      rcases hj with hw | hj
      · rw [hw] at hr; cases hr
      · omega
    rw [State.bufRead, e, XferBuf.read_write _ _ _ v h.wf.1, if_neg other]
    exact h.read j hj

theorem bufRead_runExchange {s : State} (hw : XferBuf.wf s.xferBuf) {j : Nat}
    (hj : s.engine.dir = .write ∨ s.snap.plen.toNat ≤ j) : (runExchange s).bufRead j = s.bufRead j := by
  rcases runEngine_keeps (BufferKept s) (fun t h _ => bufferKept_engineStep h) (exchangeFuel s) s
    ⟨.refl s, hw, fun _ _ => rfl⟩ with h | ⟨u, h, -, e⟩
  · exact h.read j hj
  · obtain ⟨st, r, e', -⟩ := finishExchange_eq (deselectStep u)
    have same : (runExchange s).xferBuf = u.xferBuf := by rw [runExchange, e, e']; simp [deselectStep]
    rw [State.bufRead, same]
    exact h.read j hj

/-- Settles O35: the engine's frame, with its writes to XFER_BUF below `PAYLOAD_LEN` and for a read alone. -/
theorem dataRequestsFrame : Obligations.DataRequestsFrame := by
  intro args s t hw
  refine ⟨fun i hi h => ?_, fun h j => ?_, fun h j hj => ?_⟩
  · obtain ⟨params, cmdBytes, cmdLen, payloadLen, claimed, owner, client, pending, jobs, miso, rsv, schedule, text⟩ :=
      requestFrame_dataRequest hi h
    exact ⟨params, cmdBytes, cmdLen, payloadLen, claimed, owner, client, pending, jobs, miso, rsv, schedule, text⟩
  · rcases dataRequest_cases (args := args) (by simp) h with ⟨st, rfl⟩ | ⟨-, -, d, p, -, hd, rfl⟩
    · rfl
    · exact bufRead_runExchange (s := beginExchange d p s) hw (.inl (hd rfl))
  · rcases dataRequest_cases (args := args) (by simp) h with ⟨st, rfl⟩ | ⟨-, -, d, p, -, -, rfl⟩
    · rfl
    · exact bufRead_runExchange (s := beginExchange d p s) hw (.inr hj)

/-! ### DESELECT and the answer -/

/-- `t` is what DESELECT and the answer make of `v`: CS floats, the trace ends with Deselect, nothing of the error
remains, and the rest is as the exchange left it (42_transaction R121, R127; 60_exceptions R211). -/
structure Closed (v t : State) : Prop where
  seq     : t.seq = .idle
  phase   : t.engine.phase = .idle
  err     : t.engine.err = false
  cs      : t.pin.cs = .input
  sclk    : t.pin.sclk = v.pin.sclk
  mosi    : t.pin.mosi = v.pin.mosi
  bus     : t.obs.bus = v.obs.bus ++ [.deselect]
  pins    : t.obs.pins = v.floatCs.obs.pins
  ticks   : t.obs.ticks = v.obs.ticks
  env     : t.env = v.env
  xferBuf : t.xferBuf = v.xferBuf

theorem closed_finishExchange (v : State) : Closed v (finishExchange (deselectStep v)) := by
  obtain ⟨st, r, e, -⟩ := finishExchange_eq (deselectStep v)
  rw [e]
  constructor <;> simp [deselectStep]

/-- The answer to an exchange that is over: what was read, when it was not aborted and was a read (42_transaction R123,
R124, R127). -/
def exchangeResponse (aborted : Bool) (d : Dir) (bytes : List Byte) : Response :=
  if aborted then ⟨.ioError, []⟩
  else match d with
    | .write => ⟨.ok, []⟩
    | .read  => ⟨.ok, bytes⟩

@[simp] theorem exchangeResponse_aborted (d : Dir) (bytes : List Byte) :
    exchangeResponse true d bytes = ⟨.ioError, []⟩ := rfl
@[simp] theorem exchangeResponse_write (bytes : List Byte) : exchangeResponse false .write bytes = ⟨.ok, []⟩ := rfl
@[simp] theorem exchangeResponse_read (bytes : List Byte) : exchangeResponse false .read bytes = ⟨.ok, bytes⟩ := rfl

theorem closing_responses (v : State) : (finishExchange (deselectStep v)).obs.responses = v.obs.responses ++
    [(v.client, exchangeResponse v.engine.err v.engine.dir ((List.range v.snap.plen.toNat).map v.bufRead))] := by
  have f := frame_deselectStep v
  have err : (deselectStep v).engine.err = v.engine.err := by simp [deselectStep]
  have buf : (deselectStep v).bufRead = v.bufRead := by funext j; simp [State.bufRead, deselectStep]
  have answered (st : Status) (r : List Byte) : (respond st r (deselectStep v).clearErr).obs.responses =
      v.obs.responses ++ [(v.client, ⟨st, r⟩)] := by simp [deselectStep]
  unfold finishExchange
  rw [err, f.dir, f.snap, buf]
  cases v.engine.err
  · cases v.engine.dir <;> exact answered _ _
  · exact answered _ _

/-- An exchange in service that is answered went through DESELECT. -/
theorem runExchange_closed {s : State} (hb : s.seq = .busy) (hi : (runExchange s).seq = .idle) :
    ∃ u, Closed u (runExchange s) := by
  rcases runEngine_spec (exchangeFuel s) s with f | ⟨u, -, -, e⟩
  · have busy : (runExchange s).seq = .busy := f.seq.trans hb
    rw [busy] at hi; cases hi
  · exact ⟨u, by rw [runExchange, e]; exact closed_finishExchange u⟩

/-- Settles O36: an exchange that is answered, at once or in a later move, went through DESELECT. -/
theorem chipSelectIsReleasedOnEveryExit : Obligations.ChipSelectIsReleasedOnEveryExit := by
  refine ⟨fun args s t hc i hi hf h idle => ?_, fun k s t hb h idle => ?_⟩
  · obtain ⟨d, p, -, e⟩ := exec_dataRequest hi hc hf
    cases e.symm.trans h
    obtain ⟨u, closed⟩ := runExchange_closed (s := beginExchange d p s) rfl idle
    exact ⟨closed.cs, by rw [closed.bus]; simp⟩
  · cases (sequencerStep_busy hb k).symm.trans h
    obtain ⟨u, closed⟩ := runExchange_closed hb idle
    exact ⟨closed.cs, closed.phase, closed.err, by rw [closed.bus]; simp⟩

end Sys2Proof.Machine
end

section
/-! PROOF. The exchange whose every tick comes: with no abort, with an abort at its end, and with no byte at all
(42_transaction R121, R123 to R127, R132). -/

namespace Sys2Proof.Machine

/-! ### The end draw -/

theorem drawEndAbort_scripted {s : State} {a : Bool} (h : s.env.endAborts.head? = some a) :
    s.drawEndAbort = (a, { s with env := { s.env with endAborts := s.env.endAborts.tail } }) := by
  obtain ⟨tl, e⟩ := List.head?_eq_some_iff.1 h
  simp [State.drawEndAbort, e]

/-- The end draw `a` ends the exchange in an abort or not, and moves nothing but the trace and `ERR`
(43_serializer R148). -/
structure EndDrawn (s : State) (a : Bool) (t : State) : Prop where
  frame   : EngineFrame s t
  err     : t.engine.err = (a || s.engine.err)
  bus     : t.obs.bus = s.obs.bus ++ if a then [.abort 0] else []
  pins    : t.obs.pins = s.obs.pins
  ticks   : t.obs.ticks = s.obs.ticks
  pin     : t.pin = s.pin
  xferBuf : t.xferBuf = s.xferBuf
  env     : t.env = { s.env with endAborts := s.env.endAborts.tail }

theorem endDrawn_endStep {s : State} {a : Bool} (h : s.env.endAborts.head? = some a) : EndDrawn s a (endStep s) := by
  constructor
  case frame => exact frame_endStep s
  all_goals
    rw [endStep, drawEndAbort_scripted h]
    cases a <;> simp [abortAt]

theorem endStep_phase (s : State) : (endStep s).engine.phase = .deselect := by
  unfold endStep; dsimp only; split <;> rfl

/-! ### Every tick comes -/

/-- After the last half-bit step MOSI is at the last bit of the last byte, if there was one (43_serializer R144). -/
theorem mosiMidway_whole (s : State) (outs : List Byte) : s.mosiMidway outs (16 * outs.length) = s.mosiAfter outs := by
  rcases outs.eq_nil_or_concat with rfl | ⟨bs, b, rfl⟩
  · rfl
  · have index : (16 * (bs.length + 1) - 1) / 16 = bs.length := by omega
    have bit : (16 * (bs.length + 1) - 1) % 16 / 2 = 7 := by omega
    simp [State.mosiMidway, State.mosiAfter, index, bit]

/-- How the exchange begun in `b` is left in `t` when every tick came, the peripheral answered `ins` and the end draw
was `a` (42_transaction R121, R123, R124, R127; 43_serializer R144; 70_reset_and_hazards R245). -/
structure WholeExchange (b : State) (ins : List Byte) (a : Bool) (t : State) : Prop where
  frame     : RequestFrame b t
  seq       : t.seq = .idle
  phase     : t.engine.phase = .idle
  err       : t.engine.err = false
  cs        : t.pin.cs = .input
  sclk      : t.pin.sclk = .out b.params.cpol
  mosi      : t.pin.mosi = b.mosiAfter b.engine.out
  bus       : t.obs.bus = b.obs.bus ++ .select :: (List.zipWith BusEvent.byte b.engine.out ins ++
                if a then [.abort 0, .deselect] else [.deselect])
  ticks     : t.obs.ticks = b.obs.ticks + 16 * (b.snap.len.toNat + b.snap.plen.toNat)
  responses : t.obs.responses = b.obs.responses ++
                [(b.client, exchangeResponse a b.engine.dir ((List.range b.snap.plen.toNat).map t.bufRead))]
  read      : b.engine.dir = .read → XferBuf.wf b.xferBuf → ∀ j, t.bufRead j =
                if j < b.snap.plen.toNat then (ins.drop b.snap.len.toNat).getD j 0x00 else b.bufRead j
  kept      : b.engine.dir = .write → t.xferBuf = b.xferBuf
  transport : t.env.transport = b.env.transport.drop (16 * (b.snap.len.toNat + b.snap.plen.toNat))
  endAborts : t.env.endAborts = b.env.endAborts.tail
  miso      : t.env.miso = b.env.miso.drop (8 * (b.snap.len.toNat + b.snap.plen.toNat))

theorem wholeExchange {b : State} {ins : List Byte} {a : Bool} (hb : Begun b)
    (hl : ins.length = b.snap.len.toNat + b.snap.plen.toNat)
    (ht : b.ticksCome (16 * (b.snap.len.toNat + b.snap.plen.toNat))) (ha : b.env.endAborts.head? = some a)
    (hm : b.peripheralAnswers ins) : WholeExchange b ins a (runExchange b) := by
  obtain ⟨u, m, e, answered⟩ := run_whole hb ht
  have ans := answered ins hl hm
  have drawn := endDrawn_endStep (s := u) (a := a) (by rw [m.endAborts]; exact ha)
  have closed := closed_finishExchange (endStep u)
  have given := closing_responses (endStep u)
  rw [← e] at closed given
  have bytes : 16 * (b.snap.len.toNat + b.snap.plen.toNat) / 16 = b.snap.len.toNat + b.snap.plen.toNat := by omega
  have even : 16 * (b.snap.len.toNat + b.snap.plen.toNat) % 2 = 0 := by omega
  have samples : samplesIn b.params.cpha (16 * (b.snap.len.toNat + b.snap.plen.toNat))
      = 8 * (b.snap.len.toNat + b.snap.plen.toNat) := by unfold samplesIn; split <;> omega
  have buffer : (runExchange b).xferBuf = u.xferBuf := closed.xferBuf.trans drawn.xferBuf
  have f := m.frame.trans drawn.frame
  refine ⟨requestFrame_runExchange b, closed.seq, closed.phase, closed.err, closed.cs, ?_, ?_, ?_, ?_, ?_, ?_, ?_,
    ?_, ?_, ?_⟩
  · rw [closed.sclk, drawn.pin, m.sclk, if_pos even]
  · rw [closed.mosi, drawn.pin, m.mosi, ← hb.outLen, mosiMidway_whole]
  · rw [closed.bus, drawn.bus, ans.bus, bytes, ← hb.outLen, List.take_length, hb.outLen, ← hl, List.take_length]
    cases a <;> simp
  · rw [closed.ticks, drawn.ticks, m.ticks]
  · have read : (endStep u).bufRead = (runExchange b).bufRead := by
      funext j; rw [State.bufRead, State.bufRead, closed.xferBuf]
    rw [given, f.responses, f.client, drawn.err, m.err, f.dir, f.snap, read, Bool.or_false]
  · intro hd hw j
    rw [State.bufRead, buffer, ans.xferBuf hw j, bytes]
    simp [hd, State.bufRead, List.getD_eq_getElem?_getD]
  · intro hd
    rw [buffer, ans.kept hd]
  · rw [closed.env, drawn.env, m.transport]
  · rw [closed.env, drawn.env, m.endAborts]
  · rw [closed.env, drawn.env, ans.miso, samples]

/-! ### The two data requests -/

section
variable {s : State} {d : Dir} {p ins : List Byte} (hl : s.cmdLen.toNat ≤ cmdCap) (hp : p.length = s.payloadLen.toNat)
include hl hp

theorem wholeExchange_undisturbed (h : s.undisturbed ins) :
    WholeExchange (beginExchange d p s) ins false (runExchange (beginExchange d p s)) := by
  obtain ⟨len, ticks, noAbort, answers⟩ := h
  exact wholeExchange (begun_beginExchange d p s hl hp) len ticks noAbort answers

/-- With `w` waits and as many later moves, an exchange comes to what it comes to undisturbed (42_transaction R130). -/
theorem run_undisturbedButWaits {w : Nat} (h : s.undisturbedButWaits ins w) : ∃ R Y, (s.script R Y).undisturbed ins ∧
    (0 < w → (runExchange (beginExchange d p s)).seq = .busy) ∧
    Host.Core.run Sys2Proof.core w (runExchange (beginExchange d p s)) =
      .next (runExchange (beginExchange d p (s.script R Y))) := by
  obtain ⟨len, ⟨draws, ⟨R, transport⟩, waits, last⟩, noAbort, answers, moves⟩ := h
  refine ⟨.replicate (16 * s.exchangeBytes) .tick ++ R, s.env.schedule.drop w, ⟨len, ⟨R, rfl⟩, noAbort, answers⟩,
    ?_⟩
  exact run_waits w (begun_beginExchange d p s hl hp) rfl waits transport.symm moves (.inr ⟨rfl, last⟩)

end

theorem map_getD_range (bs : List Byte) : (List.range bs.length).map (bs.getD · 0x00) = bs :=
  List.ext_getElem (by simp) fun j _ hj => by simp [hj]

/-- An undisturbed read is answered OK with the bytes of its payload phase (42_transaction R123). -/
theorem WholeExchange.responses_read {b t : State} {ins : List Byte} (h : WholeExchange b ins false t)
    (hd : b.engine.dir = .read) (hw : XferBuf.wf b.xferBuf) (hl : ins.length = b.snap.len.toNat + b.snap.plen.toNat) :
    t.obs.responses = b.obs.responses ++ [(b.client, ⟨.ok, ins.drop b.snap.len.toNat⟩)] := by
  have len : (ins.drop b.snap.len.toNat).length = b.snap.plen.toNat := by rw [List.length_drop, hl]; omega
  have result : (List.range b.snap.plen.toNat).map t.bufRead = ins.drop b.snap.len.toNat := by
    rw [← map_getD_range (ins.drop _), len]
    exact List.map_congr_left fun j hj => by rw [h.read hd hw, if_pos (List.mem_range.1 hj)]
  rw [h.responses, hd, result]
  rfl

/-- Settles O27: the exchange is whole, and its payload phase filled XFER_BUF; with waits it is the same exchange. -/
theorem dataRdReturnsTheBytesSampled : Obligations.DataRdReturnsTheBytesSampled := by
  intro s cmdIns ins hc hl hw hn outs done
  have payload : (cmdIns ++ ins).drop s.cmdLen.toNat = ins := by rw [← hn, List.drop_left]
  have fill : (List.replicate s.payloadLen.toNat s.params.readFill).length = s.payloadLen.toNat := List.length_replicate
  have finish (R : List TransportDraw) (Y : List Event) (h : (s.script R Y).undisturbed (cmdIns ++ ins)) :
      done (runExchange
        (beginExchange .read (List.replicate s.payloadLen.toNat s.params.readFill) (s.script R Y))) := by
    have whole := wholeExchange_undisturbed (d := .read) (s := s.script R Y) hl fill h
    have responses := whole.responses_read rfl hw h.1
    have read := whole.read rfl hw
    simp only [beginExchange, State.script] at responses read
    rw [payload] at responses read
    exact ⟨whole.seq, whole.phase, whole.cs, whole.sclk, whole.mosi, responses, whole.bus, whole.ticks, read⟩
  refine ⟨fun h => ⟨_, exec_dataRd hc, finish s.env.transport s.env.schedule h⟩, fun w h => ?_⟩
  obtain ⟨R, Y, undisturbed, busy, run⟩ := run_undisturbedButWaits (d := .read) hl fill h
  exact ⟨_, _, exec_dataRd hc, busy, run, finish R Y undisturbed⟩

/-- Settles O28: the exchange is whole, and a write leaves XFER_BUF; with waits it is the same exchange. -/
theorem dataWrSendsCommandThenPayload : Obligations.DataWrSendsCommandThenPayload := by
  intro s args ins hc hl hp done
  have finish (R : List TransportDraw) (Y : List Event) (h : (s.script R Y).undisturbed ins) :
      done (runExchange (beginExchange .write args (s.script R Y))) := by
    have whole := wholeExchange_undisturbed (d := .write) (s := s.script R Y) hl hp h
    exact ⟨whole.seq, whole.phase, whole.cs, whole.sclk, whole.mosi, whole.responses, whole.bus, whole.ticks,
      fun j => congrArg (XferBuf.read · j) (whole.kept rfl)⟩
  refine ⟨fun h => ⟨_, exec_dataWr hc hp, finish s.env.transport s.env.schedule h⟩, fun w h => ?_⟩
  obtain ⟨R, Y, undisturbed, busy, run⟩ := run_undisturbedButWaits (d := .write) hl hp h
  exact ⟨_, _, exec_dataWr hc hp, busy, run, finish R Y undisturbed⟩

/-- Settles O37: the `DATA_WR` leaves the `DATA_RD` its ticks, its end draw and the answers to it. -/
theorem loopbackReadReturnsTheBytesWritten : Obligations.LoopbackReadReturnsTheBytesWritten := by
  intro s args wins cmdIns tl hc hl hw hp hn hwins ⟨ticks, transport⟩ ⟨aborts, endAborts⟩ miso
  have first : s.undisturbed wins := by
    refine ⟨hwins, ⟨.replicate (16 * s.exchangeBytes) .tick ++ ticks, ?_⟩, ?_,
      ⟨answerLevels s.params.bitOrder (cmdIns ++ args) ++ tl, ?_⟩⟩
    · rw [← transport, List.replicate_add, List.append_assoc]
    · rw [← endAborts]; rfl
    · rw [miso, List.append_assoc]
  have whole := wholeExchange_undisturbed (d := .write) hl hp first
  generalize ht : runExchange (beginExchange .write args s) = t at whole
  have f := whole.frame
  have bytes : t.exchangeBytes = s.exchangeBytes := by rw [State.exchangeBytes, f.cmdLen, f.payloadLen]; rfl
  have second : t.undisturbed (cmdIns ++ args) := by
    refine ⟨?_, ⟨ticks, ?_⟩, ?_, ⟨tl, ?_⟩⟩
    · rw [bytes, List.length_append, hn, hp]; rfl
    · rw [bytes, whole.transport]
      show _ = s.env.transport.drop (16 * s.exchangeBytes)
      rw [← transport, List.replicate_add, List.append_assoc, List.drop_left' List.length_replicate]
    · rw [whole.endAborts]
      show s.env.endAborts.tail.head? = _
      rw [← endAborts]; rfl
    · rw [whole.miso, f.params]
      show _ = s.env.miso.drop (8 * s.exchangeBytes)
      rw [miso, List.append_assoc, List.drop_left' (by rw [answerLevels_length, hwins])]
      rfl
  obtain ⟨u, read, -, -, -, -, -, responses, -⟩ := (dataRdReturnsTheBytesSampled t cmdIns args (f.claimed.trans hc)
    (by rw [f.cmdLen]; exact hl) (by rw [whole.kept rfl]; exact hw) (by rw [f.cmdLen]; exact hn)).1 second
  refine ⟨t, u, by rw [exec_dataWr hc hp, ht], read, ?_⟩
  rw [responses, whole.responses, f.client]
  simp [beginExchange]

/-- Settles O31: the exchange is whole, and the end draw aborts it. -/
theorem anAbortAtTheEndAnswersIoError : Obligations.AnAbortAtTheEndAnswersIoError := by
  intro s args ins hc hl hp len ticks abort answers x hx
  obtain ⟨hxp, d, runs⟩ := exec_eitherRequest hc hp x hx
  have whole := wholeExchange (begun_beginExchange d x.2 s hl hxp) len ticks abort answers
  exact ⟨_, runs s.env.transport s.env.schedule, whole.seq, whole.cs, whole.sclk, whole.mosi, whole.responses,
    whole.bus, whole.err⟩

/-! ### The exchange with no byte -/

/-- With no byte to send the engine goes from Select to the end draw in four steps (42_transaction R126). -/
theorem run_empty {b : State} (hb : Begun b) (hl : b.snap.len.toNat = 0) (hp : b.snap.plen.toNat = 0) :
    runExchange b = finishExchange (deselectStep (endStep (enterPayload (selectStep b)))) := by
  have snap : (selectStep b).snap = b.snap := (frame_selectStep b).snap
  have select : engineStep b = .running (selectStep b) := by simp only [engineStep, hb.phase]
  have command : engineStep (selectStep b) = .running (enterPayload (selectStep b)) := by
    refine if_neg ?_
    rw [snap, hl]
    exact Nat.not_lt_zero _
  have payload : engineStep (enterPayload (selectStep b)) = .running (endStep (enterPayload (selectStep b))) := by
    refine if_neg ?_
    rw [show (enterPayload (selectStep b)).snap = b.snap from snap, hp]
    exact Nat.not_lt_zero _
  have deselect (s : State) : engineStep (endStep s) = .over (deselectStep (endStep s)) := by
    simp only [engineStep, endStep_phase]
  have fuel : exchangeFuel b = 4 := by rw [exchangeFuel, hl, hp]
  simp only [runExchange, fuel, runEngine, select, command, payload, deselect]

theorem selectStep_pins (s : State) : (selectStep s).obs.pins = s.obs.pins ++
    (if s.pin.sclk = .out s.params.cpol then [] else [.sclk s.params.cpol]) ++
    (if s.pin.cs = .out s.params.csActive then [] else [.cs (some s.params.csActive)]) := by
  have cs (t : State) (v : Bool) : (t.driveCs v).obs.pins =
      t.obs.pins ++ if t.pin.cs = .out v then [] else [.cs (some v)] := by
    unfold State.driveCs; split <;> simp
  have sclk (t : State) (v : Bool) : (t.driveSclk v).obs.pins =
      t.obs.pins ++ if t.pin.sclk = .out v then [] else [.sclk v] := by
    unfold State.driveSclk; split <;> simp
  simp [selectStep, cs, sclk]

theorem floatCs_pins {s : State} (h : s.pin.cs ≠ .input) : s.floatCs.obs.pins = s.obs.pins ++ [.cs none] := by
  simp [State.floatCs, h]

/-- The pin events of an exchange with no byte: those of Select, and CS at Z. -/
theorem run_empty_pins {b : State} (hb : Begun b) (hl : b.snap.len.toNat = 0) (hp : b.snap.plen.toNat = 0)
    {a : Bool} (ha : b.env.endAborts.head? = some a) :
    (runExchange b).obs.pins = (selectStep b).obs.pins ++ [.cs none] := by
  have drawn := endDrawn_endStep (s := enterPayload (selectStep b)) (a := a)
    (by simpa [enterPayload, selectStep] using ha)
  have selected : (endStep (enterPayload (selectStep b))).pin.cs ≠ .input := by
    rw [drawn.pin]; simp [enterPayload, selectStep]
  rw [run_empty hb hl hp, (closed_finishExchange _).pins, floatCs_pins selected, drawn.pins]
  rfl

/-- Settles O29: the whole exchange of no byte, with the pin events of its Select and its Deselect. -/
theorem anEmptyTransactionStillBracketsChipSelect : Obligations.AnEmptyTransactionStillBracketsChipSelect := by
  intro s hc hlen hplen ha i hi
  have hl : s.cmdLen.toNat = 0 := by rw [hlen]; rfl
  have hp : s.payloadLen.toNat = 0 := by rw [hplen]; rfl
  have wellFormed : i.formatOk s.params.payloadMax s.payloadLen.toNat = true := by
    simp only [List.mem_cons, List.not_mem_nil, or_false] at hi
    rcases hi with rfl | rfl <;> simp [Instr.formatOk, hp]
  obtain ⟨d, p, hpl, run⟩ := exec_dataRequest hi hc wellFormed
  have begun := begun_beginExchange d p s (by rw [hl]; exact Nat.zero_le _) hpl
  have bytes : (beginExchange d p s).snap.len.toNat + (beginExchange d p s).snap.plen.toNat = 0 := by
    simp [beginExchange, hl, hp]
  have out : (beginExchange d p s).engine.out = [] := List.eq_nil_of_length_eq_zero (begun.outLen.trans bytes)
  have whole := wholeExchange begun (ins := []) bytes.symm (by rw [bytes]; exact List.nil_prefix) ha List.nil_prefix
  have pins := run_empty_pins begun hl hp ha
  rw [selectStep_pins] at pins
  refine ⟨_, run, ?_, ?_, ?_, whole.sclk, ?_, whole.cs, fun hsclk hcs => ?_, fun hsclk hcs => ?_⟩
  · rw [whole.responses]
    cases d <;> simp [beginExchange, hp]
  · rw [whole.bus, out]; rfl
  · rw [whole.ticks, bytes]; rfl
  · rw [whole.mosi, out]; rfl
  · rw [pins]; simp [beginExchange, hsclk, hcs]
  · rw [pins]; simp [beginExchange, hsclk, hcs]

end Sys2Proof.Machine
end

section
/-! PROOF. The exchange whose ticks do not all come: an abort at a half-bit step, and a missing tick (42_transaction
R127, R130; 43_serializer R143, R147, R148). -/

namespace Sys2Proof.Machine

/-! ### An abort at a half-bit step -/

/-- How the exchange begun in `b` is left in `t` when the transport aborted it after `k` half-bit steps and `rest` is
left of the transport's script (42_transaction R127; 43_serializer R144, R148). -/
structure AbortedExchange (b : State) (k : Nat) (rest : List TransportDraw) (t : State) : Prop where
  frame     : RequestFrame b t
  seq       : t.seq = .idle
  err       : t.engine.err = false
  cs        : t.pin.cs = .input
  sclk      : t.pin.sclk = .out (if k % 2 = 0 then b.params.cpol else !b.params.cpol)
  mosi      : t.pin.mosi = b.mosiMidway b.engine.out k
  responses : t.obs.responses = b.obs.responses ++ [(b.client, ⟨.ioError, []⟩)]
  bus       : ∃ ins : List Byte, ins.length = k / 16 ∧ t.obs.bus = b.obs.bus ++
                .select :: (List.zipWith BusEvent.byte (b.engine.out.take (k / 16)) ins ++
                  [.abort (k % 16 / 2), .deselect])
  ticks     : t.obs.ticks = b.obs.ticks + k + 1
  transport : t.env.transport = rest

theorem abortedExchange {b : State} {k : Nat} {rest : List TransportDraw} (hb : Begun b)
    (hk : k < 16 * (b.snap.len.toNat + b.snap.plen.toNat))
    (ht : b.env.transport = List.replicate k .tick ++ .abort :: rest) :
    AbortedExchange b k rest (runExchange b) := by
  have hdrop : b.env.transport.drop k = .abort :: rest := by rw [ht, List.drop_left' List.length_replicate]
  obtain ⟨u, m, e, -⟩ := run_abort hb ⟨_, ht.symm⟩ hk hdrop
  have closed := closed_finishExchange (abortAt (k % 16 / 2) u.ticked)
  have given := closing_responses (abortAt (k % 16 / 2) u.ticked)
  rw [← e] at closed given
  have f := (m.frame.trans (frame_ticked u)).trans (frame_abortAt (k % 16 / 2) _)
  refine ⟨requestFrame_runExchange b, closed.seq, closed.err, closed.cs, ?_, ?_, ?_, ?_, ?_, ?_⟩
  · exact closed.sclk.trans ((congrArg PerLine.sclk (ticked_pin u)).trans m.sclk)
  · exact closed.mosi.trans ((congrArg PerLine.mosi (ticked_pin u)).trans m.mosi)
  · rw [given, f.responses, f.client]; rfl
  · obtain ⟨ins, len, bus⟩ := m.bus
    refine ⟨ins, len, ?_⟩
    rw [closed.bus]
    simp [abortAt, bus]
  · rw [closed.ticks]
    simp [abortAt, m.ticks]
  · rw [closed.env]
    simp [abortAt, ticked_env (m.transport.trans hdrop)]

/-- Settles O30: a run that the transport aborts; with waits before the abort it comes to the run without them. -/
theorem anAbortReleasesChipSelectAndAnswersIoError : Obligations.AnAbortReleasesChipSelectAndAnswersIoError := by
  intro s args k rest hc hl hp hk x hx outs done
  obtain ⟨hxp, d, runs⟩ := exec_eitherRequest hc hp x hx
  have exec : exec x.1 s = .next (runExchange (beginExchange d x.2 s)) := runs s.env.transport s.env.schedule
  have finish (Y : List Event) : done (runExchange (beginExchange d x.2
      (s.script (List.replicate k .tick ++ .abort :: rest) Y))) := by
    obtain ⟨frame, seq, err, cs, sclk, mosi, responses, ⟨ins, len, bus⟩, ticks, transport⟩ :=
      abortedExchange (begun_beginExchange d x.2 (s.script _ Y) hl hxp) hk rfl
    exact ⟨ins, seq, cs, sclk, mosi, responses, len, bus, ticks, transport, err, frame.cmdBytes, frame.cmdLen,
      frame.payloadLen, frame.claimed⟩
  refine ⟨fun ht => ⟨_, exec, ?_⟩, fun w draws waits ht moves => ?_⟩
  · have := finish s.env.schedule
    rw [← ht] at this
    exact this
  · obtain ⟨busy, run⟩ := run_waits w (begun_beginExchange d x.2 s hl hxp) rfl waits ht moves (.inl hk)
    exact ⟨_, _, exec, busy, run, finish _⟩

/-! ### A missing tick -/

/-- How the exchange begun in `b` waits in `t` for the tick after `k` half-bit steps, with `rest` left of the
transport's script (42_transaction R130; 43_serializer R143, R147). -/
structure WaitingExchange (b : State) (k : Nat) (rest : List TransportDraw) (t : State) : Prop where
  frame     : EngineFrame b t
  inByte    : t.inByte
  place     : (t.engine.phase = .cmd ∧ t.engine.byteIdx = k / 16) ∨
                (t.engine.phase = .payload ∧ b.snap.len.toNat + t.engine.byteIdx = k / 16)
  bitIdx    : t.engine.bitIdx = k % 16 / 2
  half      : t.engine.half = if k % 2 = 0 then .lead else .trail
  err       : t.engine.err = false
  shiftOut  : t.engine.shiftOut = b.engine.out.getD (k / 16) 0x00
  cs        : t.pin.cs = .out b.params.csActive
  sclk      : t.pin.sclk = .out (if k % 2 = 0 then b.params.cpol else !b.params.cpol)
  mosi      : t.pin.mosi = b.mosiMidway b.engine.out k
  ticks     : t.obs.ticks = b.obs.ticks + k
  transport : t.env.transport = rest
  answered  : ∀ ins : List Byte, ins.length = b.snap.len.toNat + b.snap.plen.toNat → b.peripheralAnswers ins →
    t.obs.bus = b.obs.bus ++
      .select :: List.zipWith BusEvent.byte (b.engine.out.take (k / 16)) (ins.take (k / 16)) ∧
    t.engine.shiftIn = partialByte b.params.bitOrder (ins.getD (k / 16) 0x00) (k % 16 / 2) ∧
    (k % 2 = 1 → b.params.cpha = false →
      t.engine.sampled = wireBit b.params.bitOrder (ins.getD (k / 16) 0x00) (k % 16 / 2))

theorem waitingExchange {b : State} {k : Nat} {rest : List TransportDraw} (hb : Begun b)
    (hk : k < 16 * (b.snap.len.toNat + b.snap.plen.toNat))
    (ht : b.env.transport = List.replicate k .tick ++ .stall :: rest) :
    WaitingExchange b k rest (runExchange b) := by
  have hdrop : b.env.transport.drop k = .stall :: rest := by rw [ht, List.drop_left' List.length_replicate]
  obtain ⟨u, m, hin, e, answered⟩ := run_stall hb ⟨_, ht.symm⟩ hk hdrop
  have draw : (loadByte u).env.transport = .stall :: rest := by rw [loadByte_env]; exact m.transport.trans hdrop
  rw [e, drawTransport_scripted draw]
  have obs : (loadByte u).obs = u.obs := loadByte_obs u
  have pin : (loadByte u).pin = u.pin := loadByte_pin u
  have f := m.frame.trans (frame_loadByte u)
  refine ⟨{ f with }, loadByte_inByte hin, ?_, (loadByte_bitIdx u).trans m.bitIdx, (loadByte_half u).trans m.half,
    (loadByte_err u).trans m.err, midway_shiftOut m, (congrArg PerLine.cs pin).trans m.cs,
    (congrArg PerLine.sclk pin).trans m.sclk, (congrArg PerLine.mosi pin).trans m.mosi,
    (congrArg Obs.ticks obs).trans m.ticks, rfl, fun ins hl hm => ?_⟩
  · rw [script_engine, loadByte_phase, loadByte_byteIdx]
    exact m.place.imp_left fun ⟨hp, hi, _⟩ => ⟨hp, hi⟩
  · have ans := answered ins hl hm
    exact ⟨(congrArg Obs.bus obs).trans ans.bus, answered_shiftIn m ans,
      fun odd hc => (loadByte_sampled u).trans (ans.sampled odd hc)⟩

/-- A waiting exchange goes on, in a move of the sequencer that names any host, to what the run without the missing tick
comes to (42_transaction R130). -/
theorem serve_waitingExchange {b : State} {k : Nat} {rest : List TransportDraw} (hb : Begun b) (busy : b.seq = .busy)
    (hk : k < 16 * (b.snap.len.toNat + b.snap.plen.toNat))
    (ht : b.env.transport = List.replicate k .tick ++ .stall :: rest) (j : Nat) :
    eventStep (.serve j) (runExchange b) =
      .next (runExchange (b.script (List.replicate k .tick ++ rest) b.env.schedule)) := by
  obtain ⟨-, transport, schedule, seq, resumed⟩ := run_resume hb hk ht b.env.schedule
  rw [← resumed, ← transport, ← schedule, script_self]
  exact sequencerStep_busy (seq.trans busy) j

/-- Settles O32: the exchange waits where `Midway` says, and `run_resume` takes it up there. -/
theorem aMissingTickLeavesTheExchangeInService : Obligations.AMissingTickLeavesTheExchangeInService := by
  intro s args k rest hc hl hp hk ht x hx outs
  obtain ⟨hxp, d, runs⟩ := exec_eitherRequest hc hp x hx
  have begun := begun_beginExchange d x.2 s hl hxp
  have w := waitingExchange begun hk ht
  have resumed : exec x.1 (s.script (List.replicate k .tick ++ rest) s.env.schedule) =
      .next (runExchange ((beginExchange d x.2 s).script (List.replicate k .tick ++ rest) s.env.schedule)) := runs _ _
  exact ⟨_, runs s.env.transport s.env.schedule, w.frame.seq, w.inByte, w.cs, w.frame.responses, w.ticks, w.transport,
    w.frame.client, w.frame.snap, w.place, w.bitIdx, w.half, w.err, w.frame.out, w.shiftOut, w.sclk, w.mosi, w.answered,
    fun j => ⟨_, serve_waitingExchange begun rfl hk ht j, resumed⟩⟩

end Sys2Proof.Machine
end

section
/-! PROOF. The serial master: the order of the wire bits, and the two half-bit steps of one bit (43_serializer R141 to
R143, R145). -/

namespace Sys2Proof.Machine

/-! ### The byte put together -/

/-- Settles O38: one placed bit sets its position alone, and eight placed bits are `partialByte_eight`. -/
theorem wireBitsPutTheByteTogether : Obligations.WireBitsPutTheByteTogether := by
  refine ⟨fun d i hi => ⟨rfl, rfl, fun j b hj => ⟨?_, ?_⟩⟩, partialByte_eight, fun m n => rfl⟩
  · exact placeBit_getLsbD .msbFirst d i j b hi hj
  · exact placeBit_getLsbD .lsbFirst d i j b hi hj

/-! ### The pin events of a half-bit step -/

theorem driveSclk_pins (v : Bool) (s : State) :
    (s.driveSclk v).obs.pins = s.obs.pins ++ if s.pin.sclk = .out v then [] else [.sclk v] := by
  unfold State.driveSclk; split <;> simp

theorem driveMosi_pins (v : Bool) (s : State) :
    (s.driveMosi v).obs.pins = s.obs.pins ++ if s.pin.mosi = .out v then [] else [.mosi v] := by
  unfold State.driveMosi; split <;> simp

theorem sampleMiso_pins {s : State} {v : Bool} {rest : List Bool} (h : s.env.miso = v :: rest) :
    (sampleMiso s).obs.pins = s.obs.pins ++ [.sample v] := by
  simp [sampleMiso, State.drawMiso, h]

section
variable {s : State}

/-- Step A, with SCLK at its idle level, when it does not sample. -/
theorem leadStep_pins (hc : s.params.cpha = true) (hs : s.pin.sclk = .out s.params.cpol) :
    (leadStep s).obs.pins = s.obs.pins ++ .sclk (!s.params.cpol) ::
      if s.pin.mosi = .out (wireBit s.params.bitOrder s.engine.shiftOut s.engine.bitIdx) then []
      else [.mosi (wireBit s.params.bitOrder s.engine.shiftOut s.engine.bitIdx)] := by
  simp [leadStep, hc, driveMosi_pins, driveSclk_pins, hs]

/-- Step A, with SCLK at its idle level, when it samples. -/
theorem leadStep_pins_sample {v : Bool} {rest : List Bool} (hc : s.params.cpha = false)
    (hs : s.pin.sclk = .out s.params.cpol) (hm : s.env.miso = v :: rest) :
    (leadStep s).obs.pins = s.obs.pins ++
      (if s.pin.mosi = .out (wireBit s.params.bitOrder s.engine.shiftOut s.engine.bitIdx) then []
      else [.mosi (wireBit s.params.bitOrder s.engine.shiftOut s.engine.bitIdx)]) ++
      [.sclk (!s.params.cpol), .sample v] := by
  have sampled := sampleMiso_pins (s := (s.driveMosi (wireBit s.params.bitOrder s.engine.shiftOut
    s.engine.bitIdx)).driveSclk (!s.params.cpol)) (by simpa using hm)
  simp [leadStep, hc, sampled, driveMosi_pins, driveSclk_pins, hs]

/-- Step B, with SCLK at its other level, when it does not sample. -/
theorem trailStep_pins (hc : s.params.cpha = false) (hs : s.pin.sclk = .out (!s.params.cpol)) :
    (trailStep s).obs.pins = s.obs.pins ++ [.sclk s.params.cpol] := by
  simp [trailStep, hc, driveSclk_pins, hs]

/-- Step B, with SCLK at its other level, when it samples. -/
theorem trailStep_pins_sample {v : Bool} {rest : List Bool} (hc : s.params.cpha = true)
    (hs : s.pin.sclk = .out (!s.params.cpol)) (hm : s.env.miso = v :: rest) :
    (trailStep s).obs.pins = s.obs.pins ++ [.sclk s.params.cpol, .sample v] := by
  have sampled := sampleMiso_pins (s := s.driveSclk s.params.cpol) (by simpa using hm)
  simp [trailStep, hc, sampled, driveSclk_pins, hs]

/-! ### The two half-bit steps of one bit -/

/-- In either phase one sample is taken over the two steps, and placed at the current bit. -/
theorem oneBit_sample {v : Bool} {rest : List Bool} (hm : s.env.miso = v :: rest) :
    (trailStep (leadStep s)).engine.shiftIn = placeBit s.params.bitOrder s.engine.shiftIn s.engine.bitIdx v ∧
      (trailStep (leadStep s)).env.miso = rest := by
  have params := (frame_leadStep s).params
  cases hc : s.params.cpha
  · obtain ⟨sampled, taken, -⟩ := leadStep_sample s hc hm
    obtain ⟨placed, kept, -⟩ := trailStep_noSample (leadStep s) (by rw [params]; exact hc)
    rw [placed, kept, params, sampled]
    simp [taken]
  · obtain ⟨-, kept, -⟩ := leadStep_noSample s hc
    obtain ⟨placed, taken, -⟩ := trailStep_sample (leadStep s) (by rw [params]; exact hc) (kept.trans hm)
    rw [placed, params]
    simp [taken]

end

@[simp] theorem byteDone_shiftIn (s : State) : (byteDone s).engine.shiftIn = s.engine.shiftIn := by
  unfold byteDone; split
  · dsimp only; split <;> rfl
  · rfl

theorem byteDone_bitIdx_eq (s : State) :
    (byteDone s).engine.bitIdx = if s.engine.bitIdx = 8 then 0 else s.engine.bitIdx := by
  split
  · next h => exact byteDone_bitIdx h
  · next h => rw [byteDone_not h]

theorem byteDone_bus_eq (s : State) : (byteDone s).obs.bus =
    if s.engine.bitIdx = 8 then s.obs.bus ++ [.byte s.engine.shiftOut s.engine.shiftIn] else s.obs.bus := by
  split
  · next h => exact byteDone_bus h
  · next h => rw [byteDone_not h]

/-- Settles O39: step A is `leadStep`, step B is `trailStep` and the end of a byte, and one of them samples. -/
theorem oneBitIsShiftedOnTwoClockEdges : Obligations.OneBitIsShiftedOnTwoClockEdges := by
  intro s t u v rest lead _ idle miso ht hu o mosi
  have stepA : t = leadStep s := by rw [ht]; simp only [halfBitAct, lead]
  have stepB : u = byteDone (trailStep t) := by
    rw [hu, stepA]
    simp only [halfBitAct, leadStep_half]
  subst stepA
  have params := (frame_leadStep s).params
  obtain ⟨placed, taken⟩ := oneBit_sample miso
  have eighth : s.engine.bitIdx + 1 = 8 ↔ s.engine.bitIdx = 7 := by omega
  have after : (leadStep s).pin.sclk = .out (!(leadStep s).params.cpol) := by rw [leadStep_sclk, params]
  have pins : u.obs.pins = (trailStep (leadStep s)).obs.pins := by rw [stepB, byteDone_pins]
  refine ⟨leadStep_sclk s, leadStep_mosi s, rfl, ?_, ?_, ?_, ?_, ?_, ?_, ?_, fun hc => ?_, fun hc => ?_⟩
  · rw [stepB, byteDone_pin, trailStep_sclk, params]
  · rw [stepB, byteDone_pin, trailStep_mosi, leadStep_mosi]
  · rw [stepB, byteDone_half, trailStep_half]
  · simp only [stepB, byteDone_bitIdx_eq, trailStep_bitIdx, leadStep_bitIdx, eighth]
  · rw [stepB, byteDone_env, taken]
  · rw [stepB, byteDone_shiftIn, placed]
  · simp only [stepB, byteDone_bus_eq, byteDone_shiftIn, trailStep_bitIdx, trailStep_shiftOut, trailStep_bus,
      leadStep_bitIdx, leadStep_shiftOut, leadStep_bus, eighth]
  · refine ⟨leadStep_pins_sample hc idle miso, ?_⟩
    rw [pins, trailStep_pins (by rw [params]; exact hc) after, params]
  · refine ⟨leadStep_pins hc idle, ?_⟩
    have kept := (leadStep_noSample s hc).2.1
    rw [pins, trailStep_pins_sample (by rw [params]; exact hc) after (kept.trans miso), params]

end Sys2Proof.Machine
end

section
/-! PROOF. The pin trace tells the bus trace after reset and after every step (43_serializer R145; 44_line_arbiter
R162). -/

namespace Sys2Proof.Machine

/-! ### What the pin trace is not read for -/

/-- What the pin trace tells is about the parameters, the engine, the snapshot, the pins and the two traces alone. -/
theorem State.PinsTell.same {s t : State} (h : s.PinsTell) (params : t.params = s.params) (engine : t.engine = s.engine)
    (pin : t.pin = s.pin) (snap : t.snap = s.snap) (pins : t.obs.pins = s.obs.pins) (bus : t.obs.bus = s.obs.bus) :
    t.PinsTell := by
  have reader : t.reader = s.reader := reader_of_read (read_congr params pins)
  obtain ⟨reads, closing, sclk, mosi, outside, group, fresh⟩ := h
  refine ⟨?_, ?_, ?_, ?_, ?_, fun hp => ?_, ?_⟩
  case refine_6 =>
    exact (told_tick params engine pin pins ⟨sclk, mosi⟩ (group (by rw [← engine]; exact hp))).2
  all_goals simpa only [State.inByte, params, engine, pin, snap, pins, bus, reader]

/-- From `s` to `t` nothing of the engine, the pins, the bus trace and the pin trace changes. -/
def Unseen (s t : State) : Prop :=
  t = { s with
    owner := t.owner, pending := t.pending, jobs := t.jobs, env := t.env, obs := { s.obs with text := t.obs.text } }

theorem State.PinsTell.unseen {s t : State} (h : s.PinsTell) (u : Unseen s t) : t.PinsTell := by
  rw [u]
  exact h.same rfl rfl rfl rfl rfl rfl

theorem unseen_nextEvent (s : State) : Unseen s s.nextEvent.2 := by unfold State.nextEvent; split <;> rfl

theorem unseen_enqueue (k : Nat) (f : List Byte) (s : State) : Unseen s (enqueue k f s) := by
  unfold enqueue; split <;> rfl

theorem unseen_submitFrame (k : Nat) (f : List Byte) (s : State) : Unseen s (submitFrame k f s) := by
  unfold submitFrame
  split
  · exact unseen_enqueue k f s
  · rfl

theorem unseen_frontAct (k : Nat) (op : TextOp) (a : FrontAction) (s : State) : Unseen s (frontAct k op a s) := by
  cases a with
  | send i learning => exact unseen_enqueue k (encode i) _
  | done r => rfl

theorem unseen_submitText (k : Nat) (op : TextOp) (s : State) : Unseen s (submitText k op s) := by
  unfold submitText
  split
  · exact unseen_frontAct ..
  · rfl

theorem unseen_frontStep (k : Nat) (s : State) : Unseen s (frontStep k s) := by
  unfold frontStep frontStepJob
  split
  · split
    · exact unseen_frontAct ..
    · rfl
  · rfl

theorem unseen_externalTake (lines : List Line) (s : State) : Unseen s (externalTake lines s) := by
  unfold externalTake; split <;> rfl

theorem unseen_externalGive (lines : List Line) (s : State) : Unseen s (externalGive lines s) := by
  unfold externalGive; split <;> rfl

/-! ### The launch -/

/-- With no event there is nothing to tell. -/
theorem pinsTell_launch (p : Params) (pool : PerLine Owner) : (State.launch p pool).PinsTell where
  reads   := fun _ => ReadsAs.refl []
  closing := Phase.noConfusion
  sclk    := fun _ => Pin.noConfusion
  mosi    := fun _ => Pin.noConfusion
  outside := fun _ => rfl
  group   := by rintro (h | h) <;> cases h
  fresh   := fun h => absurd rfl h

/-! ### The requests -/

theorem pinsTell_claim {s : State} (h : s.PinsTell) (hi : s.engine.phase = .idle)
    (hp : s.params.csInitInactive = true) : (claim s).2.PinsTell := by
  unfold claim
  split
  · exact (pinsTell_initLines (s := { s with owner := PerLine.const .self })
      (h.same rfl rfl rfl rfl rfl rfl) hi hp).same rfl rfl rfl rfl rfl rfl
  · exact h

/-- A release adds no event: a line it stops driving has no level to be told. -/
theorem pinsTell_release {s : State} (h : s.PinsTell) (hi : s.engine.phase = .idle) : (release s).PinsTell := by
  have kept {o : Owner} {p : Pin} {v : Bool} (hv : releasedPin o p = .out v) : p = .out v := by
    unfold releasedPin at hv
    split at hv
    · cases hv
    · exact hv
  exact pinsTell_idle h hi hi rfl rfl rfl (fun _ => kept) (fun _ => kept)

theorem pinsTell_resetBlock {s : State} (h : s.PinsTell) (hi : s.engine.phase = .idle) : (resetBlock s).PinsTell :=
  pinsTell_idle (pinsTell_release h hi) hi rfl rfl rfl rfl (fun _ hv => hv) (fun _ hv => hv)

/-- An exchange that begins between two groups, with the peripheral not selected, is told by a trace that reads as the
bus trace and tells the levels in force. -/
theorem telling_beginExchange {s : State} (reads : ReadsAs (busReading s.params s.obs.pins) s.obs.bus)
    (levels : s.LevelsTold) (between : s.reader.count = 0) (hcs : s.pin.cs ≠ .out s.params.csActive) (d : Dir)
    (p : List Byte) : (beginExchange d p s).Telling where
  tells := {
    reads   := fun _ => reads
    closing := Phase.noConfusion
    sclk    := levels.1
    mosi    := levels.2
    outside := fun _ => between
    group   := by rintro (e | e) <;> cases e
    fresh   := fun _ _ _ => ⟨rfl, rfl⟩ }
  bits     := Nat.zero_le _
  selected := by rintro (e | e) <;> cases e
  select   := fun _ => hcs

section
variable {s : State} (h : s.AtRest) (hs : s.PinsTell)
include h hs

theorem pinsTell_dataRequest {args : List Byte} {t : State} {i : Instr} (hi : i ∈ [Instr.dataRd args, .dataWr args])
    (he : exec i s = .next t) : t.PinsTell := by
  rcases dataRequest_cases hi he with ⟨st, rfl⟩ | ⟨-, -, d, p, -, -, rfl⟩
  · exact hs.same rfl rfl rfl rfl rfl rfl
  · have reads := hs.reads (by rw [h.phase]; exact Phase.noConfusion)
    have between := hs.outside (.inl h.phase)
    exact pinsTell_runExchange (telling_beginExchange reads (PinsTell_levels hs) between h.inactive d p)

theorem pinsTell_exec {i : Instr} {t : State} (he : exec i s = .next t) : t.PinsTell := by
  have csInit : s.params.csInitInactive = true := by
    have legal := h.regs.params
    simp only [Params.legal, Bool.and_eq_true] at legal
    exact legal.2
  cases i with
  | dataWr args => exact pinsTell_dataRequest h hs (args := args) (by simp) he
  | dataRd args => exact pinsTell_dataRequest h hs (args := args) (by simp) he
  | lockWr args => cases he; exact (pinsTell_release hs h.phase).same rfl rfl rfl rfl rfl rfl
  | lockRd args =>
    cases he
    split
    · exact (pinsTell_claim hs h.phase csInit).same rfl rfl rfl rfl rfl rfl
    · exact hs.same rfl rfl rfl rfl rfl rfl
  | numcmdWr args | numcmdRd args | cmdWr args | cmdRd args | numrwWr args | numrwRd args | status args =>
    cases he
    split <;> exact hs.same rfl rfl rfl rfl rfl rfl

theorem pinsTell_serve {r : Request} {t : State} (he : serve r s = .next t) : t.PinsTell := by
  unfold serve at he
  split at he
  · exact pinsTell_exec h hs he
  · cases he; exact hs.same rfl rfl rfl rfl rfl rfl
  · cases he; exact hs.same rfl rfl rfl rfl rfl rfl
  · cases he
  · cases he

end

/-! ### The step -/

/-- An exchange in service has CS where its phase says, and tells as much as the trace does. -/
theorem State.ExchangeOk.telling {s : State} (h : s.ExchangeOk) (hs : s.PinsTell) : s.Telling :=
  ⟨hs, h.bits, h.selected, h.select⟩

theorem pinsTell_sequencerStep {k : Nat} {s t : State} (h : s.Inv) (hs : s.PinsTell)
    (he : sequencerStep k s = .next t) : t.PinsTell := by
  rcases sequencerStep_cases k s with ⟨hb, e⟩ | ⟨-, -, e⟩ | ⟨hi, r, -, -, e⟩ <;> rw [e] at he
  · cases he; exact pinsTell_runExchange ((h.busy hb).telling hs)
  · cases he; exact hs
  · exact pinsTell_serve (atRest_accept (h.atRest hi) r) (hs.same rfl rfl rfl rfl rfl rfl) he

theorem pinsTell_eventStep {e : Event} {s t : State} (h : s.Inv) (hs : s.PinsTell) (he : eventStep e s = .next t) :
    t.PinsTell := by
  cases e with
  | submit k frame => cases he; exact hs.unseen (unseen_submitFrame ..)
  | text k op => cases he; exact hs.unseen (unseen_submitText ..)
  | front k => cases he; exact hs.unseen (unseen_frontStep ..)
  | serve k => exact pinsTell_sequencerStep h hs he
  | take lines => cases he; exact hs.unseen (unseen_externalTake ..)
  | give lines => cases he; exact hs.unseen (unseen_externalGive ..)
  | reset =>
    obtain ⟨hi, rfl⟩ := eventStep_reset_next he
    exact pinsTell_resetBlock hs (h.atRest hi).phase
  | teardown => cases he

theorem pinsTell_step {s t : State} (h : s.Inv) (hs : s.PinsTell) (he : step s = .next t) : t.PinsTell :=
  pinsTell_eventStep (inv_nextEvent h) (hs.unseen (unseen_nextEvent s)) he

end Sys2Proof.Machine
end

section
/-! PROOF. What an exchange adds to the two traces, and what its pin events read as (43_serializer R143, R145, R148). -/

namespace Sys2Proof.Machine

/-! ### The traces before an exchange do not matter

No engine step reads the traces, so the events it adds are the same after any others. -/

/-- The same state, with these events in the traces before its own. -/
def State.behind (P : List PinEvent) (B : List BusEvent) (s : State) : State :=
  { s with obs := { s.obs with pins := P ++ s.obs.pins, bus := B ++ s.obs.bus } }

section
variable (P : List PinEvent) (B : List BusEvent) (s : State)

@[simp] theorem behind_engine : (s.behind P B).engine = s.engine := rfl
@[simp] theorem behind_params : (s.behind P B).params = s.params := rfl
@[simp] theorem behind_pin : (s.behind P B).pin = s.pin := rfl
@[simp] theorem behind_snap : (s.behind P B).snap = s.snap := rfl

theorem tracePin_behind (e : PinEvent) : (s.behind P B).tracePin e = (s.tracePin e).behind P B := by
  simp [State.tracePin, State.behind]

theorem trace_behind (e : BusEvent) : (s.behind P B).trace e = (s.trace e).behind P B := by
  simp [State.trace, State.behind]

/-- A line set in either state is left alone or traced in both. -/
theorem setLine_behind {c : Prop} [Decidable c] (e : PinEvent) (t : State) :
    (if c then s.behind P B else (t.behind P B).tracePin e) = (if c then s else t.tracePin e).behind P B := by
  rw [tracePin_behind, apply_ite (State.behind P B)]

theorem driveSclk_behind (v : Bool) : (s.behind P B).driveSclk v = (s.driveSclk v).behind P B :=
  setLine_behind P B s (.sclk v) { s with pin := { s.pin with sclk := .out v } }

theorem driveMosi_behind (v : Bool) : (s.behind P B).driveMosi v = (s.driveMosi v).behind P B :=
  setLine_behind P B s (.mosi v) { s with pin := { s.pin with mosi := .out v } }

theorem driveCs_behind (v : Bool) : (s.behind P B).driveCs v = (s.driveCs v).behind P B :=
  setLine_behind P B s (.cs (some v)) { s with pin := { s.pin with cs := .out v } }

theorem floatCs_behind : (s.behind P B).floatCs = s.floatCs.behind P B :=
  setLine_behind P B s (.cs none) { s with pin := { s.pin with cs := .input } }

theorem drawMiso_behind : (s.behind P B).drawMiso = (s.drawMiso.1, s.drawMiso.2.behind P B) := by
  cases h : s.env.miso <;> simp [State.drawMiso, State.behind, h]

theorem drawTransport_behind :
    (s.behind P B).drawTransport = (s.drawTransport.1, s.drawTransport.2.behind P B) := by
  cases h : s.env.transport <;> simp [State.drawTransport, State.behind, h]

theorem drawEndAbort_behind : (s.behind P B).drawEndAbort = (s.drawEndAbort.1, s.drawEndAbort.2.behind P B) := by
  cases h : s.env.endAborts <;> simp [State.drawEndAbort, State.behind, h]

theorem sampleMiso_behind : sampleMiso (s.behind P B) = (sampleMiso s).behind P B := by
  unfold sampleMiso
  rw [drawMiso_behind]
  exact tracePin_behind P B { s.drawMiso.2 with engine := { s.drawMiso.2.engine with sampled := s.drawMiso.1 } } _

theorem leadStep_behind : leadStep (s.behind P B) = (leadStep s).behind P B := by
  unfold leadStep
  simp only [behind_params, behind_engine, driveSclk_behind, driveMosi_behind, sampleMiso_behind]
  split <;> rfl

theorem trailStep_behind : trailStep (s.behind P B) = (trailStep s).behind P B := by
  unfold trailStep
  simp only [behind_params, driveSclk_behind, sampleMiso_behind]
  split <;> rfl

theorem loadByte_behind : loadByte (s.behind P B) = (loadByte s).behind P B := by
  unfold loadByte
  rw [behind_engine, apply_ite (State.behind P B)]
  rfl

theorem byteDone_behind : byteDone (s.behind P B) = (byteDone s).behind P B := by
  unfold byteDone
  simp only [behind_engine, trace_behind]
  split
  · split <;> rfl
  · rfl

theorem halfBitAct_behind : halfBitAct (s.behind P B) = (halfBitAct s).behind P B := by
  unfold halfBitAct
  rw [behind_engine]
  cases s.engine.half
  · exact leadStep_behind P B s
  · simp only [trailStep_behind, byteDone_behind]

theorem abortAt_behind (b : Nat) : abortAt b (s.behind P B) = (abortAt b s).behind P B := by
  unfold abortAt
  simp only [trace_behind]
  rfl

theorem selectStep_behind : selectStep (s.behind P B) = (selectStep s).behind P B := by
  unfold selectStep
  simp only [behind_params, driveSclk_behind, driveCs_behind, trace_behind]
  rfl

theorem endStep_behind : endStep (s.behind P B) = (endStep s).behind P B := by
  unfold endStep
  simp only [drawEndAbort_behind, abortAt_behind]
  split <;> rfl

theorem deselectStep_behind : deselectStep (s.behind P B) = (deselectStep s).behind P B := by
  unfold deselectStep
  simp only [floatCs_behind, trace_behind]
  rfl

theorem finishExchange_behind : finishExchange (s.behind P B) = (finishExchange s).behind P B := by
  unfold finishExchange
  rw [behind_engine]
  cases s.engine.err
  · cases s.engine.dir <;> rfl
  · rfl

end

/-- The same progress, with these events in the traces before those of its state. -/
def Progress.behind (P : List PinEvent) (B : List BusEvent) : Progress → Progress
  | .running s => .running (s.behind P B)
  | .waiting s => .waiting (s.behind P B)
  | .over s    => .over (s.behind P B)

section
variable (P : List PinEvent) (B : List BusEvent) (s : State)

theorem halfBit_behind : halfBit (s.behind P B) = (halfBit s).behind P B := by
  unfold halfBit
  rw [loadByte_behind, drawTransport_behind]
  obtain ⟨d, t⟩ := (loadByte s).drawTransport
  cases d
  case stall => rfl
  case abort => exact congrArg Progress.running (abortAt_behind P B t.countTick t.engine.bitIdx)
  case tick => exact congrArg Progress.running (halfBitAct_behind P B t.countTick)

theorem engineStep_behind : engineStep (s.behind P B) = (engineStep s).behind P B := by
  unfold engineStep
  rw [behind_engine, behind_snap]
  cases s.engine.phase
  case idle => rfl
  case select => exact congrArg Progress.running (selectStep_behind P B s)
  case cmd =>
    dsimp only
    rw [halfBit_behind, apply_ite (Progress.behind P B)]
    rfl
  case payload =>
    dsimp only
    rw [halfBit_behind, endStep_behind, apply_ite (Progress.behind P B)]
    rfl
  case deselect => exact congrArg Progress.over (deselectStep_behind P B s)

theorem runEngine_behind (n : Nat) : runEngine n (s.behind P B) = (runEngine n s).behind P B := by
  induction n generalizing s with
  | zero => rfl
  | succ n ih =>
    rw [runEngine, runEngine, engineStep_behind]
    cases engineStep s
    · next t => exact ih t
    · rfl
    · next t => exact finishExchange_behind P B t

theorem runExchange_behind : runExchange (s.behind P B) = (runExchange s).behind P B :=
  runEngine_behind P B s (exchangeFuel s)

end

/-- The same state, with these traces. -/
def State.retraced (P : List PinEvent) (B : List BusEvent) (s : State) : State :=
  { s with obs := { s.obs with pins := P, bus := B } }

/-- An exchange adds the same events to the traces, whatever they hold before. -/
theorem runExchange_adds (s : State) : ∃ newPins newBus, ∀ P B,
    (runExchange (s.retraced P B)).obs.pins = P ++ newPins ∧ (runExchange (s.retraced P B)).obs.bus = B ++ newBus := by
  refine ⟨(runExchange (s.retraced [] [])).obs.pins, (runExchange (s.retraced [] [])).obs.bus, fun P B => ?_⟩
  have behind : s.retraced P B = (s.retraced [] []).behind P B := by simp [State.retraced, State.behind]
  rw [behind, runExchange_behind]
  exact ⟨rfl, rfl⟩

/-! ### A reader that knows the levels in force and nothing else -/

/-- Pin events that tell the levels in force on SCLK and MOSI. -/
def State.levelEvents (s : State) : List PinEvent := [.sclk s.pin.sclk.level, .mosi s.pin.mosi.level]

theorem after_levelEvents (s : State) :
    (PinReader.start s.params).after s.params s.levelEvents = .between s.pin.sclk.level s.pin.mosi.level := by
  simp [PinReader.after, State.levelEvents, PinReader.start, PinReader.next, settle_empty, PinReader.between]

/-- After the events that tell the levels, a pin trace is read by a reader between two groups at these levels. -/
theorem busReading_levelEvents (s : State) (es : List PinEvent) :
    busReading s.params (s.levelEvents ++ es) = busView s.params (.between s.pin.sclk.level s.pin.mosi.level) es := by
  have silent : busView s.params (PinReader.start s.params) s.levelEvents = [] := by
    simp [State.levelEvents, PinReader.start, PinReader.next, settle_empty, PinReader.between]
  rw [busReading, busView_append, silent, after_levelEvents, List.nil_append]

/-- The same state, with the levels in force alone in its traces. -/
def State.levelsOnly (s : State) : State := s.retraced s.levelEvents []

/-- Where the traces hold the levels in force alone, they tell an exchange that begins. -/
theorem telling_levelsOnly {s : State} (hcs : s.pin.cs ≠ .out s.params.csActive) (d : Dir) (p : List Byte) :
    (beginExchange d p s.levelsOnly).Telling := by
  have reader : s.levelsOnly.reader = .between s.pin.sclk.level s.pin.mosi.level := after_levelEvents s
  have silent : busReading s.params s.levelEvents = [] := by simpa using busReading_levelEvents s []
  have levels : s.levelsOnly.LevelsTold := by
    refine ⟨fun v hv => ?_, fun v hv => ?_⟩
    · rw [reader, show s.pin.sclk = .out v from hv]; rfl
    · rw [reader, show s.pin.mosi = .out v from hv]; rfl
  exact telling_beginExchange (silent ▸ ReadsAs.refl (busReading s.params s.levelEvents)) levels (by rw [reader]; rfl)
    hcs d p

/-! ### What the events of an exchange read as -/

/-- `t` has the traces of `s` and then these events, and the pin events read as `read` to a reader that knows the levels
in force in `s` and nothing else. -/
structure AddsReading (s t : State) (newBus read : List BusEvent) : Prop where
  bus  : t.obs.bus = s.obs.bus ++ newBus
  pins : ∃ newPins, t.obs.pins = s.obs.pins ++ newPins ∧
    busView s.params (.between s.pin.sclk.level s.pin.mosi.level) newPins = read

/-- What the events of an exchange read as can be told from the exchange that has the levels in force alone in its
traces. -/
theorem addsReading_runExchange (s : State) (d : Dir) (p : List Byte) :
    AddsReading s (runExchange (beginExchange d p s)) (runExchange (beginExchange d p s.levelsOnly)).obs.bus
      (busReading s.params (runExchange (beginExchange d p s.levelsOnly)).obs.pins) := by
  obtain ⟨newPins, newBus, adds⟩ := runExchange_adds (beginExchange d p s)
  obtain ⟨pins, bus⟩ := adds s.obs.pins s.obs.bus
  obtain ⟨levelPins, levelBus⟩ : (runExchange (beginExchange d p s.levelsOnly)).obs.pins = s.levelEvents ++ newPins ∧
      (runExchange (beginExchange d p s.levelsOnly)).obs.bus = [] ++ newBus := adds s.levelEvents []
  rw [levelPins, levelBus, busReading_levelEvents]
  exact ⟨bus, newPins, pins, rfl⟩

/-! ### The two data requests -/

/-- The two data requests of a payload run their exchanges. -/
theorem exec_runsExchange {s : State} {args : List Byte} (hc : s.claimed = true)
    (hp : args.length = s.payloadLen.toNat) : ∀ i ∈ [Instr.dataRd [], .dataWr args],
    ∃ d p, p.length = s.payloadLen.toNat ∧ exec i s = .next (runExchange (beginExchange d p s)) := by
  simp only [List.forall_mem_cons]
  exact ⟨⟨_, _, List.length_replicate, exec_dataRd hc⟩, ⟨_, _, hp, exec_dataWr hc hp⟩, List.forall_mem_nil _⟩

/-- An exchange has no abort among its Select and its bytes. -/
theorem abort_notMem_bytes (n : Nat) (outs ins : List Byte) :
    .abort n ∉ .select :: List.zipWith BusEvent.byte outs ins := by
  induction outs generalizing ins with
  | nil => simp
  | cons o outs ih => cases ins <;> simp_all

/-- CS floating inside a group is read as the abort of its whole bits. -/
theorem next_float_inside {s : State} (l : s.LevelsTold) (g : s.GroupTold)
    (h : ¬ (s.engine.bitIdx = 0 ∧ s.engine.half = .lead)) :
    (s.reader.next s.params (.cs none)).2 = [.abort s.engine.bitIdx, .deselect] := by
  have sclk := l.1 _ g.sclk
  have count := g.count
  have bits : s.reader.wholeBits s.params = s.engine.bitIdx := by
    unfold PinReader.wholeBits
    rw [sclk, count]
    cases s.engine.half <;> cases s.params.cpha <;> cases s.params.cpol <;> simp
  have begun : ¬ (s.reader.count = 0 ∧ s.reader.sclk = s.params.cpol) := by
    rw [sclk, count]
    cases hh : s.engine.half
    · simpa [hh] using h
    · simp
  simp only [PinReader.next, if_neg begun, bits]

/-- Midway through an exchange whose begin the trace tells, the trace tells where it stands. -/
theorem telling_midway {b u : State} {k : Nat} (h : b.Telling) (m : Midway b k u) : u.Telling := by
  have run := m.steps 0
  rcases runEngine_keeps State.Telling telling_engineStep _ b h with h | ⟨v, -, -, e⟩
  · rw [run] at h
    exact h
  · have idle : u.engine.phase = .idle := by
      rw [show u = _ from run.symm.trans e]
      exact (closed_finishExchange v).phase
    rcases m.place with ⟨hp, -⟩ | ⟨hp, -⟩ <;> rw [hp] at idle <;> cases idle

/-- What is read when CS floats after `k` half-bit steps: an abort, but at a byte boundary (43_serializer R145, R148). -/
theorem next_float_midway {b u : State} {k : Nat} (m : Midway b k u) (l : u.LevelsTold) (g : u.GroupTold) :
    (u.reader.next u.params (.cs none)).2 =
      if k % 16 = 0 then [.deselect] else [.abort (k % 16 / 2), .deselect] := by
  have half : u.engine.half = .lead ↔ k % 2 = 0 := by rw [m.half]; simp
  split
  · exact next_float_between l g (by rw [m.bitIdx]; omega) (half.2 (by omega))
  · rw [← m.bitIdx]
    refine next_float_inside l g ?_
    rw [half, m.bitIdx]
    omega

/-- DESELECT is read as CS floating, and the answer is not read. -/
theorem read_closed {v t : State} (h : Closed v t) (params : t.params = v.params) (selected : v.pin.cs ≠ .input) :
    t.read = ((v.reader.next v.params (.cs none)).1, v.read.2 ++ (v.reader.next v.params (.cs none)).2) :=
  (read_congr (s := v.floatCs) (by simp [params]) h.pins).trans (read_floatCs_edge selected)

section
variable {s : State} {d : Dir} {p : List Byte} (hl : s.cmdLen.toNat ≤ cmdCap) (hp : p.length = s.payloadLen.toNat)
  (hcs : s.pin.cs ≠ .out s.params.csActive)
include hl hp hcs

/-- An exchange that is not aborted adds bus events that its pin events read as. -/
theorem addsReading_undisturbed {ins : List Byte} (h : s.undisturbed ins) :
    ∃ newBus, AddsReading s (runExchange (beginExchange d p s)) newBus newBus := by
  have whole := wholeExchange_undisturbed (s := s.levelsOnly) (d := d) hl hp h
  have added := addsReading_runExchange s d p
  have tells := pinsTell_runExchange (telling_levelsOnly hcs d p)
  generalize runExchange (beginExchange d p s.levelsOnly) = t at whole added tells
  have params : t.params = s.params := whole.frame.params
  have noAbort : .abort 0 ∉ t.obs.bus := by
    rw [whole.bus]
    simpa [State.levelsOnly, State.retraced, beginExchange] using abort_notMem_bytes 0 _ _
  have reading := (tells.reads (by simp [whole.phase])).eq noAbort
  rw [params] at reading
  rw [reading] at added
  exact ⟨_, added⟩

/-- An exchange that the transport aborts after `k` half-bit steps adds bus events with the abort, which its pin events
read as, but that an abort at a byte boundary is not read. -/
theorem addsReading_aborted {k : Nat} {rest : List TransportDraw} (hk : k < 16 * s.exchangeBytes)
    (ht : s.env.transport = List.replicate k .tick ++ .abort :: rest) : ∃ before, .abort 0 ∉ before ∧
      AddsReading s (runExchange (beginExchange d p s)) (before ++ [.abort (k % 16 / 2), .deselect])
        (before ++ if k % 16 = 0 then [.deselect] else [.abort (k % 16 / 2), .deselect]) := by
  have draws : (beginExchange d p s.levelsOnly).env.transport.drop k = .abort :: rest := by
    show s.env.transport.drop k = _
    rw [ht, List.drop_left' List.length_replicate]
  obtain ⟨u, m, e, -⟩ := run_abort (begun_beginExchange d p s.levelsOnly hl hp) ⟨_, ht.symm⟩ hk draws
  have added := addsReading_runExchange s d p
  have closed := closed_finishExchange (abortAt (k % 16 / 2) u.ticked)
  have frame := requestFrame_runExchange (beginExchange d p s.levelsOnly)
  rw [← e] at closed
  generalize runExchange (beginExchange d p s.levelsOnly) = t at closed added frame
  have tells := telling_midway (telling_levelsOnly hcs d p) m
  have selected : u.engine.phase = .cmd ∨ u.engine.phase = .payload := m.place.imp And.left And.left
  obtain ⟨ins, -, before⟩ := m.bus
  have noAbort : .abort 0 ∉ u.obs.bus := by rw [before]; exact abort_notMem_bytes 0 _ _
  have reading := (tells.tells.reads (by rcases selected with h | h <;> simp [h])).eq noAbort
  have params : (abortAt (k % 16 / 2) u.ticked).params = u.params := ticked_params u
  have still : (abortAt (k % 16 / 2) u.ticked).read = u.read := read_congr params (by simp [abortAt, State.ticked])
  have read := read_closed closed (frame.params.trans (params.trans m.frame.params).symm) (by simp [abortAt, m.cs])
  rw [still, reader_of_read still, params] at read
  have float := next_float_midway m (PinsTell_levels tells.tells) (tells.tells.group selected)
  have whole : busReading s.params t.obs.pins =
      u.obs.bus ++ if k % 16 = 0 then [.deselect] else [.abort (k % 16 / 2), .deselect] := by
    rw [← float, ← reading]
    exact frame.params ▸ busReading_of_read read
  rw [whole, closed.bus] at added
  exact ⟨u.obs.bus, noAbort, by simpa [abortAt] using added⟩

end

/-- Settles O40: every agent's move keeps `PinsTell`, a trace without `Abort(0)` is read exactly, and an exchange that is
not aborted is read from its own events. -/
theorem thePinTraceReadsAsTheBusTrace : Obligations.ThePinTraceReadsAsTheBusTrace := by
  refine ⟨pinsTell_launch, fun s t => pinsTell_step, fun s h hd noAbort => (h.reads hd).eq noAbort, ?_⟩
  intro s args ins hc hl h hcs hargs i hi
  obtain ⟨d, p, hp, run⟩ := exec_runsExchange hc hargs i hi
  obtain ⟨newBus, bus, newPins, pins, reading⟩ := addsReading_undisturbed (d := d) hl hp hcs h
  exact ⟨_, newPins, newBus, run, pins, bus, reading⟩

/-- Settles O41: where the transport aborts, the trace tells the bits of the current group, and CS floating cuts it. -/
theorem thePinTraceOfAnAbortReadsAsTheBusTrace : Obligations.ThePinTraceOfAnAbortReadsAsTheBusTrace := by
  intro s args k rest hc hl hcs hargs hk ht i hi
  obtain ⟨d, p, hp, run⟩ := exec_runsExchange hc hargs i hi
  obtain ⟨before, noAbort, bus, newPins, pins, reading⟩ := addsReading_aborted (d := d) hl hp hcs hk ht
  refine ⟨_, newPins, _, run, pins, bus, by simp, reading.trans ?_⟩
  split
  · next boundary =>
    have kept : before.filter (· != .abort 0) = before := by
      refine List.filter_eq_self.2 fun e he => ?_
      rw [bne_iff_ne]
      rintro rfl
      exact noAbort he
    rw [List.filter_append, kept, boundary]
    rfl
  · rfl

end Sys2Proof.Machine
end

section
/-! PROOF. The requests of the line arbiter and the external line consumer: what each answers, what the claim and the
lines become, and what stays (44_line_arbiter R160 to R170). -/

namespace Sys2Proof.Machine

/-! ### What each request answers -/

/-- The state of a successful claim: every line SELF and in its `P_LINE_INIT`, and `CLAIMED` set (44_line_arbiter R160). -/
def State.taken (s : State) : State := State.setClaimed true (State.initLines { s with owner := PerLine.const .self })

/-- `LOCK_RD` on free lines answers 1 (44_line_arbiter R166). -/
theorem exec_lockRd_free {s : State} (hc : s.claimed = false) (hf : ∀ l, s.owner.get l = .free) :
    exec (.lockRd []) s = .next (respond .ok [0x01] s.taken) := by
  have claims : claim s = (true, s.taken) := by
    rw [claim, hc, (allFree_iff s).2 hf]
    rfl
  simp only [exec, execLockRd, claims]
  rfl

/-- `LOCK_RD` on lines that are claimed, or not all free, only answers 0 (44_line_arbiter R160, R166). -/
theorem exec_lockRd_held {s : State} (h : s.claimed = true ∨ ∃ l, s.owner.get l ≠ .free) :
    exec (.lockRd []) s = .next (respond .ok [0x00] s) := by
  rcases claim_cases s with ⟨hc, hf, -⟩ | ⟨-, fails⟩
  · rcases h with h | ⟨l, h⟩
    · exact absurd (h.symm.trans hc) Bool.noConfusion
    · exact absurd (hf l) h
  · simp only [exec, execLockRd, fails]
    rfl

theorem exec_lockWr (args : List Byte) (s : State) : exec (.lockWr args) s = .next (respond .ok [] (release s)) := rfl

theorem exec_status (s : State) : exec (.status []) s = .next (respond .ok [flagByte s.claimed] s) := rfl

/-- `LOCK_RD` or `STATUS` with an argument is malformed (44_line_arbiter R166, R168). -/
theorem exec_lock_args {args : List Byte} (s : State) (h : args ≠ []) :
    ∀ i ∈ [Instr.lockRd args, .status args], exec i s = .next (respond .parseError [] s) := by
  have notEmpty : ¬ args.isEmpty = true := mt List.isEmpty_iff.1 h
  simp only [List.forall_mem_cons]
  exact ⟨exec_malformed notEmpty, exec_malformed notEmpty, List.forall_mem_nil _⟩

/-- Everything `LOCK_RD` can do: it takes free lines that nothing claims, or it only answers. -/
theorem exec_lockRd_cases (args : List Byte) (s : State) :
    (s.claimed = false ∧ exec (.lockRd args) s = .next (respond .ok [0x01] s.taken)) ∨
      ∃ st r, exec (.lockRd args) s = .next (respond st r s) := by
  by_cases ha : args = []
  case neg => exact .inr ⟨_, _, exec_lock_args s ha _ (by simp)⟩
  case pos =>
    subst ha
    rcases claim_cases s with ⟨hc, hf, -⟩ | ⟨held, -⟩
    · exact .inl ⟨hc, exec_lockRd_free hc hf⟩
    · exact .inr ⟨_, _, exec_lockRd_held held⟩

/-- `STATUS` only answers. -/
theorem exec_status_answers (args : List Byte) (s : State) :
    ∃ st r, exec (.status args) s = .next (respond st r s) := by
  by_cases ha : args = []
  · subst ha
    exact ⟨_, _, exec_status s⟩
  · exact ⟨_, _, exec_lock_args s ha _ (by simp)⟩

/-! ### Claim and release -/

theorem taken_pin (s : State) (l : Line) : s.taken.pin.get l = initPin (s.params.lineInit.get l) :=
  PerLine.get_map ..

/-- With the default `P_LINE_INIT` a claim drives SCLK to its idle level and MOSI low (44_line_arbiter R162). -/
theorem taken_pin_default {s : State} (h : s.params.lineInit = lineInitDefault s.params.cpol) :
    s.taken.pin = ⟨.out s.params.cpol, .out false, .input, .input, .input⟩ := by
  have pins : s.taken.pin = (lineInitDefault s.params.cpol).map initPin := h ▸ rfl
  rw [pins]
  cases s.params.cpol <;> rfl

/-- From undriven lines the pin trace shows these two levels (43_serializer R145; log entry 7). -/
theorem initEvents_default {s : State} (h : s.params.lineInit = lineInitDefault s.params.cpol)
    (hp : s.pin = PerLine.const .input) : s.initEvents = [.sclk s.params.cpol, .mosi false] := by
  rw [State.initEvents, h, hp]
  cases s.params.cpol <;> rfl

/-- Settles O17: the three outcomes of `LOCK_RD`. -/
theorem lockRdClaimsAllFiveLinesOrNone : Obligations.LockRdClaimsAllFiveLinesOrNone := by
  intro s args
  refine ⟨decode_encode (i := .lockRd []) rfl, fun hc hf => ?_, exec_lockRd_held, fun h => exec_lock_args s h _ (by simp)⟩
  refine ⟨_, exec_lockRd_free hc hf, rfl, PerLine.get_const _, fun l => (taken_pin s l).trans ?_, rfl⟩
  cases s.params.lineInit.get l <;> rfl

/-- Settles O18: `P_LINE_INIT` is legal in MISO and CS, and the default drives SCLK and MOSI alone. -/
theorem aClaimSelectsNoPeripheralAndLeavesMisoAnInput :
    Obligations.AClaimSelectsNoPeripheralAndLeavesMisoAnInput := by
  intro s legal hc hf
  refine ⟨_, exec_lockRd_free hc hf, rfl, congrArg initPin (legal_miso legal), legal_cs legal, fun isDefault => ?_⟩
  exact ⟨taken_pin_default isDefault, fun undriven =>
    congrArg (s.obs.pins ++ ·) (initEvents_default isDefault undriven)⟩

/-- Settles O19: a release, line by line. -/
theorem lockWrReleasesEveryOwnedLine : Obligations.LockWrReleasesEveryOwnedLine := by
  intro s args
  refine ⟨_, exec_lockWr args s, fun short => decode_encode (i := .lockWr args) (decide_eq_true short), rfl,
    fun l own => ⟨?_, ?_⟩, fun l other => ⟨?_, ?_⟩⟩
  · exact (release_owner s l).trans (if_pos own)
  · exact (release_pin s l).trans (if_pos own)
  · exact (release_owner s l).trans (if_neg other)
  · exact (release_pin s l).trans (if_neg other)

/-- Settles O20: the first release leaves no line of SELF and no claim for the second. -/
theorem aSecondLockWrChangesNothing : Obligations.ASecondLockWrChangesNothing := by
  intro s t a b h
  cases h
  rw [exec_lockWr, release_unowned (s := respond .ok [] (release s)) (release_none_self s)]
  rfl

/-- Settles O21: the flag as a byte is 1 or 0. -/
theorem statusReportsTheClaimAndChangesNothing : Obligations.StatusReportsTheClaimAndChangesNothing := by
  intro s args
  refine ⟨decode_encode (i := .status []) rfl, fun hc => ?_, fun hc => ?_, fun h => exec_lock_args s h _ (by simp)⟩ <;>
    rw [exec_status, hc] <;> rfl

/-- Settles O22: the second `LOCK_RD` finds the lines claimed by the first. -/
theorem twoLockRdReturnOneThenZero : Obligations.TwoLockRdReturnOneThenZero := fun s hc hf =>
  ⟨_, _, exec_lockRd_free hc hf, exec_lockRd_held (.inl rfl), rfl, List.append_assoc s.obs.responses [_] [_]⟩

/-! ### What moves the claim -/

theorem exec_keeps_claim {i : Instr} {s t : State} (notRd : ∀ a, i ≠ .lockRd a) (notWr : ∀ a, i ≠ .lockWr a)
    (h : exec i s = .next t) : t.claimed = s.claimed ∧ t.owner = s.owner := by
  cases i with
  | lockRd args => exact absurd rfl (notRd args)
  | lockWr args => exact absurd rfl (notWr args)
  | dataWr args | dataRd args =>
    have f := requestFrame_dataRequest (args := args) (by simp) h
    exact ⟨f.claimed, f.owner⟩
  | numcmdWr args | numcmdRd args | cmdWr args | cmdRd args | numrwWr args | numrwRd args =>
    obtain ⟨u, r, rfl, -⟩ := configuration_next (args := args) (by simp) h
    exact ⟨rfl, rfl⟩
  | status args =>
    obtain ⟨st, r, e⟩ := exec_status_answers args s
    cases e.symm.trans h
    exact ⟨rfl, rfl⟩

/-- Settles O23: the frames of the other nine requests, a claim that only sets `CLAIMED`, and a release. -/
theorem onlyLockRequestsMoveTheClaim : Obligations.OnlyLockRequestsMoveTheClaim := by
  intro i s t h
  refine ⟨fun notRd notWr => exec_keeps_claim notRd notWr h, ?_, ?_⟩
  · rintro ⟨args, rfl⟩ hc
    rcases exec_lockRd_cases args s with ⟨-, e⟩ | ⟨st, r, e⟩ <;> cases e.symm.trans h
    · rfl
    · exact hc
  · rintro ⟨args, rfl⟩
    cases h
    rfl

/-! ### The frame -/

/-- `s` with the claim, the owners, the pins and the pin trace of `u`, after the response `r` to the host in service. -/
def State.answeredHolding (s u : State) (r : Response) : State :=
  { s with
    claimed := u.claimed, owner := u.owner, pin := u.pin, seq := .idle
    obs := { s.obs with pins := u.obs.pins, responses := s.obs.responses ++ [(s.client, r)] } }

/-- The pin trace of `t` is that of `s` with the events of a claim, when there is one (log entry 7). -/
def TracesClaim (s t : State) : Prop :=
  t.obs.pins = s.obs.pins ++ if t.claimed = true ∧ s.claimed = false then s.initEvents else []

theorem tracesClaim_refl (s : State) : TracesClaim s s := by
  have noClaim : ¬ (s.claimed = true ∧ s.claimed = false) := fun ⟨h, h'⟩ => Bool.noConfusion (h.symm.trans h')
  rw [TracesClaim, if_neg noClaim, List.append_nil]

theorem tracesClaim_taken {s : State} (hc : s.claimed = false) : TracesClaim s s.taken := by
  rw [TracesClaim, if_pos ⟨rfl, hc⟩]
  rfl

theorem tracesClaim_release (s : State) : TracesClaim s (release s) :=
  (List.append_nil s.obs.pins).symm

/-- A next state of an arbiter request is the old one but for the claim, the lines and the answer; `STATUS` leaves the
claim and the lines too. -/
theorem arbiter_next {args : List Byte} {i : Instr} {s t : State}
    (hi : i ∈ [Instr.lockRd args, .lockWr args, .status args]) (h : exec i s = .next t) :
    ∃ u r, t = s.answeredHolding u r ∧ TracesClaim s u ∧ (i = .status args → u = s) := by
  simp only [List.mem_cons, List.not_mem_nil, or_false] at hi
  rcases hi with rfl | rfl | rfl
  · rcases exec_lockRd_cases args s with ⟨hc, e⟩ | ⟨st, r, e⟩ <;> cases e.symm.trans h
    · exact ⟨s.taken, _, rfl, tracesClaim_taken hc, nofun⟩
    · exact ⟨s, _, rfl, tracesClaim_refl s, nofun⟩
  · cases h
    exact ⟨release s, _, rfl, tracesClaim_release s, nofun⟩
  · obtain ⟨st, r, e⟩ := exec_status_answers args s
    cases e.symm.trans h
    exact ⟨s, _, rfl, tracesClaim_refl s, fun _ => rfl⟩

/-- Settles O24: `answeredHolding` leaves the fields outside the arbiter. -/
theorem arbiterRequestsFrame : Obligations.ArbiterRequestsFrame := by
  intro args s t i hi h
  obtain ⟨u, r, rfl, pins, status⟩ := arbiter_next hi h
  refine ⟨rfl, rfl, rfl, rfl, rfl, rfl, rfl, rfl, rfl, rfl, rfl, rfl, rfl, fun _ => rfl, pins, fun e => ?_⟩
  cases status e
  exact ⟨rfl, rfl, rfl⟩

/-! ### The external line consumer -/

theorem externalTake_frame (lines : List Line) (s : State) :
    externalTake lines s = { s with owner := (externalTake lines s).owner } := by
  rcases externalTake_cases lines s with ⟨-, e⟩ | ⟨-, e⟩ <;> rw [e]

theorem externalGive_frame (lines : List Line) (s : State) :
    externalGive lines s = { s with owner := (externalGive lines s).owner } := by
  rcases externalGive_cases lines s with ⟨-, e⟩ | ⟨-, e⟩ <;> rw [e]

theorem externalTake_owner {lines : List Line} {s : State} (h : lines ≠ [] ∧ ∀ l ∈ lines, s.owner.get l = .free)
    (l : Line) : (externalTake lines s).owner.get l = if l ∈ lines then .other else s.owner.get l := by
  rw [externalTake, if_pos ((allOwned_iff ..).2 h)]
  exact setOwners_get ..

theorem externalGive_owner {lines : List Line} {s : State} (h : lines ≠ [] ∧ ∀ l ∈ lines, s.owner.get l = .other)
    (l : Line) : (externalGive lines s).owner.get l = if l ∈ lines then .free else s.owner.get l := by
  rw [externalGive, if_pos ((allOwned_iff ..).2 h)]
  exact setOwners_get ..

/-- A move that cannot happen changes nothing (log entry 4). -/
theorem externalTake_dropped {lines : List Line} {s : State}
    (h : ¬ (lines ≠ [] ∧ ∀ l ∈ lines, s.owner.get l = .free)) : externalTake lines s = s :=
  if_neg fun owned => h ((allOwned_iff ..).1 owned)

theorem externalGive_dropped {lines : List Line} {s : State}
    (h : ¬ (lines ≠ [] ∧ ∀ l ∈ lines, s.owner.get l = .other)) : externalGive lines s = s :=
  if_neg fun owned => h ((allOwned_iff ..).1 owned)

/-- Settles O25: both moves change owners alone, from FREE to OTHER and back. -/
theorem externalConsumerNeverTouchesAnOwnedLine : Obligations.ExternalConsumerNeverTouchesAnOwnedLine :=
  fun lines s => ⟨_, _, rfl, rfl, externalTake_frame lines s, externalGive_frame lines s, externalTake_self lines s,
    externalGive_self lines s, externalTake_owner, externalTake_dropped, externalGive_owner, externalGive_dropped⟩

end Sys2Proof.Machine
end

section
/-! PROOF. The byte as it is printed is the byte token of that byte, and a printed byte list reads back (45_text_frontend
R181 to R184, R192). -/

namespace Sys2Proof.Machine

/-! ### Digits -/

theorem digitValue_digitChar : ∀ {d : Nat}, d < 16 → digitValue (digitChar d) = some d := by decide

theorem isSpace_digitChar : ∀ {d : Nat}, d < 16 → isSpace (digitChar d) = false := by decide

theorem digitChar_bounds : ∀ {d : Nat}, d < 10 → 0x30 ≤ (digitChar d).toNat ∧ (digitChar d).toNat ≤ 0x39 := by decide

theorem eq_zero_of_digitChar : ∀ {d : Nat}, d < 10 → digitChar d = 0x30 → d = 0 := by decide

/-- The digit characters written out (45_text_frontend R192: lower case). -/
theorem digitChar_eq_getD : ∀ {d : Nat}, d < 16 → digitChar d = ([0x30, 0x31, 0x32, 0x33, 0x34, 0x35, 0x36, 0x37, 0x38,
    0x39, 0x61, 0x62, 0x63, 0x64, 0x65, 0x66] : List Byte).getD d 0x00 := by decide

/-- The value of a run of digits after `acc`, the most significant first. -/
def valueFrom (radix acc : Nat) (ds : List Nat) : Nat := ds.foldl (fun a d => a * radix + d) acc

section
variable {radix : Nat} (hr : radix ≤ 16)
include hr

theorem digitsFrom_map_digitChar {ds : List Nat} (small : ∀ d ∈ ds, d < radix) (acc : Nat) :
    digitsFrom radix (ds.map digitChar) acc = some (valueFrom radix acc ds) := by
  induction ds generalizing acc with
  | nil => rfl
  | cons d ds ih =>
    obtain ⟨hd, hds⟩ := List.forall_mem_cons.1 small
    simp only [List.map_cons, digitsFrom, digitValue_digitChar (hd.trans_le hr), if_pos hd]
    exact ih hds _

theorem digits_map_digitChar {ds : List Nat} (ne : ds ≠ []) (small : ∀ d ∈ ds, d < radix) :
    digits radix (ds.map digitChar) = some (valueFrom radix 0 ds) := by
  rw [digits, if_neg (by simpa using ne), digitsFrom_map_digitChar hr small]

end

theorem byteToken_of_number {m : ParseMode} {t : List Byte} {b : Byte} (h : number m t = some b.toNat) :
    byteToken m t = some b := by
  have hb : b.toNat ≤ 255 := Nat.le_of_lt_succ b.isLt
  simp only [byteToken, h, if_pos hb, BitVec.ofNat_toNat, BitVec.setWidth_eq]

/-! ### Decimal -/

/-- The decimal of a byte is the run of its digits, the first of which is 0 for the byte 0 alone. -/
theorem decimal_eq_map_digitChar (b : Byte) : ∃ d ds, decimal b = (d :: ds).map digitChar ∧ (∀ e ∈ d :: ds, e < 10) ∧
    valueFrom 10 0 (d :: ds) = b.toNat ∧ (d = 0 → b = 0x00) := by
  have hb : b.toNat < 256 := b.isLt
  have zero (h : b.toNat = 0) : b = 0x00 := BitVec.eq_of_toNat_eq h
  simp only [decimal]
  split_ifs
  · exact ⟨b.toNat, [], rfl, by simp; omega, by simp [valueFrom], zero⟩
  · exact ⟨b.toNat / 10, [b.toNat % 10], rfl, by simp; omega, by simp [valueFrom]; omega, fun h => zero (by omega)⟩
  · exact ⟨b.toNat / 100, [b.toNat / 10 % 10, b.toNat % 10], rfl, by simp; omega, by simp [valueFrom]; omega,
      fun h => zero (by omega)⟩

theorem decimal_bounds {b c : Byte} (h : c ∈ decimal b) : 0x30 ≤ c.toNat ∧ c.toNat ≤ 0x39 := by
  obtain ⟨d, ds, e, small, -⟩ := decimal_eq_map_digitChar b
  obtain ⟨x, hx, rfl⟩ := List.mem_map.1 (e ▸ h)
  exact digitChar_bounds (small x hx)

theorem eq_zero_of_decimal_head {b : Byte} (h : (decimal b).head? = some 0x30) : b = 0x00 := by
  obtain ⟨d, ds, e, small, -, zero⟩ := decimal_eq_map_digitChar b
  rw [e] at h
  exact zero (eq_zero_of_digitChar (small d List.mem_cons_self) (Option.some.inj h))

theorem number_dec_decimal (b : Byte) : number .dec (decimal b) = some b.toNat := by
  obtain ⟨d, ds, e, small, value, -⟩ := decimal_eq_map_digitChar b
  rw [e, number, digits_map_digitChar (by decide) (List.cons_ne_nil d ds) small, value]

/-- Behind a first character that is no `0`, AUTO is base 10 as DEC is (45_text_frontend R181, R182). -/
theorem number_auto_eq_dec {t : List Byte} (h : t.head? ≠ some 0x30) : number .auto t = number .dec t := by
  cases t with
  | nil => rfl
  | cons c cs => exact if_neg fun zero => h (congrArg some (eq_of_beq zero))

theorem number_auto_decimal (b : Byte) : number .auto (decimal b) = some b.toNat := by
  by_cases h : (decimal b).head? = some 0x30
  · rw [eq_zero_of_decimal_head h]
    rfl
  · rw [number_auto_eq_dec h, number_dec_decimal]

/-! ### `0xhh` -/

theorem number_auto_hexByte (b : Byte) : number .auto (hexByte b) = some b.toNat := by
  have hb : b.toNat < 256 := b.isLt
  calc number .auto (hexByte b) = digits 16 ([b.toNat / 16, b.toNat % 16].map digitChar) := rfl
    _ = some (valueFrom 16 0 [b.toNat / 16, b.toNat % 16]) :=
      digits_map_digitChar le_rfl (List.cons_ne_nil _ _) (by simp; omega)
    _ = some b.toNat := by simp [valueFrom]; omega

/-- The `x` is no decimal digit. -/
theorem byteToken_dec_hexByte (b : Byte) : byteToken .dec (hexByte b) = none := rfl

theorem byteToken_auto_hexByte (b : Byte) : byteToken .auto (hexByte b) = some b :=
  byteToken_of_number (number_auto_hexByte b)

theorem isSpace_of_mem_hexByte {b c : Byte} (h : c ∈ hexByte b) : isSpace c = false := by
  have hb : b.toNat < 256 := b.isLt
  simp only [hexByte, List.mem_cons, List.not_mem_nil, or_false] at h
  rcases h with rfl | rfl | rfl | rfl
  · rfl
  · rfl
  · exact isSpace_digitChar (by omega)
  · exact isSpace_digitChar (by omega)

/-- Settles O53: both forms are numbers of the value of the byte, and their digits are those of `digitChar`. -/
theorem printedBytesAreByteTokens : Obligations.PrintedBytesAreByteTokens := by
  refine ⟨fun b => ?_, fun b => ⟨?_, eq_zero_of_decimal_head⟩, rfl, fun b => ?_⟩
  · exact ⟨byteToken_of_number (number_auto_decimal b), byteToken_of_number (number_dec_decimal b),
      byteToken_auto_hexByte b, byteToken_dec_hexByte b⟩
  · simpa using fun c hc => decimal_bounds hc
  · have hb : b.toNat < 256 := b.isLt
    rw [hexByte, digitChar_eq_getD (by omega : b.toNat / 16 < 16), digitChar_eq_getD (by omega : b.toNat % 16 < 16)]

/-- Settles O54: the examples are closed texts, which `byteToken` evaluates. -/
theorem numberFormsOfTheTextInterface : Obligations.NumberFormsOfTheTextInterface := by
  unfold Obligations.NumberFormsOfTheTextInterface
  decide

/-! ### Byte lists (45_text_frontend R184, R192) -/

theorem byteList_nil : byteList [] = [0x0A] := rfl

theorem byteList_singleton (b : Byte) : byteList [b] = hexByte b ++ [0x0A] := rfl

theorem byteList_cons_cons (b c : Byte) (bs : List Byte) :
    byteList (b :: c :: bs) = hexByte b ++ 0x20 :: byteList (c :: bs) := by
  simp [byteList]

/-- Characters that are no white space go on with the token being read. -/
theorem tokensFrom_append {t : List Byte} (noSpace : ∀ c ∈ t, isSpace c = false) (rest cur : List Byte) :
    tokensFrom (t ++ rest) cur = tokensFrom rest (t.reverse ++ cur) := by
  induction t generalizing cur with
  | nil => rfl
  | cons c cs ih =>
    obtain ⟨hc, hcs⟩ := List.forall_mem_cons.1 noSpace
    simp [tokensFrom, hc, ih hcs]

/-- A run of other characters before a white-space character is a token. -/
theorem tokens_append_space {t : List Byte} (ne : t ≠ []) (noSpace : ∀ c ∈ t, isSpace c = false) {c : Byte}
    (hc : isSpace c = true) (rest : List Byte) : tokens (t ++ c :: rest) = t :: tokens rest := by
  rw [tokens, tokensFrom_append noSpace]
  simp [tokensFrom, hc, ne, tokens]

theorem tokens_hexByte {c : Byte} (hc : isSpace c = true) (b : Byte) (rest : List Byte) :
    tokens (hexByte b ++ c :: rest) = hexByte b :: tokens rest :=
  tokens_append_space (List.cons_ne_nil _ _) (fun _ => isSpace_of_mem_hexByte) hc rest

theorem tokens_byteList (bs : List Byte) : tokens (byteList bs) = bs.map hexByte := by
  induction bs with
  | nil => rfl
  | cons b bs ih =>
    cases bs with
    | nil => exact tokens_hexByte rfl b []
    | cons c bs => rw [byteList_cons_cons, tokens_hexByte rfl, ih, ← List.map_cons]

theorem byteTokens_map {m : ParseMode} {f : Byte → List Byte} (hf : ∀ b, byteToken m (f b) = some b) (bs : List Byte) :
    byteTokens m bs.length (bs.map f) = some bs := by
  induction bs with
  | nil => rfl
  | cons b bs ih => simp only [List.length_cons, List.map_cons, byteTokens, hf, ih]

/-- Settles O55: the tokens of a printed list are the `0xhh` forms of its bytes, each the byte token of its byte. -/
theorem printedByteListsReadBack : Obligations.PrintedByteListsReadBack :=
  ⟨byteList_nil, byteList_singleton, byteList_cons_cons, fun bs => by
    rw [tokens_byteList, byteTokens_map byteToken_auto_hexByte]⟩

end Sys2Proof.Machine
end

section
/-! PROOF. What a text operation that ends reports, and what the front-end does with the response it waits for
(45_text_frontend R180, R185 to R188, R191, R194, R195). -/

namespace Sys2Proof.Machine

/-! ### The `cmd` write (45_text_frontend R186) -/

theorem beginCmdWrite_no_token (m : ParseMode) {str : List Byte} (h : tokens str = []) :
    beginCmdWrite m str = .done (.failed .parseError) := by
  simp only [beginCmdWrite, h]

section
variable {m : ParseMode} {str t : List Byte} {ts : List (List Byte)} (ht : tokens str = t :: ts)
include ht

theorem beginCmdWrite_no_byte (h : byteToken m t = none) : beginCmdWrite m str = .done (.failed .parseError) := by
  simp only [beginCmdWrite, ht, h]

variable {n : Byte} (hn : byteToken m t = some n)
include hn

theorem beginCmdWrite_too_many (h : 4 < n.toNat) : beginCmdWrite m str = .done (.failed .parseError) := by
  simp only [beginCmdWrite, ht, hn]
  exact if_pos h

theorem beginCmdWrite_too_few (h : byteTokens m n.toNat ts = none) :
    beginCmdWrite m str = .done (.failed .parseError) := by
  simp only [beginCmdWrite, ht, hn, h, ite_self]

theorem beginCmdWrite_send (h : n.toNat ≤ 4) {bs : List Byte} (hbs : byteTokens m n.toNat ts = some bs) :
    beginCmdWrite m str = .send (.cmdWr (n :: bs)) false := by
  simp only [beginCmdWrite, ht, hn, cmdCap, if_neg (Nat.not_lt.2 h), hbs]

end

theorem beginCmdWrite_done {m : ParseMode} {str : List Byte} {r : TextResult} (h : beginCmdWrite m str = .done r) :
    r = .failed .parseError := by
  unfold beginCmdWrite at h
  split at h
  · cases h; rfl
  · split at h
    · cases h; rfl
    · split_ifs at h
      · cases h; rfl
      · split at h
        · cases h; rfl
        · cases h

/-! ### Operations that end at once (45_text_frontend R194) -/

section
variable {p : Params} {str : List Byte}

theorem beginText_numcmd_fails (h : singleValue p.parseMode.numcmd str = none) :
    beginText p (.write .numcmd str) = .done (.failed .parseError) := by
  simp only [beginText, h]

theorem beginText_numrw_fails (h : singleValue p.parseMode.numrw str = none) :
    beginText p (.write .numrw str) = .done (.failed .parseError) := by
  simp only [beginText, h]

/-- White space that `R195` does not drop is in no number. -/
theorem beginText_single_fails_of_space {e : Endpoint} (he : e ∈ [Endpoint.numcmd, .numrw])
    (h : ∀ m, singleValue m str = none) : beginText p (.write e str) = .done (.failed .parseError) := by
  simp only [List.mem_cons, List.not_mem_nil, or_false] at he
  rcases he with rfl | rfl
  · exact beginText_numcmd_fails (h _)
  · exact beginText_numrw_fails (h _)

end

/-- An operation that ends without a request is a write, and its text failed to parse. -/
theorem beginText_done {p : Params} {op : TextOp} {r : TextResult} (h : beginText p op = .done r) :
    r = .failed .parseError := by
  cases op with
  | read e => cases e <;> cases h
  | write e str =>
    cases e with
    | cmd => exact beginCmdWrite_done h
    | numcmd | numrw =>
      simp only [beginText] at h
      split at h <;> cases h
      rfl
    | data | lock => cases h

theorem submitText_done {s : State} {k : Nat} {op : TextOp} {r : TextResult} (free : s.hostFree k = true)
    (h : beginText s.params op = .done r) :
    submitText k op s = { s with obs := { s.obs with text := s.obs.text ++ [(k, r)] } } := by
  obtain ⟨-, -, notInText⟩ := (hostFree_iff s k).1 free
  rw [submitText, if_pos free, h]
  simp only [frontAct, jobs_filter_of_not_busy notInText]

/-- Settles O56: `beginText_done` and `submitText_done`, then the failing texts one by one. -/
theorem aTextParseFailureSendsNothing : Obligations.ATextParseFailureSendsNothing := by
  refine ⟨fun s k op r free h => ⟨beginText_done h, congrArg Host.Outcome.next (submitText_done free h)⟩,
    fun p str => ⟨beginText_numcmd_fails, beginText_numrw_fails, fun c hc hm e he => ⟨?_, fun noNewline => ?_⟩,
      beginCmdWrite_no_token _, fun t0 ts ht => ⟨beginCmdWrite_no_byte ht, fun n hn =>
        ⟨beginCmdWrite_too_many ht hn, beginCmdWrite_too_few ht hn⟩⟩⟩⟩
  · exact beginText_single_fails_of_space he fun m =>
      (singleValue_newline m str).trans (byteToken_of_space (isSpace_of_mem hc) m hm)
  · exact beginText_single_fails_of_space he fun m =>
      (singleValue_no_newline m noNewline).trans (byteToken_of_space (isSpace_of_mem hc) m hm)

/-- Settles O57: `beginCmdWrite_send`, and the move that sends (`submitText_send`). -/
theorem aCmdWriteSendsCmdWr : Obligations.ACmdWriteSendsCmdWr := fun _ _ _ _ _ _ _ free ht hn h hbs =>
  ⟨byteTokens_length _ _ _ _ hbs, _, congrArg Host.Outcome.next (submitText_send free (beginCmdWrite_send ht hn h hbs)),
    rfl, rfl, rfl⟩

/-! ### The response a front-end waits for (45_text_frontend R180, R191) -/

theorem answerTo_eq_some {s : State} {j : TextJob} {r : Response} {before between after : List (Nat × Response)}
    (h : s.obs.responses = before ++ between ++ (j.host, r) :: after) (since : before.length = j.since)
    (others : ∀ q ∈ between, q.1 ≠ j.host) : s.answerTo j = some r := by
  have skipped : between.find? (fun q => q.1 == j.host) = none := by simpa using others
  rw [State.answerTo, h, List.append_assoc, List.drop_left' since, List.find?_append, skipped]
  simp

theorem answerTo_eq_none {s : State} {j : TextJob} (h : ∀ q ∈ s.obs.responses.drop j.since, q.1 ≠ j.host) :
    s.answerTo j = none := by
  simpa [State.answerTo] using h

theorem host_of_find? {s : State} {k : Nat} {j : TextJob} (h : s.jobs.find? (fun j => j.host == k) = some j) :
    j.host = k := by
  simpa using List.find?_some h

/-- The front-end with an operation takes the first response to its host since the operation's request. -/
theorem frontStep_of_answer {s : State} {k : Nat} {j : TextJob} {r : Response}
    {before between after : List (Nat × Response)} (hj : s.jobs.find? (fun j => j.host == k) = some j)
    (h : s.obs.responses = before ++ between ++ (k, r) :: after) (since : before.length = j.since)
    (others : ∀ q ∈ between, q.1 ≠ k) :
    frontStep k s = frontAct k j.op (answerText s.params j.op j.learning r) s := by
  obtain rfl := host_of_find? hj
  simp only [frontStep, hj, frontStepJob, answerTo_eq_some h since others]

theorem frontStep_no_answer {s : State} {k : Nat} {j : TextJob} (hj : s.jobs.find? (fun j => j.host == k) = some j)
    (h : ∀ q ∈ s.obs.responses.drop j.since, q.1 ≠ k) : frontStep k s = s := by
  obtain rfl := host_of_find? hj
  simp only [frontStep, hj, frontStepJob, answerTo_eq_none h]

theorem frontStep_no_job {s : State} {k : Nat} (h : ∀ j ∈ s.jobs, j.host ≠ k) : frontStep k s = s := by
  have noJob : s.jobs.find? (fun j => j.host == k) = none := by simpa using h
  simp only [frontStep, noJob]

/-- Settles O58: the rows of `answerText`, and `frontStep` with an answer, without one, and without an operation. -/
theorem textFailuresFollowTheStatus : Obligations.TextFailuresFollowTheStatus := by
  refine ⟨fun p op learning res str e => ⟨rfl, rfl, rfl, rfl⟩,
    fun s k j r before between after res hj h since others done => ?_,
    fun s k j hj h => congrArg Host.Outcome.next (frontStep_no_answer hj h),
    fun s k h => congrArg Host.Outcome.next (frontStep_no_job h)⟩
  refine congrArg Host.Outcome.next ?_
  rw [frontStep_of_answer hj h since others, done]
  rfl

/-! ### The `data` write (45_text_frontend R188) -/

theorem answerText_data_learned (p : Params) (str : List Byte) (m : Byte) :
    answerText p (.write .data str) true ⟨.ok, [m]⟩ = continueDataWrite p.parseMode.data m.toNat str := rfl

theorem continueDataWrite_send {m : ParseMode} {n : Nat} {str bs : List Byte} (h : byteTokens m n (tokens str) = some bs) :
    continueDataWrite m n str = .send (.dataWr bs) false := by
  simp only [continueDataWrite, h]

theorem continueDataWrite_fails {m : ParseMode} {n : Nat} {str : List Byte} (h : byteTokens m n (tokens str) = none) :
    continueDataWrite m n str = .done (.failed .parseError) := by
  simp only [continueDataWrite, h]

theorem enqueue_of_not_outstanding {k : Nat} (f : List Byte) {s : State} (h : s.outstanding k = false) :
    enqueue k f s = { s with pending := s.pending ++ [⟨k, f⟩] } :=
  if_neg (ne_true_of_eq_false h)

/-- Settles O59: the answer `m` makes the front-end go on with `continueDataWrite`, and it does what that says. -/
theorem aDataWriteSendsItsFirstTokens : Obligations.ADataWriteSendsItsFirstTokens := by
  intro s k str m j before between after hj hop learning h since others notWaiting
  have goesOn : frontStep k s =
      frontAct k (.write .data str) (continueDataWrite s.params.parseMode.data m.toNat str) s := by
    rw [frontStep_of_answer hj h since others, hop, learning, answerText_data_learned]
  refine ⟨fun bs hbs => ⟨byteTokens_length _ _ _ _ hbs, congrArg Host.Outcome.next ?_⟩,
    fun hbs => congrArg Host.Outcome.next ?_⟩
  · rw [goesOn, continueDataWrite_send hbs]
    exact enqueue_of_not_outstanding _ notWaiting
  · rw [goesOn, continueDataWrite_fails hbs]
    rfl

end Sys2Proof.Machine
end

section
/-! PROOF. Which moves stop the machine (60_exceptions R222; 70_reset_and_hazards R231, R234). -/

namespace Sys2Proof.Machine

/-- A reset while BUSY is refused by name (70_reset_and_hazards R231). -/
theorem eventStep_reset_busy {s : State} (hb : s.seq = .busy) : eventStep .reset s = .refused .resetWhileBusy := by
  simp [eventStep, hb]

/-- Everything a move can end in, with frames that can be presented: a next state, or one of the two refusals. -/
theorem eventStep_next_or_refused (e : Event) {s : State} (hf : ∀ q ∈ s.pending, framePresentable q.frame = true) :
    (∃ t, eventStep e s = .next t) ∨ (eventStep e s = .refused .resetWhileBusy ∧ s.seq = .busy ∧ e = .reset) ∨
      (eventStep e s = .refused .tornDown ∧ e = .teardown) := by
  cases e with
  | reset =>
    cases hs : s.seq with
    | idle => exact .inl ⟨_, if_pos hs⟩
    | busy => exact .inr (.inl ⟨eventStep_reset_busy hs, rfl, rfl⟩)
  | teardown => exact .inr (.inr ⟨rfl, rfl⟩)
  | submit | text | front | serve | take | give => exact .inl (eventStep_next hf (by simp) (by simp))

/-- Settles O49: the invariant lets only frames that can be presented wait, and naming the next move changes neither
what waits nor whether the block is BUSY. -/
theorem onlyResetWhileBusyAndTeardownStop : Obligations.OnlyResetWhileBusyAndTeardownStop := by
  intro s h
  have presentable : ∀ q ∈ s.nextEvent.2.pending, framePresentable q.frame = true :=
    fun q hq => ((inv_nextEvent h).hosts.frames q hq).2
  rw [← nextEvent_seq s]
  exact eventStep_next_or_refused s.nextEvent.1 presentable

end Sys2Proof.Machine
end

section
/-! PROOF. The reset, the block with nothing to serve, and the exchange whose ticks do not come (70_reset_and_hazards
R230, R231, R233, R242). -/

namespace Sys2Proof.Machine

/-! ### Reset -/

/-- A reset while IDLE resets the block (70_reset_and_hazards R230). -/
theorem eventStep_reset_idle {s : State} (hi : s.seq = .idle) : eventStep .reset s = .next (resetBlock s) := if_pos hi

/-- Settles O43: a reset has the owners and the pins of a release, and writes the other registers itself. -/
theorem resetReleasesAndZeroesWhileIdle : Obligations.ResetReleasesAndZeroesWhileIdle := by
  refine fun s => ⟨fun hi => ⟨_, eventStep_reset_idle hi, rfl, rfl, rfl, rfl, rfl, rfl, rfl, rfl, rfl,
    fun l own => ?_, fun l other => ?_, fun inv l => ?_⟩, eventStep_reset_busy⟩
  · exact ⟨(release_owner s l).trans (if_pos own), (release_pin s l).trans (if_pos own)⟩
  · exact ⟨(release_owner s l).trans (if_neg other), (release_pin s l).trans (if_neg other)⟩
  · have undriven : (resetBlock s).pin = PerLine.const .input := release_undriven inv.regs
    rw [undriven, PerLine.get_const]

/-! ### Nothing to serve -/

/-- While IDLE with nothing pending a move of the sequencer changes nothing (70_reset_and_hazards R233). -/
theorem sequencerStep_nothing {s : State} (hi : s.seq = .idle) (hp : s.pending = []) (k : Nat) :
    sequencerStep k s = .next s := by
  rcases sequencerStep_cases k s with ⟨hb, -⟩ | ⟨-, -, e⟩ | ⟨-, r, hr, -⟩
  · cases hi.symm.trans hb
  · exact e
  · rw [hp] at hr
    cases hr

/-- Settles O52: naming the next move leaves the block IDLE with nothing pending, and the sequencer then finds nothing to
accept. -/
theorem anIdleBlockWaits : Obligations.AnIdleBlockWaits := by
  refine fun s k hi hp => ⟨sequencerStep_nothing hi hp k, fun t hn => ?_⟩
  have idle : t.seq = .idle := by simpa [hn] using (nextEvent_seq s).trans hi
  have nothing : t.pending = [] := by simpa [hn] using (nextEvent_pending s).trans hp
  rw [step, hn]
  exact sequencerStep_nothing idle nothing k

/-! ### An exchange whose ticks do not come -/

/-- Loading a byte changes the byte being sent and the byte being received, and no other register of the engine
(43_serializer R143). -/
theorem loadByte_engine (s : State) : (loadByte s).engine =
    { s.engine with shiftOut := (loadByte s).engine.shiftOut, shiftIn := (loadByte s).engine.shiftIn } := by
  unfold loadByte
  split <;> rfl

/-- Inside a byte, a step of the sequencer that gets no tick loads the byte at most, and uses up its move and its draw
(43_serializer R147). -/
theorem step_stall {s : State} {k : Nat} {R : List TransportDraw} {Y : List Event} (hb : s.seq = .busy) (hin : s.inByte)
    (hm : s.env.schedule = .serve k :: Y) (hd : s.env.transport = .stall :: R) :
    step s = .next ((loadByte s).script R Y) := by
  calc step s = sequencerStep k (s.script s.env.transport Y) := by rw [step, nextEvent_of_schedule hm]; rfl
    _ = .next (runExchange (s.script s.env.transport Y)) := sequencerStep_busy (s := s.script _ Y) hb k
    _ = .next ((loadByte s).script R Y) := by
      rw [runExchange_stall (s := s.script _ Y) hin hd, loadByte_script, script_script]; rfl

/-- However often the sequencer moves with no tick, the byte in progress is loaded at most, once: a loaded byte that is
loaded again is the same (70_reset_and_hazards R242). -/
theorem run_stalls (n k : Nat) (rest : List TransportDraw) : ∀ {s : State}, s.seq = .busy → s.inByte →
    s.env.schedule = List.replicate n (.serve k) → s.env.transport = List.replicate n .stall ++ rest →
    ∃ u : State, (u = s ∨ u = loadByte s) ∧ Host.Core.run Sys2Proof.core n s = .next (u.script rest []) := by
  induction n with
  | zero =>
    intro s _ _ hm hd
    have used : s.script rest [] = s := by
      rw [← (show s.env.transport = rest from hd), ← (show s.env.schedule = [] from hm), script_self]
    exact ⟨s, .inl rfl, by rw [used]; rfl⟩
  | succ n ih =>
    intro s hb hin hm hd
    have first : Sys2Proof.core.step s = .next ((loadByte s).script (List.replicate n .stall ++ rest)
      (List.replicate n (.serve k))) := step_stall hb hin hm hd
    obtain ⟨u, hu, later⟩ := ih (s := (loadByte s).script (List.replicate n .stall ++ rest) (List.replicate n (.serve k)))
      ((frame_loadByte s).seq.trans hb) (loadByte_inByte hin) rfl rfl
    refine ⟨loadByte s, .inr rfl, ?_⟩
    simp only [Host.Core.run, first]
    rw [later]
    rcases hu with rfl | rfl
    · rw [script_script]
    · rw [loadByte_script, loadByte_loadByte, script_script]

/-- Settles O33: after the missing ticks the state is the first one, with its byte loaded at most; loading changes no
more than the two bytes it writes, and the exchange goes on from a loaded byte as from the byte that is not loaded. -/
theorem aStuckExchangeBlocksEveryHost : Obligations.AStuckExchangeBlocksEveryHost := by
  intro n k s rest hb hin hm hd
  obtain ⟨u, hu, run⟩ := run_stalls n k rest hb hin hm hd
  rcases hu with rfl | rfl
  · exact ⟨_, run, hb, hin, rfl, rfl, rfl, rfl, rfl, rfl, rfl, fun _ => rfl, sequencerStep_busy (s := u.script rest []) hb⟩
  · have frame := frame_loadByte s
    have busy : (loadByte s).seq = .busy := frame.seq.trans hb
    have resumed : runExchange ((loadByte s).script rest []) = runExchange (s.script rest []) := by
      rw [← loadByte_script]
      exact runExchange_loadByte (s := s.script rest []) hin
    refine ⟨_, run, busy, loadByte_inByte hin, frame.pending, loadByte_obs s, loadByte_pin s, frame.client, frame.snap,
      loadByte_xferBuf s, loadByte_engine s, fun later => ?_, fun j => ?_⟩
    · rw [script_engine, loadByte_later s later]
    · exact (sequencerStep_busy (s := (loadByte s).script rest []) busy j).trans (congrArg _ resumed)

end Sys2Proof.Machine
end
